-- ==== Sys2Proof/Word.lean ====
section
/-! DEFINITION. The word types of the block: a byte, a 7-bit controller address, the 10-bit bus word. -/

namespace Sys2Proof

/-- The only width an access has (20_memory.md R36). -/
abbrev Byte := BitVec 8

/-- An address as the controller's Address Counter holds it (10_state.md R29). -/
abbrev Addr7 := BitVec 7

/-- RS, RW, DB7..DB0 with RS as bit 9 and RW as bit 8 (30_encoding.md R51). -/
abbrev BusWord := BitVec 10

end Sys2Proof
end

