-- ==== Sys2Proof/Syntax.lean ====
section
/-! DEFINITION. The operations the host can issue, one constructor per row of spec/opcode_table.json, and their operands. -/

namespace Sys2Proof

/-- Which of the controller's two registers a transfer targets (10_state.md R27). An operand, never state. -/
inductive Register where
  | instruction
  | data
  deriving DecidableEq, Repr

/-- The `length` parameter of `FunctionSet` (30_encoding.md R54). -/
inductive BusLength where
  | fourBit
  | eightBit
  deriving DecidableEq, Repr

/-- The `lines` parameter of `FunctionSet` (30_encoding.md R54). -/
inductive LineCount where
  | oneLine
  | twoLines
  deriving DecidableEq, Repr

/-- The `font` parameter of `FunctionSet` (30_encoding.md R54). -/
inductive Font where
  | font5x8
  | font5x10
  deriving DecidableEq, Repr

/-- The opaque name of an 8-bit platform register (00_scope.md R10: the addresses are the platform's). -/
abbrev PortName := Nat

/-- A single GPIO bit (10_state.md R18). `inport` is carried and used by no operation. -/
structure PinHandle where
  port : PortName
  bit : Fin 8
  inport : Option PortName
  deriving DecidableEq, Repr

/-- The data port handed to `Configure`: its output register and its input register, equal where the
platform has no separate one (43_register_access.md R91, 10_state.md R17). -/
structure DataBus where
  out : PortName
  inp : PortName
  deriving DecidableEq, Repr

/-- The three control lines handed to `Configure` (43_register_access.md R91). -/
structure ControlLines where
  rs : PinHandle
  rw : PinHandle
  enable : PinHandle
  deriving DecidableEq, Repr

/-- The bound data bus `H.bus` (10_state.md R17). -/
structure BusHandle where
  out : PortName
  inp : PortName
  dir : PortName
  deriving DecidableEq, Repr

/-- The bindings of the Controller Handle, `H.bus`, `H.rs`, `H.rw`, `H.en` (10_state.md R14 (a)). -/
structure Bindings where
  bus : BusHandle
  rs : PinHandle
  rw : PinHandle
  en : PinHandle
  deriving DecidableEq, Repr

/-- The operations (30_encoding.md R60). An address, a line, a column and a cell count are unbounded
unsigned integers (R55, 92_eei_decisions.md D17); a two-valued parameter has exactly its two values, so
that no other is a spelling the block takes (R54, D26); `text` is a sequence of bytes
(44_text_positioning.md R96). -/
inductive Instr where
  | clearDisplay
  | returnHome
  | setEntryMode (increment displayShift : Bool)
  | displayControl (displayOn cursorOn blinkOn : Bool)
  | cursorDisplayShift (displayRight cursorRight : Bool)
  | functionSet (length : BusLength) (lines : LineCount) (font : Font)
  | setCGRAMAddress (a : Nat)
  | setDisplayDataAddress (a : Nat)
  | writeDataReg (byte : Byte)
  | readDataReg
  | isBusy
  | readAddressCounter
  | waitNotBusy
  | writeLcd (register : Register) (byte : Byte)
  | readLcd (register : Register)
  | configure (dataBus : DataBus) (directionRegister : PortName) (controlLines : ControlLines)
  | mapAddress (line col : Nat)
  | clearCell (line pos : Nat)
  | writeAt (text : List Byte) (line pos cellsToClear : Nat)
  | writeLine (text : List Byte) (line : Nat)
  deriving DecidableEq, Repr

end Sys2Proof
end

