-- ==== Sys2Proof/Decode.lean ====
section
/-! DEFINITION. The encoding of 30_encoding.md: from a bus word to the operation it names, and back. -/

namespace Sys2Proof

/-- The RS bit of a register (30_encoding.md R51). -/
def Register.rsBit : Register → Bool
  | .instruction => false
  | .data => true

/-- `EIGHT_BIT` = 1 (30_encoding.md R54). -/
def BusLength.bit : BusLength → Bool
  | .fourBit => false
  | .eightBit => true

/-- `TWO_LINES` = 1 (30_encoding.md R54). -/
def LineCount.bit : LineCount → Bool
  | .oneLine => false
  | .twoLines => true

/-- `FONT5x10` = 1 (30_encoding.md R54). -/
def Font.bit : Font → Bool
  | .font5x8 => false
  | .font5x10 => true

def BusLength.ofBit (v : Bool) : BusLength := if v then .eightBit else .fourBit

def LineCount.ofBit (v : Bool) : LineCount := if v then .twoLines else .oneLine

def Font.ofBit (v : Bool) : Font := if v then .font5x10 else .font5x8

/-- Why a word names no operation. -/
inductive DecodeError where
  /-- A bus word has 10 bits (30_encoding.md R51); this one has a bit set above them. -/
  | notABusWord
  deriving DecidableEq, Repr

/-- The operation that writes instruction byte `b`: the format whose marker bit is the highest set bit
(30_encoding.md R58), and raw `WriteLcd` for a byte no encoder operation produces (R59). -/
def decodeInstructionByte (b : Byte) : Instr :=
  if b.getLsbD 7 then .setDisplayDataAddress (b.extractLsb' 0 7).toNat
  else if b.getLsbD 6 then .setCGRAMAddress (b.extractLsb' 0 6).toNat
  else if b.getLsbD 5 then
    if b.extractLsb' 0 2 = 0 ∧ ¬(b.getLsbD 3 ∧ b.getLsbD 2) then
      .functionSet (.ofBit (b.getLsbD 4)) (.ofBit (b.getLsbD 3)) (.ofBit (b.getLsbD 2))
    else .writeLcd .instruction b
  else if b.getLsbD 4 then
    if b.extractLsb' 0 2 = 0 then .cursorDisplayShift (b.getLsbD 3) (b.getLsbD 2)
    else .writeLcd .instruction b
  else if b.getLsbD 3 then .displayControl (b.getLsbD 2) (b.getLsbD 1) (b.getLsbD 0)
  else if b.getLsbD 2 then .setEntryMode (b.getLsbD 1) (b.getLsbD 0)
  else if b.getLsbD 1 then
    if b.getLsbD 0 then .writeLcd .instruction b else .returnHome
  else if b.getLsbD 0 then .clearDisplay
  else .writeLcd .instruction b

/-- The operation a bus word names, by RS and RW (30_encoding.md R51). Several operations share a word
(R61): the answer is the row of spec/opcode_table.json that comes first (log entry 2). -/
def decodeBusWord (w : BusWord) : Instr :=
  match w.getLsbD 9, w.getLsbD 8 with
  | false, false => decodeInstructionByte (w.extractLsb' 0 8)
  | false, true => .isBusy
  | true, false => .writeDataReg (w.extractLsb' 0 8)
  | true, true => .readDataReg

/-- Decoding is total on any bits; a word wider than a bus word is rejected by name. -/
def decode (w : Nat) : Except DecodeError Instr :=
  if w < 2 ^ 10 then .ok (decodeBusWord (BitVec.ofNat 10 w)) else .error .notABusWord

/-- The instruction the decoder reads from bits numbered as spec/opcode_table.json numbers them. A bus
word is one word, so the numbering is the bus word's own, and bits above `nbits` are 0. -/
def decodeTableWord (nbits w : Nat) : Option Instr :=
  (decode (w % 2 ^ nbits)).toOption

/-- The bus word with the given RS, RW and data byte (30_encoding.md R51). -/
def busWord (rs rw : Bool) (b : Byte) : BusWord :=
  BitVec.ofBool rs ++ BitVec.ofBool rw ++ b

/-- The instruction byte of 30_encoding.md R53, bit for bit as its table lays it out; the font bit is
dropped with two lines (R54) and an address keeps its low bits (R55). -/
def encodeInstructionByte : Instr → Option Byte
  | .clearDisplay => some 0b00000001#8
  | .returnHome => some 0b00000010#8
  | .setEntryMode i s => some (0b000001#6 ++ BitVec.ofBool i ++ BitVec.ofBool s)
  | .displayControl d c b => some (0b00001#5 ++ BitVec.ofBool d ++ BitVec.ofBool c ++ BitVec.ofBool b)
  | .cursorDisplayShift d c => some (0b0001#4 ++ BitVec.ofBool d ++ BitVec.ofBool c ++ 0b00#2)
  | .functionSet l n f =>
    some (0b001#3 ++ BitVec.ofBool l.bit ++ BitVec.ofBool n.bit ++ BitVec.ofBool (f.bit && !n.bit) ++ 0b00#2)
  | .setCGRAMAddress a => some (0b01#2 ++ BitVec.ofNat 6 a)
  | .setDisplayDataAddress a => some (0b1#1 ++ BitVec.ofNat 7 a)
  | .writeDataReg _ | .readDataReg | .isBusy | .readAddressCounter | .waitNotBusy | .writeLcd _ _
  | .readLcd _ | .configure _ _ _ | .mapAddress _ _ | .clearCell _ _ | .writeAt _ _ _ _ | .writeLine _ _ => none

/-- The bus word an operation puts on the bus, none for an operation that puts no word of its own on it
(30_encoding.md R60, R61). In a read the controller supplies the data byte (R51), written 0 here. -/
def encode : Instr → Option BusWord
  | .writeDataReg b => some (busWord true false b)
  | .readDataReg => some (busWord true true 0)
  | .isBusy | .readAddressCounter | .waitNotBusy => some (busWord false true 0)
  | .writeLcd r b => some (busWord r.rsBit false b)
  | .readLcd r => some (busWord r.rsBit true 0)
  | .configure _ _ _ | .mapAddress _ _ | .clearCell _ _ | .writeAt _ _ _ _ | .writeLine _ _ => none
  | .clearDisplay => (encodeInstructionByte .clearDisplay).map (busWord false false)
  | .returnHome => (encodeInstructionByte .returnHome).map (busWord false false)
  | .setEntryMode i s => (encodeInstructionByte (.setEntryMode i s)).map (busWord false false)
  | .displayControl d c b => (encodeInstructionByte (.displayControl d c b)).map (busWord false false)
  | .cursorDisplayShift d c => (encodeInstructionByte (.cursorDisplayShift d c)).map (busWord false false)
  | .functionSet l n f => (encodeInstructionByte (.functionSet l n f)).map (busWord false false)
  | .setCGRAMAddress a => (encodeInstructionByte (.setCGRAMAddress a)).map (busWord false false)
  | .setDisplayDataAddress a => (encodeInstructionByte (.setDisplayDataAddress a)).map (busWord false false)

/-- The bytes an encoder operation produces (30_encoding.md R59). -/
def producible (b : Byte) : Bool :=
  b = 0x01 || b = 0x02 || (0x04 ≤ b && b ≤ 0x10) || b = 0x14 || b = 0x18 || b = 0x1C
    || b = 0x20 || b = 0x24 || b = 0x28 || b = 0x30 || b = 0x34 || b = 0x38 || 0x40 ≤ b

/-- The row of spec/opcode_table.json a constructor stands for: its mask and match, none where the table
has null. -/
def Instr.row : Instr → Option (BusWord × BusWord)
  | .clearDisplay => some (0x3FF, 0x001)
  | .returnHome => some (0x3FF, 0x002)
  | .setEntryMode _ _ => some (0x3FC, 0x004)
  | .displayControl _ _ _ => some (0x3F8, 0x008)
  | .cursorDisplayShift _ _ => some (0x3F3, 0x010)
  | .functionSet _ _ _ => some (0x3E3, 0x020)
  | .setCGRAMAddress _ => some (0x3C0, 0x040)
  | .setDisplayDataAddress _ => some (0x380, 0x080)
  | .writeDataReg _ => some (0x300, 0x200)
  | .readDataReg => some (0x300, 0x300)
  | .isBusy => some (0x300, 0x100)
  | .readAddressCounter => some (0x300, 0x100)
  | .waitNotBusy => some (0x300, 0x100)
  | .writeLcd _ _ => some (0x100, 0x000)
  | .readLcd _ => some (0x100, 0x100)
  | .configure _ _ _ => none
  | .mapAddress _ _ => none
  | .clearCell _ _ => none
  | .writeAt _ _ _ _ => none
  | .writeLine _ _ => none

/-- The spelling of an operation that its bus word determines: addresses within their field and no font
request that would be dropped (30_encoding.md R54, R55). -/
def Instr.masked : Instr → Instr
  | .functionSet l n f => .functionSet l n (if n = .twoLines then .font5x8 else f)
  | .setCGRAMAddress a => .setCGRAMAddress (a % 64)
  | .setDisplayDataAddress a => .setDisplayDataAddress (a % 128)
  | .clearDisplay => .clearDisplay
  | .returnHome => .returnHome
  | .setEntryMode i s => .setEntryMode i s
  | .displayControl d c b => .displayControl d c b
  | .cursorDisplayShift d c => .cursorDisplayShift d c
  | .writeDataReg b => .writeDataReg b
  | .readDataReg => .readDataReg
  | .isBusy => .isBusy
  | .readAddressCounter => .readAddressCounter
  | .waitNotBusy => .waitNotBusy
  | .writeLcd r b => .writeLcd r b
  | .readLcd r => .readLcd r
  | .configure d r l => .configure d r l
  | .mapAddress l c => .mapAddress l c
  | .clearCell l p => .clearCell l p
  | .writeAt t l p n => .writeAt t l p n
  | .writeLine t l => .writeLine t l

/-- The operations a bus word names before any other that shares it: the encoder commands, the data
write and read, the status read `IsBusy`, and raw writes of bytes no encoder operation produces. -/
def Instr.ownsItsWord : Instr → Bool
  | .clearDisplay | .returnHome | .setEntryMode _ _ | .displayControl _ _ _ | .cursorDisplayShift _ _
  | .functionSet _ _ _ | .setCGRAMAddress _ | .setDisplayDataAddress _ | .writeDataReg _ | .readDataReg
  | .isBusy => true
  | .writeLcd .instruction b => !producible b
  | .writeLcd .data _ | .readLcd _ | .readAddressCounter | .waitNotBusy | .configure _ _ _ | .mapAddress _ _
  | .clearCell _ _ | .writeAt _ _ _ _ | .writeLine _ _ => false

end Sys2Proof
end

