-- ==== Sys2Proof/Config.lean ====
section
/-! DEFINITION. What is fixed for the machine: the timing and geometry parameters and the free values. -/

namespace Sys2Proof

/-- The two directions of the data bus (10_state.md R23). -/
inductive Dir where
  | drive
  | sense
  deriving DecidableEq, Repr

/-- The responder's count of Instruction-register reads that still report busy (20_memory.md R46). -/
inductive Busy where
  | polls (n : Nat)
  | forever
  deriving DecidableEq, Repr, Inhabited

/-- The timing parameters, minimum times in nanoseconds (00_scope.md R8). They are arguments of the model. -/
structure Timing where
  tAS : Nat
  tPW : Nat
  tH : Nat
  tDDR : Nat
  tEHRD : Nat
  deriving DecidableEq, Repr

namespace Config

/-- The values the source states (00_scope.md R8; `T_EH_RD` by 92_eei_decisions.md D4). -/
def timing : Timing := { tAS := 40, tPW := 230, tH := 10, tDDR := 150, tEHRD := 150 }

/-- The width used in the fit test and in `writeLine`'s clear count (00_scope.md R9). -/
def cols : Nat := 16

/-- The largest column `mapAddress` accepts, inclusive (00_scope.md R9, 90_conflicts.md C9). -/
def colMax : Nat := 16

/-- The number of lines; valid line numbers are 1 to `lines` (00_scope.md R9). -/
def lines : Nat := 2

/-- Line 2 starts at DDRAM address `1 <<< lineShift` (00_scope.md R9). -/
def lineShift : Nat := 6

/-- The byte written to clear a cell (00_scope.md R9). -/
def space : Byte := 0x20

/-- FREE VALUE, log entry 9: the byte the bus lines carry at a read (20_memory.md R45). -/
opaque sensedByte : Nat → Byte

/-- FREE VALUE, log entry 8: the nanoseconds an event takes beyond its minimum (40_bus_transport.md R69). -/
opaque extraTime : Nat → Nat

/-- FREE VALUE, log entry 10: a draw of the responder's `L.busy` (20_memory.md R50). -/
opaque busyDraw : Nat → Busy

/-- Log entry 14: the direction register's value for all-output and for all-input, the platform's
(10_state.md R23, 93_implementation_defined.md U17). -/
opaque directionValue : Dir → Byte

end Config

end Sys2Proof
end

