-- ==== Sys2Proof/Machine/Memory.lean ====
section
/-! DEFINITION. Byte memories in one canonical form: the GPIO ports and the responder's DDRAM and CGRAM. -/

namespace Sys2Proof.Machine

/-- Cells by rising address, none equal to what an unlisted address reads as. -/
abbrev Memory := List Host.Cell

/-- What a port register nothing has written reads as (log entry 13). -/
def portUnlisted : Byte := 0x00

/-- What a DDRAM cell that is not listed holds: the start value of 20_memory.md R46. -/
def ddramUnlisted : Byte := 0x20

/-- What a CGRAM cell that is not listed holds: only how the list is kept, since the responder's start takes
its CGRAM as an argument (20_memory.md R46). -/
def cgramUnlisted : Byte := 0x00

/-- The byte at `a`, where an unlisted address reads as `blank`. -/
def Memory.read (blank : Byte) : Memory → Nat → Byte
  | [], _ => blank
  | (k, v) :: m, a => if a = k then v else Memory.read blank m a

/-- Write one byte, keeping the canonical form: writing `blank` unlists the address. -/
def Memory.write (blank : Byte) : Memory → Nat → Byte → Memory
  | [], a, v => if v = blank then [] else [(a, v)]
  | (k, u) :: m, a, v =>
    if a < k then (if v = blank then (k, u) :: m else (a, v) :: (k, u) :: m)
    else if a = k then (if v = blank then m else (a, v) :: m)
    else (k, u) :: Memory.write blank m a v

/-- Every listed address is at least `lo`, addresses rise strictly, and no entry is `blank`. -/
def Memory.wfFrom (blank : Byte) : Nat → Memory → Bool
  | _, [] => true
  | lo, (k, v) :: m => decide (lo ≤ k) && decide (v ≠ blank) && Memory.wfFrom blank (k + 1) m

/-- The canonical form holds. -/
def Memory.wf (blank : Byte) (m : Memory) : Bool :=
  Memory.wfFrom blank 0 m

end Sys2Proof.Machine
end

