-- ==== Sys2Proof/Machine/State.lean ====
section
/-! DEFINITION. The state of the block, of its surroundings and of the controller, the ways a step can stop, and reset. -/

namespace Sys2Proof.Machine

/-- The Controller Handle `H` (10_state.md R14 to R19). The bindings have "no value" until `Configure`
binds them (R30). -/
structure Handle where
  configured : Bool
  startupComplete : Bool
  bindings : Option Bindings
  deriving DecidableEq, Repr

/-- The pin state `P` (10_state.md R22, R23). -/
structure Pins where
  rs : Bool
  rw : Bool
  e : Bool
  dbOut : Byte
  dir : Dir
  deriving DecidableEq, Repr

/-- The sequencer position `seq` (10_state.md R26): idle, or an operation in progress and the number of
blocks (whole transfers and flag writes) of its expansion that have completed (log entry 4). -/
inductive Seq where
  | idle
  | at (op : Instr) (index : Nat)
  deriving DecidableEq, Repr

/-- The events of a trace (40_bus_transport.md R63). -/
inductive Event where
  | rs (v : Bool)
  | rw (v : Bool)
  | e (v : Bool)
  | dir (d : Dir)
  | out (b : Byte)
  | input (b : Byte)
  | delay (t : Nat)
  deriving DecidableEq, Repr

/-- An event with the virtual times at which it began and was over; a port operation takes effect at `stop`
(40_bus_transport.md R63, log entry 7). -/
structure Stamped where
  event : Event
  start : Nat
  stop : Nat
  deriving DecidableEq, Repr

/-- The ghost status (60_exceptions.md R103). -/
inductive Status where
  | ok
  | notConfigured
  | outOfRange
  | tooLong
  deriving DecidableEq, Repr

/-- What an operation returns (30_encoding.md R60). -/
inductive Value where
  | nothing
  | bit (v : Bool)
  | byte (b : Byte)
  | address (a : Addr7)
  deriving DecidableEq, Repr

/-- What the host gets back from an operation that has returned (70_reset_and_hazards.md R118). -/
structure Reply where
  status : Status
  value : Value
  deriving DecidableEq, Repr

/-- One entry of the host's stream (20_memory.md R42, log entry 1): a call, an operation given by its bus
word, or a wait with the platform's delay capability (70_reset_and_hazards.md R116). -/
inductive Call where
  | op (i : Instr)
  | word (w : Nat)
  | hostDelay (t : Nat)
  deriving DecidableEq, Repr

/-- The memory the reference responder's Address Counter points into (20_memory.md R46). -/
inductive Space where
  | ddram
  | cgram
  deriving DecidableEq, Repr

/-- The reference responder `L` (20_memory.md R46). -/
structure Responder where
  ac : Addr7
  space : Space
  increment : Bool
  ddram : Memory
  cgram : Memory
  busy : Busy
  violated : Bool
  deriving DecidableEq, Repr

/-- What answers at the far side of the bus: an unconstrained oracle (20_memory.md R45), or the reference
responder (R46 to R50). -/
inductive LcdModel where
  | oracle
  | reference (r : Responder)
  deriving DecidableEq, Repr

/-- The LCD controller as far as the spec gives it: the bus width latched at its first Function Set
(10_state.md R29 (c)) and what answers its transfers. -/
structure Lcd where
  width : Option BusLength
  model : LcdModel
  deriving DecidableEq, Repr

/-- The MODEL'S OWN fields: the draws of a run (00_scope.md R13), fixed in advance as far as the lists
reach, and from then on the free values of Config at `taken` (log entries 8, 9, 10). -/
structure Draws where
  senses : List Byte
  slack : List Nat
  busy : List Busy
  taken : Nat
  deriving DecidableEq, Repr

structure State where
  handle : Handle
  pins : Pins
  seq : Seq
  now : Nat
  timing : Timing
  ports : Memory
  trace : List Stamped
  reply : Option Reply
  calls : List Call
  lcd : Lcd
  draws : Draws
  deriving DecidableEq, Repr

/-- How the machine can break. The block itself raises nothing (60_exceptions.md R98). -/
inductive Fault where
  /-- Raised by an operation that would read bindings while they have "no value", which 10_state.md R30
  calls a model error. Safe: no run reaches it, since `Configure` sets the bindings and the flag at once. -/
  | unboundHandle
  deriving DecidableEq, Repr

/-- What the model gives no meaning. -/
inductive Refusal where
  /-- Raised by exec's arm of an instruction that has no meaning. Safe. -/
  | notModelled (mnemonic : String)
  /-- Raised by an operation issued while another is in progress (20_memory.md R43, U3). Safe. -/
  | interleaved
  /-- Raised by a second `Configure` (43_register_access.md R91, U2). Safe. -/
  | configuredTwice
  /-- Raised by `Configure` with bindings that overlap (43_register_access.md R91, U4). Safe. -/
  | overlappingBindings
  /-- Raised by a transfer entered with Enable high (40_bus_transport.md R72, U12). Safe. -/
  | enableHigh
  /-- Raised by the reference responder for Cursor/Display Shift and for 0x00 (20_memory.md R47). Safe. -/
  | responderHasNoMeaning
  /-- Raised by the reference responder for a data access at a gap address (20_memory.md R48, U7). Safe. -/
  | responderGapAddress
  /-- Raised by step for a call given by a word of more than ten bits (30_encoding.md R51). Safe. -/
  | notABusWord
  deriving DecidableEq, Repr

/-- The start of the process, before `Configure` (10_state.md R30). The pins, the port registers and the
controller are "unspecified" there: log entries 5, 11 and 13 name the values. -/
def State.reset : State where
  handle := { configured := false, startupComplete := false, bindings := none }
  pins := { rs := false, rw := false, e := false, dbOut := 0x00, dir := .sense }
  seq := .idle
  now := 0
  timing := Config.timing
  ports := []
  trace := []
  reply := none
  calls := []
  lcd := { width := none, model := .oracle }
  draws := { senses := [], slack := [], busy := [], taken := 0 }

end Sys2Proof.Machine
end

