-- ==== Sys2Proof/Machine/Flags.lean ====
section
/-! DEFINITION. The flag computations: the busy flag, the Address Counter field, the phase flag, the font rule. -/

namespace Sys2Proof.Machine

/-- Bit 7 of a status byte, 1 = busy (30_encoding.md R56, 41_busy_sync.md R73). -/
def busyFlag (sb : Byte) : Bool := sb.getLsbD 7

/-- `sb & 0x7F`, a 7-bit quantity (30_encoding.md R56, 43_register_access.md R90). The mask is bitwise
(00_scope.md R12). -/
def counterField (sb : Byte) : Addr7 := (sb &&& 0x7F).setWidth 7

/-- The font bit that is packed: a 5x10 request is dropped with two lines (30_encoding.md R54). -/
def effectiveFont (lines : LineCount) (font : Font) : Font :=
  match lines with
  | .twoLines => .font5x8
  | .oneLine => font

/-- The responder's busy flag: 1 while more reads are to report busy (20_memory.md R49). -/
def busyNow : Busy → Bool
  | .polls 0 => false
  | .polls (_ + 1) => true
  | .forever => true

/-- One Instruction-register read counts a finite `L.busy` down (20_memory.md R49). -/
def afterPoll : Busy → Busy
  | .polls n => .polls (n - 1)
  | .forever => .forever

/-- The first Function Set latches a bus width at the controller (10_state.md R29 (c)); later ones leave the
record as it is (DEDUCED). One that arrives while the controller is busy, and may be lost (70_reset_and_hazards.md
R121, 93_implementation_defined.md U20), is recorded all the same, and so is a raw byte of the format that no operation
produces (0x2C, 0x3C, or bit 1 or 0 set; U11) (DESIGN CHOICE). Log entry 26. -/
def latchWidth (width : Option BusLength) (rs : Bool) (b : Byte) : Option BusLength :=
  match width with
  | some l => some l
  | none => if rs = false ∧ b.extractLsb' 5 3 = 0b001#3 then some (if b.getLsbD 4 then .eightBit else .fourBit) else none

end Sys2Proof.Machine
end

