-- ==== Sys2Proof/Machine/Operands.lean ====
section
/-! DEFINITION. Operand assembly: the instruction bytes as the encoder rules compute them, and the map from line and column. -/

namespace Sys2Proof.Machine

/-- RS: 0 selects the Instruction register, 1 the Data register (10_state.md R22). -/
def rsLevel : Register → Bool
  | .instruction => false
  | .data => true

/-- A one-bit parameter as the low bit of a byte. -/
def bitByte (v : Bool) : Byte := if v then 1 else 0

/-- 42_instruction_encoder.md R80. -/
def clearDisplayByte : Byte := 0x01

/-- 42_instruction_encoder.md R81. -/
def returnHomeByte : Byte := 0x02

/-- 42_instruction_encoder.md R82. -/
def setEntryModeByte (increment displayShift : Bool) : Byte :=
  0x04 ||| (bitByte increment <<< 1) ||| bitByte displayShift

/-- 42_instruction_encoder.md R83. -/
def displayControlByte (displayOn cursorOn blinkOn : Bool) : Byte :=
  0x08 ||| (bitByte displayOn <<< 2) ||| (bitByte cursorOn <<< 1) ||| bitByte blinkOn

/-- 42_instruction_encoder.md R84. -/
def cursorDisplayShiftByte (displayRight cursorRight : Bool) : Byte :=
  0x10 ||| (bitByte displayRight <<< 3) ||| (bitByte cursorRight <<< 2)

/-- The parameter bit of a bus width: `EIGHT_BIT` = 1 (30_encoding.md R54). -/
def lengthByte : BusLength → Byte
  | .fourBit => 0
  | .eightBit => 1

/-- The parameter bit of a line count: `TWO_LINES` = 1 (30_encoding.md R54). -/
def linesByte : LineCount → Byte
  | .oneLine => 0
  | .twoLines => 1

/-- The parameter bit of a font: `FONT5x10` = 1 (30_encoding.md R54). -/
def fontByte : Font → Byte
  | .font5x8 => 0
  | .font5x10 => 1

/-- 42_instruction_encoder.md R85. -/
def functionSetByte (length : BusLength) (lines : LineCount) (font : Font) : Byte :=
  0x20 ||| (lengthByte length <<< 4) ||| (linesByte lines <<< 3) ||| (fontByte (effectiveFont lines font) <<< 2)

/-- 42_instruction_encoder.md R86; the mask is bitwise (00_scope.md R12). -/
def setCGRAMAddressByte (a : Nat) : Byte := 0x40 ||| BitVec.ofNat 8 (a &&& 0x3F)

/-- 42_instruction_encoder.md R87; the mask is bitwise (00_scope.md R12). -/
def setDisplayDataAddressByte (a : Nat) : Byte := 0x80 ||| BitVec.ofNat 8 (a &&& 0x7F)

/-- The DDRAM address of a line and a column, or nothing out of range (44_text_positioning.md R92). -/
def mapAddress (line col : Nat) : Option Addr7 :=
  if line < 1 ∨ Config.lines < line then none
  else if Config.colMax < col then none
  else some (BitVec.ofNat 7 (((line - 1) <<< Config.lineShift) + col))

/-- The bindings `Configure` writes into the handle (43_register_access.md R91). -/
def boundBy (dataBus : DataBus) (directionRegister : PortName) (lines : ControlLines) : Bindings :=
  { bus := { out := dataBus.out, inp := dataBus.inp, dir := directionRegister }
    rs := lines.rs, rw := lines.rw, en := lines.enable }

/-- The check on the bindings at `Configure` (93_implementation_defined.md U4; 70_reset_and_hazards.md
R119): no two control lines on one bit, none in the data port or the direction register, and a direction
register of its own. -/
def bindingsDistinct (b : Bindings) : Bool :=
  let apart (p q : PinHandle) : Bool := !(p.port == q.port && p.bit == q.bit)
  let free (p : PinHandle) : Bool := p.port != b.bus.out && p.port != b.bus.inp && p.port != b.bus.dir
  apart b.rs b.rw && apart b.rs b.en && apart b.rw b.en && free b.rs && free b.rw && free b.en
    && b.bus.dir != b.bus.out && b.bus.dir != b.bus.inp

end Sys2Proof.Machine
end

