-- ==== Sys2Proof/Machine/Responder.lean ====
section
/-! DEFINITION. The reference responder of 20_memory.md R46 to R50. -/

namespace Sys2Proof.Machine

/-- The responder's start state (20_memory.md R46); its CGRAM is unspecified there, hence an argument. -/
def Responder.start (cgram : Memory) : Responder where
  ac := 0
  space := .ddram
  increment := true
  ddram := []
  cgram := cgram
  busy := .polls 0
  violated := false

/-- The address lies in a line's range (20_memory.md R33); the rest are the gaps of R35. -/
def inLineRange (a : Addr7) : Bool := a ≤ 0x27 || (0x40 ≤ a && a ≤ 0x67)

/-- The Address Counter after a data access, with the ends of the ranges (20_memory.md R48). In CGRAM the
low 6 bits wrap and bit 6 stays (log entry 30). -/
def nextCounter (space : Space) (increment : Bool) (ac : Addr7) : Addr7 :=
  match space, increment with
  | .ddram, true => if ac = 0x27 then 0x40 else if ac = 0x67 then 0x00 else ac + 1
  | .ddram, false => if ac = 0x40 then 0x27 else if ac = 0x00 then 0x67 else ac - 1
  | .cgram, true => (ac &&& 0x40) ||| ((ac + 1) &&& 0x3F)
  | .cgram, false => (ac &&& 0x40) ||| ((ac - 1) &&& 0x3F)

/-- The cell of CGRAM an Address Counter points at, `L.AC[5:0]` (20_memory.md R48). -/
def cgramCell (ac : Addr7) : Nat := (ac.extractLsb' 0 6).toNat

/-- A write or a data read that arrives while busy is recorded (20_memory.md R50). -/
def Responder.noteArrival (r : Responder) : Responder :=
  { r with violated := r.violated || busyNow r.busy }

/-- What the responder does with an instruction byte, by its highest set bit (20_memory.md R47). -/
def Responder.instruct (r : Responder) (b : Byte) : Except Refusal Responder :=
  if b.getLsbD 7 then .ok { r with ac := b.extractLsb' 0 7, space := .ddram }
  else if b.getLsbD 6 then .ok { r with ac := (b.extractLsb' 0 6).setWidth 7, space := .cgram }
  else if b.getLsbD 5 then .ok r
  else if b.getLsbD 4 then .error .responderHasNoMeaning
  else if b.getLsbD 3 then .ok r
  else if b.getLsbD 2 then .ok { r with increment := b.getLsbD 1 }
  else if b.getLsbD 1 then .ok { r with ac := 0, space := .ddram }
  else if b.getLsbD 0 then .ok { r with ddram := [], ac := 0, space := .ddram, increment := true }
  else .error .responderHasNoMeaning

/-- Step the Address Counter as the entry mode says (20_memory.md R48). -/
def Responder.advance (r : Responder) : Responder :=
  { r with ac := nextCounter r.space r.increment r.ac }

/-- A data write stores at the cell the Address Counter points at and advances it (20_memory.md R48). -/
def Responder.store (r : Responder) (b : Byte) : Except Refusal Responder :=
  match r.space with
  | .cgram => .ok ({ r with cgram := r.cgram.write cgramUnlisted (cgramCell r.ac) b }).advance
  | .ddram =>
    if inLineRange r.ac then .ok ({ r with ddram := r.ddram.write ddramUnlisted r.ac.toNat b }).advance
    else .error .responderGapAddress

/-- The cell a data read supplies: the one a write would have stored to (20_memory.md R49). -/
def Responder.cell (r : Responder) : Except Refusal Byte :=
  match r.space with
  | .cgram => .ok (r.cgram.read cgramUnlisted (cgramCell r.ac))
  | .ddram => if inLineRange r.ac then .ok (r.ddram.read ddramUnlisted r.ac.toNat) else .error .responderGapAddress

/-- A write transfer completes at the fall of Enable (20_memory.md R47, R48, R50); `draw` is the next
`L.busy`. -/
def Responder.accept (r : Responder) (rs : Bool) (b : Byte) (draw : Busy) : Except Refusal Responder :=
  match (if rs then r.noteArrival.store b else r.noteArrival.instruct b) with
  | .ok r' => .ok { r' with busy := draw }
  | .error e => .error e

/-- The status byte: busy flag, then Address Counter (20_memory.md R49). -/
def Responder.statusByte (r : Responder) : Byte := BitVec.ofBool (busyNow r.busy) ++ r.ac

/-- A read transfer samples the Instruction register (20_memory.md R49). -/
def Responder.afterStatus (r : Responder) : Responder := { r with busy := afterPoll r.busy }

/-- A read transfer samples the Data register (20_memory.md R49, R50). -/
def Responder.supply (r : Responder) (draw : Busy) : Except Refusal (Byte × Responder) :=
  match r.cell with
  | .ok b => .ok (b, { r.noteArrival.advance with busy := draw })
  | .error e => .error e

/-- A fixed delay by the host (20_memory.md R50). -/
def Responder.afterHostDelay (r : Responder) : Responder := { r with busy := .polls 0 }

end Sys2Proof.Machine
end

