-- ==== Sys2Proof/Machine/Ops.lean ====
section
/-! DEFINITION. The named operations over the state: draws, virtual time, port operations, the controller's edges, and running an operation's expansion. -/

namespace Sys2Proof.Machine

/-! ## Draws (00_scope.md R13) -/

/-- What the next event takes beyond its minimum (40_bus_transport.md R69). -/
def Draws.extra (d : Draws) : Nat :=
  match d.slack with
  | x :: _ => x
  | [] => Config.extraTime d.taken

def Draws.dropExtra (d : Draws) : Draws :=
  match d.slack with
  | _ :: xs => { d with slack := xs }
  | [] => { d with taken := d.taken + 1 }

/-- What the bus lines carry at the next read under the oracle (20_memory.md R45). -/
def Draws.sensed (d : Draws) : Byte :=
  match d.senses with
  | b :: _ => b
  | [] => Config.sensedByte d.taken

def Draws.dropSensed (d : Draws) : Draws :=
  match d.senses with
  | _ :: bs => { d with senses := bs }
  | [] => { d with taken := d.taken + 1 }

/-- The next draw of the responder's `L.busy` (20_memory.md R50). -/
def Draws.nextBusy (d : Draws) : Busy :=
  match d.busy with
  | b :: _ => b
  | [] => Config.busyDraw d.taken

def Draws.dropBusy (d : Draws) : Draws :=
  match d.busy with
  | _ :: bs => { d with busy := bs }
  | [] => { d with taken := d.taken + 1 }

/-! ## Virtual time and the trace -/

/-- An event takes at least `t` nanoseconds and is recorded (40_bus_transport.md R63, R69). -/
def State.elapse (t : Nat) (ev : Event) (s : State) : State :=
  { s with
    now := s.now + (t + s.draws.extra)
    draws := s.draws.dropExtra
    trace := s.trace ++ [{ event := ev, start := s.now, stop := s.now + (t + s.draws.extra) }] }

/-! ## Port operations (20_memory.md R31) -/

/-- `v` with bit `i` replaced; no other bit changes (92_eei_decisions.md D28). -/
def putBit (v : Byte) (i : Fin 8) (level : Bool) : Byte :=
  if level then v ||| ((1 : Byte) <<< i.val) else v &&& ~~~((1 : Byte) <<< i.val)

/-- `MemWrite` on the port space. -/
def State.writePort (p : PortName) (v : Byte) (s : State) : State :=
  { s with ports := s.ports.write portUnlisted p v }

/-- `SetBit` and `ClearBit` on the port space (00_scope.md R13). -/
def State.putPin (p : PinHandle) (level : Bool) (s : State) : State :=
  s.writePort p.port (putBit (s.ports.read portUnlisted p.port) p.bit level)

/-- `ReadBit`: the level of a line the block drives is what it last wrote to it (00_scope.md R13, log entry
29). Listed by the source, used by no operation. -/
def State.readBit (p : PinHandle) (s : State) : Bool :=
  (s.ports.read portUnlisted p.port).getLsbD p.bit.val

/-- `RS:=v`. -/
def State.driveRs (b : Bindings) (v : Bool) (s : State) : State :=
  { s.putPin b.rs v with pins := { s.pins with rs := v } }.elapse 0 (.rs v)

/-- `RW:=v`. -/
def State.driveRw (b : Bindings) (v : Bool) (s : State) : State :=
  { s.putPin b.rw v with pins := { s.pins with rw := v } }.elapse 0 (.rw v)

/-- `E:=v`. -/
def State.driveE (b : Bindings) (v : Bool) (s : State) : State :=
  { s.putPin b.en v with pins := { s.pins with e := v } }.elapse 0 (.e v)

/-- `DIR:=d`; the register takes the platform's value for it (10_state.md R23). -/
def State.driveDir (b : Bindings) (d : Dir) (s : State) : State :=
  { s.writePort b.bus.dir (Config.directionValue d) with pins := { s.pins with dir := d } }.elapse 0 (.dir d)

/-- `OUT:=v`; bit i of the port is DBi is bit i of the byte (10_state.md R23). -/
def State.driveOut (b : Bindings) (v : Byte) (s : State) : State :=
  { s.writePort b.bus.out v with pins := { s.pins with dbOut := v } }.elapse 0 (.out v)

/-! ## The controller at the far side of the bus -/

/-- The controller takes the byte of a write transfer (20_memory.md R45, R47, R48). The width is recorded whether or not
the controller is busy, of every byte of the Function Set format (DESIGN CHOICE, log entry 26). -/
def State.lcdTakes (rs : Bool) (b : Byte) (s : State) : Host.Outcome State Fault Refusal :=
  let width := latchWidth s.lcd.width rs b
  match s.lcd.model with
  | .oracle => .next { s with lcd := { width := width, model := .oracle } }
  | .reference r =>
    match r.accept rs b s.draws.nextBusy with
    | .ok r' => .next { s with lcd := { width := width, model := .reference r' }, draws := s.draws.dropBusy }
    | .error e => .refused e

/-- The byte the bus lines carry when a read transfer samples, and what supplying it changes at the
controller (20_memory.md R45, R49). -/
def State.lcdSupplies (rs : Bool) (s : State) : Host.Outcome (Byte × State) Fault Refusal :=
  match s.lcd.model with
  | .oracle => .next (s.draws.sensed, { s with draws := s.draws.dropSensed })
  | .reference r =>
    if rs then
      match r.supply s.draws.nextBusy with
      | .ok (b, r') => .next (b, { s with lcd := { s.lcd with model := .reference r' }, draws := s.draws.dropBusy })
      | .error e => .refused e
    else .next (r.statusByte, { s with lcd := { s.lcd with model := .reference r.afterStatus } })

/-! ## Micro-steps (10_state.md R26) -/

/-- A micro-step: one port operation, one delay, or one write of a handle flag. -/
inductive Micro where
  | rs (v : Bool)
  | rw (v : Bool)
  | e (v : Bool)
  | dir (d : Dir)
  | out (b : Byte)
  | sample
  | delay (t : Nat)
  | setStartup
  deriving DecidableEq, Repr

/-- Enable falls; in a write transfer the controller takes the byte at that edge (20_memory.md R47). -/
def State.dropEnable (b : Bindings) (s : State) : Host.Outcome State Fault Refusal :=
  if s.pins.e ∧ ¬s.pins.rw then (s.driveE b false).lcdTakes s.pins.rs s.pins.dbOut
  else .next (s.driveE b false)

/-- One micro-step; `sb` is the byte the operation last sensed (10_state.md R25). RS is written first in
every transfer, and a transfer entered with Enable high is refused there (40_bus_transport.md R72). -/
def microStep (b : Bindings) (m : Micro) (sb : Byte) (s : State) :
    Host.Outcome (Byte × State) Fault Refusal :=
  match m with
  | .rs v => if s.pins.e then .refused .enableHigh else .next (sb, s.driveRs b v)
  | .rw v => .next (sb, s.driveRw b v)
  | .e true => .next (sb, s.driveE b true)
  | .e false =>
    match s.dropEnable b with
    | .next s' => .next (sb, s')
    | .fault f => .fault f
    | .refused r => .refused r
  | .dir d => .next (sb, s.driveDir b d)
  | .out v => .next (sb, s.driveOut b v)
  | .sample =>
    match s.lcdSupplies s.pins.rs with
    | .next (v, s') => .next (v, s'.elapse 0 (.input v))
    | .fault f => .fault f
    | .refused r => .refused r
  | .delay t => .next (sb, s.elapse t (.delay t))
  | .setStartup => .next (sb, { s with handle := { s.handle with startupComplete := true } })

/-- Micro-steps in the order listed (20_memory.md R39). -/
def microSteps (b : Bindings) : List Micro → Byte → State → Host.Outcome (Byte × State) Fault Refusal
  | [], sb, s => .next (sb, s)
  | m :: ms, sb, s =>
    match microStep b m sb s with
    | .next (sb', s') => microSteps b ms sb' s'
    | .fault f => .fault f
    | .refused r => .refused r

/-- `WriteLcd`, steps W1 to W8 (40_bus_transport.md R64). -/
def writeMicros (T : Timing) (r : Register) (b : Byte) : List Micro :=
  [.rs (rsLevel r), .rw false, .delay T.tAS, .dir .drive, .out b, .e true, .delay T.tPW, .e false,
   .delay T.tH, .rw true]

/-- `ReadLcd`, steps Rd1 to Rd7; Rd5c only where `T_EH_RD > T_DDR` (40_bus_transport.md R66). -/
def readMicros (T : Timing) (r : Register) : List Micro :=
  [.rs (rsLevel r), .rw true, .delay T.tAS, .dir .sense, .e true, .delay T.tDDR, .sample]
    ++ (if T.tDDR < T.tEHRD then [.delay (T.tEHRD - T.tDDR)] else [])
    ++ [.e false, .delay T.tH]

/-! ## Expansions -/

/-- The blocks an expansion is made of: the poll's status read with its backward move
(41_busy_sync.md R74), a write transfer, a read transfer, `H.startupComplete <- 1`. -/
inductive Block where
  | poll
  | write (r : Register) (b : Byte)
  | read (r : Register)
  | setStartup
  deriving DecidableEq, Repr

def Block.micros (T : Timing) : Block → List Micro
  | .poll => readMicros T .instruction
  | .write r b => writeMicros T r b
  | .read r => readMicros T r
  | .setStartup => [.setStartup]

/-- What an operation returns, out of the last byte it sensed. -/
inductive Extract where
  | nothing
  | byte
  | busyBit
  | counter
  deriving DecidableEq, Repr

def Extract.value (x : Extract) (sb : Byte) : Value :=
  match x with
  | .nothing => .nothing
  | .byte => .byte sb
  | .busyBit => .bit (busyFlag sb)
  | .counter => .address (counterField sb)

/-- What an operation does once it is known to be on a configured handle: its own test, if it fails one
(60_exceptions.md R104), its expansion, and what it returns. -/
structure Plan where
  rejected : Option Status
  blocks : List Block
  returns : Extract
  deriving DecidableEq, Repr

/-- The gate in front of a paced transfer (41_busy_sync.md R75): with `H.startupComplete = 0` it is nothing
at all. -/
def pace (startupComplete : Bool) : List Block := if startupComplete then [.poll] else []

/-- The operation returns (00_scope.md R7). -/
def State.finish (v : Value) (s : State) : State :=
  { s with seq := .idle, reply := some { status := .ok, value := v } }

/-- `reject(S)`: nothing is done; a read returns the default 0 (60_exceptions.md R99, R105). -/
def State.reject (st : Status) (x : Extract) (s : State) : State :=
  { s with seq := .idle, reply := some { status := st, value := x.value 0 } }

/-- Run the blocks of operation `i` from the one numbered `k`. A poll that senses bit 7 = 1 moves the
sequencer back to its own start, and the step ends there (41_busy_sync.md R74, R77; log entry 4). -/
def runBlocks (b : Bindings) (i : Instr) (x : Extract) :
    Nat → List Block → Byte → State → Host.Outcome State Fault Refusal
  | _, [], sb, s => .next (s.finish (x.value sb))
  | k, bl :: bls, sb, s =>
    match microSteps b (bl.micros s.timing) sb s with
    | .next (sb', s') =>
      if bl = .poll ∧ busyFlag sb' then .next { s' with seq := .at i k }
      else runBlocks b i x (k + 1) bls sb' s'
    | .fault f => .fault f
    | .refused r => .refused r

/-- Run an expansion from block `k` on a configured handle. -/
def runFrom (i : Instr) (p : Plan) (k : Nat) (s : State) : Host.Outcome State Fault Refusal :=
  match s.handle.bindings with
  | none => .fault .unboundHandle
  | some b => runBlocks b i p.returns k (p.blocks.drop k) 0 { s with reply := none }

/-- Issue an operation: no other may be in progress (20_memory.md R43); the tests come before any
micro-step, in the order of 60_exceptions.md R104; then the expansion. -/
def operate (i : Instr) (p : Plan) (s : State) : Host.Outcome State Fault Refusal :=
  match s.seq with
  | .at _ _ => .refused .interleaved
  | .idle =>
    if s.handle.configured then
      match p.rejected with
      | some st => .next (s.reject st p.returns)
      | none => runFrom i p 0 s
    else .next (s.reject .notConfigured p.returns)

/-- Go on with an operation whose poll saw the controller busy. Each iteration tests the handle again, as
`IsBusy` does (41_busy_sync.md R73, R74). -/
def resume (i : Instr) (p : Plan) (k : Nat) (s : State) : Host.Outcome State Fault Refusal :=
  if s.handle.configured then runFrom i p k s else .next (s.reject .notConfigured p.returns)

end Sys2Proof.Machine
end

