-- ==== Sys2Proof/Machine/BusySync.lean ====
section
/-! DEFINITION. The busy-flag polling synchronizer: `IsBusy` and `WaitNotBusy` (41_busy_sync.md). -/

namespace Sys2Proof.Machine

/-- 41_busy_sync.md R73. -/
def planIsBusy : Plan where
  rejected := none
  blocks := [.read .instruction]
  returns := .busyBit

def execIsBusy (s : State) : Host.Outcome State Fault Refusal :=
  operate .isBusy planIsBusy s

/-- 41_busy_sync.md R74: at least one status read, in either phase. -/
def planWaitNotBusy : Plan where
  rejected := none
  blocks := [.poll]
  returns := .nothing

def execWaitNotBusy (s : State) : Host.Outcome State Fault Refusal :=
  operate .waitNotBusy planWaitNotBusy s

end Sys2Proof.Machine
end

