-- ==== Sys2Proof/Machine/Encoder.lean ====
section
/-! DEFINITION. The Instruction Encoder: the eight controller commands (42_instruction_encoder.md). -/

namespace Sys2Proof.Machine

/-- The common issue path: the gate, then one instruction write (42_instruction_encoder.md R79). `phase` is
`H.startupComplete` when the operation is issued. -/
def issueInstruction (phase : Bool) (ib : Byte) : List Block :=
  pace phase ++ [.write .instruction ib]

/-- The plan of a command that only issues its byte (42_instruction_encoder.md R79). -/
def issuePlan (phase : Bool) (ib : Byte) : Plan where
  rejected := none
  blocks := issueInstruction phase ib
  returns := .nothing

/-- 42_instruction_encoder.md R80. -/
def planClearDisplay (phase : Bool) : Plan := issuePlan phase clearDisplayByte

def execClearDisplay (s : State) : Host.Outcome State Fault Refusal :=
  operate .clearDisplay (planClearDisplay s.handle.startupComplete) s

/-- 42_instruction_encoder.md R81. -/
def planReturnHome (phase : Bool) : Plan := issuePlan phase returnHomeByte

def execReturnHome (s : State) : Host.Outcome State Fault Refusal :=
  operate .returnHome (planReturnHome s.handle.startupComplete) s

/-- 42_instruction_encoder.md R82. -/
def planSetEntryMode (increment displayShift : Bool) (phase : Bool) : Plan :=
  issuePlan phase (setEntryModeByte increment displayShift)

def execSetEntryMode (increment displayShift : Bool) (s : State) : Host.Outcome State Fault Refusal :=
  operate (.setEntryMode increment displayShift)
    (planSetEntryMode increment displayShift s.handle.startupComplete) s

/-- 42_instruction_encoder.md R83. -/
def planDisplayControl (displayOn cursorOn blinkOn : Bool) (phase : Bool) : Plan :=
  issuePlan phase (displayControlByte displayOn cursorOn blinkOn)

def execDisplayControl (displayOn cursorOn blinkOn : Bool) (s : State) : Host.Outcome State Fault Refusal :=
  operate (.displayControl displayOn cursorOn blinkOn)
    (planDisplayControl displayOn cursorOn blinkOn s.handle.startupComplete) s

/-- 42_instruction_encoder.md R84. -/
def planCursorDisplayShift (displayRight cursorRight : Bool) (phase : Bool) : Plan :=
  issuePlan phase (cursorDisplayShiftByte displayRight cursorRight)

def execCursorDisplayShift (displayRight cursorRight : Bool) (s : State) : Host.Outcome State Fault Refusal :=
  operate (.cursorDisplayShift displayRight cursorRight)
    (planCursorDisplayShift displayRight cursorRight s.handle.startupComplete) s

/-- 42_instruction_encoder.md R85: the flag is set after the transfer has completed. -/
def planFunctionSet (length : BusLength) (lines : LineCount) (font : Font) (phase : Bool) : Plan where
  rejected := none
  blocks := issueInstruction phase (functionSetByte length lines font) ++ [.setStartup]
  returns := .nothing

def execFunctionSet (length : BusLength) (lines : LineCount) (font : Font) (s : State) :
    Host.Outcome State Fault Refusal :=
  operate (.functionSet length lines font) (planFunctionSet length lines font s.handle.startupComplete) s

/-- 42_instruction_encoder.md R86. -/
def planSetCGRAMAddress (a : Nat) (phase : Bool) : Plan := issuePlan phase (setCGRAMAddressByte a)

def execSetCGRAMAddress (a : Nat) (s : State) : Host.Outcome State Fault Refusal :=
  operate (.setCGRAMAddress a) (planSetCGRAMAddress a s.handle.startupComplete) s

/-- 42_instruction_encoder.md R87. -/
def planSetDisplayDataAddress (a : Nat) (phase : Bool) : Plan := issuePlan phase (setDisplayDataAddressByte a)

def execSetDisplayDataAddress (a : Nat) (s : State) : Host.Outcome State Fault Refusal :=
  operate (.setDisplayDataAddress a) (planSetDisplayDataAddress a s.handle.startupComplete) s

end Sys2Proof.Machine
end

