-- ==== Sys2Proof/Machine/Registers.lean ====
section
/-! DEFINITION. Data-register access, the read-back of the Address Counter, and `Configure` (43_register_access.md). -/

namespace Sys2Proof.Machine

/-- The gate, then one data write (43_register_access.md R88). -/
def issueData (phase : Bool) (byte : Byte) : List Block :=
  pace phase ++ [.write .data byte]

/-- 43_register_access.md R88. -/
def planWriteDataReg (byte : Byte) (phase : Bool) : Plan where
  rejected := none
  blocks := issueData phase byte
  returns := .nothing

def execWriteDataReg (byte : Byte) (s : State) : Host.Outcome State Fault Refusal :=
  operate (.writeDataReg byte) (planWriteDataReg byte s.handle.startupComplete) s

/-- 43_register_access.md R89: paced like a write. -/
def planReadDataReg (phase : Bool) : Plan where
  rejected := none
  blocks := pace phase ++ [.read .data]
  returns := .byte

def execReadDataReg (s : State) : Host.Outcome State Fault Refusal :=
  operate .readDataReg (planReadDataReg s.handle.startupComplete) s

/-- 43_register_access.md R90: not paced. -/
def planReadAddressCounter : Plan where
  rejected := none
  blocks := [.read .instruction]
  returns := .counter

def execReadAddressCounter (s : State) : Host.Outcome State Fault Refusal :=
  operate .readAddressCounter planReadAddressCounter s

/-- 43_register_access.md R91: it writes the whole handle and touches no pin. A second call and bindings
that overlap are refused (93_implementation_defined.md U2, U4). -/
def execConfigure (dataBus : DataBus) (directionRegister : PortName) (controlLines : ControlLines) (s : State) :
    Host.Outcome State Fault Refusal :=
  match s.seq with
  | .at _ _ => .refused .interleaved
  | .idle =>
    if s.handle.configured then .refused .configuredTwice
    else if bindingsDistinct (boundBy dataBus directionRegister controlLines) then
      .next { s with
        handle := { configured := true, startupComplete := false
                    bindings := some (boundBy dataBus directionRegister controlLines) }
        reply := some { status := .ok, value := .nothing } }
    else .refused .overlappingBindings

end Sys2Proof.Machine
end

