-- ==== Sys2Proof/Machine/Text.lean ====
section
/-! DEFINITION. Text Positioning: macro-operations over the encoder (44_text_positioning.md). -/

namespace Sys2Proof.Machine

/-- 44_text_positioning.md R92: pure arithmetic, the same on an unconfigured handle. Out of range it returns
nothing, which is no rejection (60_exceptions.md R100, log entry 20). -/
def execMapAddress (line col : Nat) (s : State) : Host.Outcome State Fault Refusal :=
  match s.seq with
  | .at _ _ => .refused .interleaved
  | .idle =>
    .next { s with
      reply := some
        { status := .ok
          value := match mapAddress line col with
            | some a => .address a
            | none => .nothing } }

/-- The bus side of one `clearCell`, for an address in range (44_text_positioning.md R93). -/
def clearBlocks (phase : Bool) (a : Addr7) : List Block :=
  issueInstruction phase (setDisplayDataAddressByte a.toNat) ++ issueData phase Config.space

/-- 44_text_positioning.md R93. -/
def planClearCell (line pos : Nat) (phase : Bool) : Plan :=
  match mapAddress line pos with
  | none => { rejected := some .outOfRange, blocks := [], returns := .nothing }
  | some a => { rejected := none, blocks := clearBlocks phase a, returns := .nothing }

def execClearCell (line pos : Nat) (s : State) : Host.Outcome State Fault Refusal :=
  operate (.clearCell line pos) (planClearCell line pos s.handle.startupComplete) s

/-- The clearing loop: a cell out of range rejects by itself and is skipped (44_text_positioning.md R94). -/
def clearRange (phase : Bool) (line pos cellsToClear : Nat) : List Block :=
  (List.range cellsToClear).flatMap fun i =>
    match mapAddress line (pos + i) with
    | some a => clearBlocks phase a
    | none => []

/-- The text, first byte first, one data write each (44_text_positioning.md R96). -/
def textBlocks (phase : Bool) (text : List Byte) : List Block :=
  text.flatMap (issueData phase)

/-- 44_text_positioning.md R94: range, then length, before anything else. -/
def planWriteAt (text : List Byte) (line pos cellsToClear : Nat) (phase : Bool) : Plan :=
  match mapAddress line pos with
  | none => { rejected := some .outOfRange, blocks := [], returns := .nothing }
  | some a =>
    if Config.cols - pos < text.length then { rejected := some .tooLong, blocks := [], returns := .nothing }
    else
      { rejected := none
        blocks := clearRange phase line pos cellsToClear
          ++ issueInstruction phase (setDisplayDataAddressByte a.toNat) ++ textBlocks phase text
        returns := .nothing }

def execWriteAt (text : List Byte) (line pos cellsToClear : Nat) (s : State) : Host.Outcome State Fault Refusal :=
  operate (.writeAt text line pos cellsToClear)
    (planWriteAt text line pos cellsToClear s.handle.startupComplete) s

/-- 44_text_positioning.md R95. -/
def planWriteLine (text : List Byte) (line : Nat) (phase : Bool) : Plan :=
  planWriteAt text line 0 Config.cols phase

def execWriteLine (text : List Byte) (line : Nat) (s : State) : Host.Outcome State Fault Refusal :=
  operate (.writeLine text line) (planWriteLine text line s.handle.startupComplete) s

end Sys2Proof.Machine
end

