-- ==== Sys2Proof/Machine/Transport.lean ====
section
/-! DEFINITION. Bus Transport: the raw register accesses `WriteLcd` and `ReadLcd` (40_bus_transport.md). -/

namespace Sys2Proof.Machine

/-- 40_bus_transport.md R64: never paced (41_busy_sync.md R76). -/
def planWriteLcd (register : Register) (byte : Byte) : Plan where
  rejected := none
  blocks := [.write register byte]
  returns := .nothing

def execWriteLcd (register : Register) (byte : Byte) (s : State) : Host.Outcome State Fault Refusal :=
  operate (.writeLcd register byte) (planWriteLcd register byte) s

/-- 40_bus_transport.md R66: never paced (41_busy_sync.md R76). -/
def planReadLcd (register : Register) : Plan where
  rejected := none
  blocks := [.read register]
  returns := .byte

def execReadLcd (register : Register) (s : State) : Host.Outcome State Fault Refusal :=
  operate (.readLcd register) (planReadLcd register) s

end Sys2Proof.Machine
end

