-- ==== Sys2Proof/Machine/Plans.lean ====
section
/-! DEFINITION. The plan of each operation, for going on with one that is in progress (10_state.md R26). -/

namespace Sys2Proof.Machine

/-- The plan an operation runs by in the given phase. `Configure` and `mapAddress` put nothing on the bus
and are never in progress when a step ends. -/
def planOf (i : Instr) (phase : Bool) : Plan :=
  match i with
  | .clearDisplay => planClearDisplay phase
  | .returnHome => planReturnHome phase
  | .setEntryMode increment displayShift => planSetEntryMode increment displayShift phase
  | .displayControl displayOn cursorOn blinkOn => planDisplayControl displayOn cursorOn blinkOn phase
  | .cursorDisplayShift displayRight cursorRight => planCursorDisplayShift displayRight cursorRight phase
  | .functionSet length lines font => planFunctionSet length lines font phase
  | .setCGRAMAddress a => planSetCGRAMAddress a phase
  | .setDisplayDataAddress a => planSetDisplayDataAddress a phase
  | .writeDataReg byte => planWriteDataReg byte phase
  | .readDataReg => planReadDataReg phase
  | .isBusy => planIsBusy
  | .readAddressCounter => planReadAddressCounter
  | .waitNotBusy => planWaitNotBusy
  | .writeLcd register byte => planWriteLcd register byte
  | .readLcd register => planReadLcd register
  | .configure _ _ _ => { rejected := none, blocks := [], returns := .nothing }
  | .mapAddress _ _ => { rejected := none, blocks := [], returns := .nothing }
  | .clearCell line pos => planClearCell line pos phase
  | .writeAt text line pos cellsToClear => planWriteAt text line pos cellsToClear phase
  | .writeLine text line => planWriteLine text line phase

end Sys2Proof.Machine
end

