-- ==== Sys2Proof/Machine/Dispatch.lean ====
section
/-! DEFINITION. One arm per operation. -/

namespace Sys2Proof.Machine

def exec (i : Instr) (s : State) : Host.Outcome State Fault Refusal :=
  match i with
  | .clearDisplay => Sys2Proof.Machine.execClearDisplay s
  | .returnHome => Sys2Proof.Machine.execReturnHome s
  | .setEntryMode increment displayShift => Sys2Proof.Machine.execSetEntryMode increment displayShift s
  | .displayControl displayOn cursorOn blinkOn => Sys2Proof.Machine.execDisplayControl displayOn cursorOn blinkOn s
  | .cursorDisplayShift displayRight cursorRight => Sys2Proof.Machine.execCursorDisplayShift displayRight cursorRight s
  | .functionSet length lines font => Sys2Proof.Machine.execFunctionSet length lines font s
  | .setCGRAMAddress a => Sys2Proof.Machine.execSetCGRAMAddress a s
  | .setDisplayDataAddress a => Sys2Proof.Machine.execSetDisplayDataAddress a s
  | .writeDataReg byte => Sys2Proof.Machine.execWriteDataReg byte s
  | .readDataReg => Sys2Proof.Machine.execReadDataReg s
  | .isBusy => Sys2Proof.Machine.execIsBusy s
  | .readAddressCounter => Sys2Proof.Machine.execReadAddressCounter s
  | .waitNotBusy => Sys2Proof.Machine.execWaitNotBusy s
  | .writeLcd register byte => Sys2Proof.Machine.execWriteLcd register byte s
  | .readLcd register => Sys2Proof.Machine.execReadLcd register s
  | .configure dataBus directionRegister controlLines => Sys2Proof.Machine.execConfigure dataBus directionRegister controlLines s
  | .mapAddress line col => Sys2Proof.Machine.execMapAddress line col s
  | .clearCell line pos => Sys2Proof.Machine.execClearCell line pos s
  | .writeAt text line pos cellsToClear => Sys2Proof.Machine.execWriteAt text line pos cellsToClear s
  | .writeLine text line => Sys2Proof.Machine.execWriteLine text line s

end Sys2Proof.Machine
end

