-- ==== Sys2Proof/Machine/Fetch.lean ====
section
/-! DEFINITION. Taking the next entry of the host's stream (20_memory.md R42), and the host's waits. -/

namespace Sys2Proof.Machine

/-- What the head of the host's stream asks for, with the state in which it has been taken off. -/
inductive Fetched where
  | nothing
  | wait (t : Nat) (s : State)
  | operation (i : Instr) (s : State)
  | unreadable
  deriving DecidableEq, Repr

/-- Take one entry off the stream. A call given by its bus word is decoded here (log entry 3). -/
def fetch (s : State) : Fetched :=
  match s.calls with
  | [] => .nothing
  | .op i :: rest => .operation i { s with calls := rest }
  | .hostDelay t :: rest => .wait t { s with calls := rest }
  | .word w :: rest =>
    match decode w with
    | .ok i => .operation i { s with calls := rest }
    | .error _ => .unreadable

/-- The host waits at least `t` nanoseconds with the platform's delay capability (70_reset_and_hazards.md
R116); it clears the responder's busy count (20_memory.md R50, log entry 27). -/
def hostWait (t : Nat) (s : State) : State :=
  let s' := s.elapse t (.delay t)
  match s'.lcd.model with
  | .oracle => s'
  | .reference r => { s' with lcd := { s'.lcd with model := .reference r.afterHostDelay } }

end Sys2Proof.Machine
end

