-- ==== Sys2Proof/Machine/Step.lean ====
section
/-! DEFINITION. One step: go on with the operation in progress, or take the host's next call. -/

namespace Sys2Proof.Machine

/-- Every operation runs to completion before the next call is taken (20_memory.md R42, 00_scope.md R6). An
idle block with no call does nothing (70_reset_and_hazards.md R113). -/
def step (s : State) : Host.Outcome State Fault Refusal :=
  match s.seq with
  | .at i k => resume i (planOf i s.handle.startupComplete) k s
  | .idle =>
    match fetch s with
    | .nothing => .next s
    | .wait t s' => .next (hostWait t s')
    | .operation i s' => exec i s'
    | .unreadable => .refused .notABusWord

/-- `s` with the operation whose bus word is `w` as the host's next call, and the block idle so that the
next step takes it (log entries 1, 3). -/
def State.withFetchWord (s : State) (nbits w : Nat) : State :=
  { s with seq := .idle, calls := .word (w % 2 ^ nbits) :: s.calls }

end Sys2Proof.Machine
end

