-- ==== Sys2Proof/Machine/Restart.lean ====
section
/-! DEFINITION. A restart of the host's process without a power cycle of the display (70_reset_and_hazards.md R113). -/

namespace Sys2Proof.Machine

/-- The process starts again, at any moment, in the middle of an operation too: the handle, the sequencer and the
clock are as reset leaves them, the pins and the port registers are whatever the platform leaves, and the LCD
controller keeps the state it had (70_reset_and_hazards.md R113; 60_exceptions.md R102). The new process
brings its own calls. It is done to the machine from outside and is no step of it (log entry 32). -/
def State.restart (pins : Pins) (ports : Memory) (calls : List Call) (s : State) : State :=
  { State.reset with
    pins := pins
    ports := ports
    calls := calls
    timing := s.timing
    lcd := s.lcd
    draws := s.draws }

end Sys2Proof.Machine
end

