-- ==== Sys2Proof/WellFormed.lean ====
section
/-! DEFINITION. Well-formed operations: only the bindings of `Configure` can be ill-formed. -/

namespace Sys2Proof

/-- Two control lines are bound to different bits (93_implementation_defined.md U4). -/
def PinHandle.distinct (p q : PinHandle) : Bool :=
  !(p.port == q.port && p.bit == q.bit)

/-- The line is not bound into the data port or the direction register (93_implementation_defined.md U4). -/
def PinHandle.outside (p : PinHandle) (bus : BusHandle) : Bool :=
  p.port != bus.out && p.port != bus.inp && p.port != bus.dir

/-- The premise `WellFormedBindings` of 70_reset_and_hazards.md R119: the six bound registers and bits
are distinct, but for the input register, which may be the output register (10_state.md R17). -/
def Bindings.wellFormed (b : Bindings) : Bool :=
  b.rs.distinct b.rw && b.rs.distinct b.en && b.rw.distinct b.en
    && b.rs.outside b.bus && b.rw.outside b.bus && b.en.outside b.bus
    && b.bus.dir != b.bus.out && b.bus.dir != b.bus.inp

/-- The bindings a `Configure` call names (43_register_access.md R91). -/
def Bindings.ofCall (dataBus : DataBus) (directionRegister : PortName) (lines : ControlLines) : Bindings :=
  { bus := { out := dataBus.out, inp := dataBus.inp, dir := directionRegister }
    rs := lines.rs, rw := lines.rw, en := lines.enable }

/-- The check on an operation as syntax. -/
def Instr.wellFormed : Instr → Bool
  | .configure dataBus dir lines => (Bindings.ofCall dataBus dir lines).wellFormed
  | .clearDisplay | .returnHome | .setEntryMode _ _ | .displayControl _ _ _ | .cursorDisplayShift _ _
  | .functionSet _ _ _ | .setCGRAMAddress _ | .setDisplayDataAddress _ | .writeDataReg _ | .readDataReg
  | .isBusy | .readAddressCounter | .waitNotBusy | .writeLcd _ _ | .readLcd _ | .mapAddress _ _
  | .clearCell _ _ | .writeAt _ _ _ _ | .writeLine _ _ => true

end Sys2Proof
end

