-- ==== Sys2Proof/Safety.lean ====
section
/-! DEFINITION. What claims are stated in: the launch premises of 70_reset_and_hazards.md R119, the traces of 40_bus_transport.md, the bus monitor, and the invariants. -/

namespace Sys2Proof.Machine

/-! ## Traces (40_bus_transport.md R63) -/

/-- The events of a trace in order, without their time stamps. -/
def State.events (s : State) : List Event := s.trace.map (·.event)

/-- The trace of `WriteLcd` (40_bus_transport.md R64). -/
def writeEvents (T : Timing) (r : Register) (b : Byte) : List Event :=
  [.rs (r = .data), .rw false, .delay T.tAS, .dir .drive, .out b, .e true, .delay T.tPW, .e false,
   .delay T.tH, .rw true]

/-- The trace of `ReadLcd` when it senses `sb` (40_bus_transport.md R66); Rd5c only if `T_EH_RD > T_DDR`. -/
def readEvents (T : Timing) (r : Register) (sb : Byte) : List Event :=
  if T.tDDR < T.tEHRD then
    [.rs (r = .data), .rw true, .delay T.tAS, .dir .sense, .e true, .delay T.tDDR, .input sb,
     .delay (T.tEHRD - T.tDDR), .e false, .delay T.tH]
  else
    [.rs (r = .data), .rw true, .delay T.tAS, .dir .sense, .e true, .delay T.tDDR, .input sb,
     .e false, .delay T.tH]

/-- The trace of a row of paced writes when each poll ends at its first status read: in phase 1 the read that
senses the next byte of the list, then the write; in phase 0 the write alone (41_busy_sync.md R75, R78). -/
def pacedEvents (T : Timing) (phase : Bool) : List (Register × Byte) → List Byte → List Event
  | [], _ => []
  | w :: ws, sensed =>
    if phase then
      match sensed with
      | sb :: rest => readEvents T .instruction sb ++ writeEvents T w.1 w.2 ++ pacedEvents T phase ws rest
      | [] => []
    else writeEvents T w.1 w.2 ++ pacedEvents T phase ws sensed

/-- The bytes one poll reads out of those the bus is going to carry, up to the first with bit 7 = 0, and the bytes
it leaves (41_busy_sync.md R74). -/
def takePoll : List Byte → List Byte × List Byte
  | [] => ([], [])
  | sb :: rest => if busyFlag sb then (sb :: (takePoll rest).1, (takePoll rest).2) else ([sb], rest)

/-- The trace of a row of paced writes, however long each poll lasts: in phase 1 the status reads of its poll, then
the write; in phase 0 the write alone (41_busy_sync.md R75, R78). -/
def polledEvents (T : Timing) (phase : Bool) : List (Register × Byte) → List Byte → List Event
  | [], _ => []
  | w :: ws, sensed =>
    if phase then
      (takePoll sensed).1.flatMap (readEvents T .instruction) ++ writeEvents T w.1 w.2
        ++ polledEvents T phase ws (takePoll sensed).2
    else writeEvents T w.1 w.2 ++ polledEvents T phase ws sensed

/-- The idle pins a write leaves (40_bus_transport.md R71). -/
def idleAfterWrite (r : Register) (b : Byte) : Pins :=
  { rs := r = .data, rw := true, e := false, dbOut := b, dir := .drive }

/-- The idle pins a read leaves; the data latch is not written (40_bus_transport.md R71). -/
def idleAfterRead (r : Register) (p : Pins) : Pins :=
  { rs := r = .data, rw := true, e := false, dbOut := p.dbOut, dir := .sense }

/-- The pins a row of writes leaves. -/
def pinsAfter (p : Pins) : List (Register × Byte) → Pins
  | [] => p
  | w :: ws => pinsAfter (idleAfterWrite w.1 w.2) ws

/-! ## Launch premises (70_reset_and_hazards.md R119) -/

/-- `CleanEntry`. -/
def State.CleanEntry (s : State) : Prop := s.seq = .idle ∧ s.pins.e = false

/-- A configured handle, with the bindings it then holds, in either phase. -/
def State.ConfiguredWith (s : State) (b : Bindings) : Prop :=
  s.handle.configured = true ∧ s.handle.bindings = some b

/-- `Configured(phase)`: the phase is `H.startupComplete`. -/
def State.ConfiguredIn (s : State) (phase : Bool) : Prop :=
  s.handle.configured = true ∧ s.handle.startupComplete = phase

/-- `Unconfigured`: the reset state's handle. -/
def State.Unconfigured (s : State) : Prop :=
  s.handle.configured = false ∧ s.handle.startupComplete = false

/-- The controller is the unconstrained oracle of 20_memory.md R45. -/
def State.UnderOracle (s : State) : Prop := s.lcd.model = .oracle

/-- A premise for one operation, stronger than `BusyFalls`: each of its `n` polls ends at its first status read. In phase 1 the next `n`
bytes the bus carries have bit 7 = 0. In phase 0 nothing is asked, since nothing polls (41_busy_sync.md R75). -/
def State.PollsClear (s : State) (n : Nat) : Prop :=
  s.handle.startupComplete = true →
    n ≤ s.draws.senses.length ∧ ∀ sb ∈ s.draws.senses.take n, busyFlag sb = false

/-- Out of the bytes the bus is going to carry, each of `n` polls with no other read between them sees bit 7 = 0
after finitely many reads. -/
def PollsEnd : Nat → List Byte → Prop
  | 0, _ => True
  | n + 1, bytes => ∃ busy sb rest, bytes = busy ++ sb :: rest ∧ (∀ x ∈ busy, busyFlag x = true)
      ∧ busyFlag sb = false ∧ PollsEnd n rest

/-- A premise for one operation of `n` polls in front of the responder: neither its busy count, nor the draw after each
transfer between two of the polls, is ∞ (20_memory.md R50). -/
def State.CountsFall (s : State) (n : Nat) : Prop :=
  ∀ L, s.lcd.model = .reference L → L.busy ≠ .forever ∧ n - 1 ≤ s.draws.busy.length
    ∧ ∀ x ∈ s.draws.busy.take (n - 1), x ≠ .forever

/-- A status read made now senses `sb`. -/
def State.StatusReads (s : State) (sb : Byte) : Prop :=
  ∃ t, exec (.readLcd .instruction) { s with seq := .idle } = .next t
    ∧ t.reply = some { status := .ok, value := .byte sb }

/-- `BusyFalls` for the calls of the host's stream but the last `left`: wherever the run from here stands at a poll, it
comes in finitely many steps to where the same poll sees bit 7 = 0. -/
def State.BusyFallsUntil (left : Nat) (s : State) : Prop :=
  ∀ (n : Nat) (t : State) (i : Instr) (k : Nat), Host.Core.run core n s = .next t → t.seq = .at i k →
    left ≤ t.calls.length →
    ∃ (m : Nat) (u : State) (sb : Byte), Host.Core.run core m t = .next u ∧ u.seq = .at i k ∧ u.calls = t.calls
      ∧ u.StatusReads sb ∧ busyFlag sb = false

/-- `BusyFalls`: every poll loop of the run from here sees bit 7 = 0 after finitely many reads, whatever answers. -/
def State.BusyFalls (s : State) : Prop := s.BusyFallsUntil 0

/-- `EntryModeIncrement`: the responder's entry mode is increment; the oracle shows none. -/
def State.EntryModeIncrement (s : State) : Prop :=
  ∀ L, s.lcd.model = .reference L → L.increment = true

/-- The coming status reads all see bit 7 = 1: the bytes are the next ones the bus carries under the oracle,
or the reference responder never clears its busy flag (`L.busy` = ∞, 20_memory.md R50), in which case every
number of reads does so. -/
def State.PresentsBusy (s : State) (bytes : List Byte) : Prop :=
  (∀ x ∈ bytes, busyFlag x = true)
    ∧ ((s.UnderOracle ∧ ∃ rest, s.draws.senses = bytes ++ rest)
      ∨ ∃ L, s.lcd.model = .reference L ∧ L.busy = .forever ∧ ∀ x ∈ bytes, x = 1#1 ++ L.ac)

/-- The controller at the far side does not stop on a write of `b`: the oracle never does; the reference
responder has a meaning for the instruction byte (20_memory.md R47) or a cell for the data byte (R48). -/
def State.LcdAccepts (s : State) (r : Register) (b : Byte) : Prop :=
  ∀ L, s.lcd.model = .reference L →
    match r with
    | .instruction => b ≠ 0x00 ∧ b.extractLsb' 4 4 ≠ 0x1#4
    | .data => L.space = .cgram ∨ inLineRange L.ac = true

/-- The controller at the far side does not stop on a read: only a data read from a gap address of the
reference responder does (20_memory.md R49, 93_implementation_defined.md U7). -/
def State.LcdAnswers (s : State) (r : Register) : Prop :=
  ∀ L, s.lcd.model = .reference L → r = .data → L.space = .cgram ∨ inLineRange L.ac = true

/-- Operation `i` in progress stands at block `k`, a poll, in front of the responder `L` whose flag never falls. -/
structure State.StuckAt (s : State) (i : Instr) (k : Nat) (L : Responder) : Prop where
  position : s.seq = .at i k
  poll : (planOf i s.handle.startupComplete).blocks[k]? = some .poll
  configured : s.handle.configured = true
  bound : s.handle.bindings ≠ none
  enableLow : s.pins.e = false
  controller : s.lcd.model = .reference L
  stuck : L.busy = .forever

/-! ## `ControllerPremises`: what a claim may suppose of the controller (20_memory.md R45)

A claim takes them of the transfers a run in fact makes, from the state it starts in: of the polls as of the rest, and
of an access that waited at its poll as of one that did not. Beside each transfer stands what the controller is when it
is made, and after the last one what it is then; the block sees nothing of it but the bytes read, so a claim holds for
every such account that meets its premises. None is built into the model (log entry 33). -/

/-- A transfer of a run, with the byte it carried. -/
inductive Transfer where
  | write (r : Register) (b : Byte)
  | read (r : Register) (b : Byte)
  deriving DecidableEq, Repr

/-- The register RS selects. -/
def selected (rs : Bool) : Register := if rs then .data else .instruction

/-- The transfers of a row of events, RS being as last written. -/
def transfersOf : Bool → List Event → List Transfer
  | _, [] => []
  | _, .rs v :: es => transfersOf v es
  | rs, .out b :: es => .write (selected rs) b :: transfersOf rs es
  | rs, .input b :: es => .read (selected rs) b :: transfersOf rs es
  | rs, .rw _ :: es | rs, .e _ :: es | rs, .dir _ :: es | rs, .delay _ :: es => transfersOf rs es

/-- The transfers a run has made from `s` to `t`. -/
def State.since (s t : State) : List Transfer := transfersOf false (t.events.drop s.events.length)

/-- The controller at a moment of a run (10_state.md R29): whether it is processing the previous command, its Address
Counter and the memory that points into, its entry mode, and what its cells hold. -/
structure Seen where
  processing : Bool
  ac : Addr7
  space : Space
  increment : Bool
  cell : Space → Nat → Byte

/-- The reference responder, so seen (20_memory.md R46). -/
def Responder.seen (L : Responder) : Seen where
  processing := busyNow L.busy
  ac := L.ac
  space := L.space
  increment := L.increment
  cell := fun sp a => match sp with
    | .ddram => L.ddram.read ddramUnlisted a
    | .cgram => L.cgram.read cgramUnlisted a

/-- The cell the Address Counter points at, in its memory: 7 bits of it in DDRAM, 6 in CGRAM. -/
def Seen.place (x : Seen) : Nat :=
  match x.space with
  | .ddram => x.ac.toNat
  | .cgram => cgramCell x.ac

/-- There is such a cell: not at a DDRAM address in a gap (93_implementation_defined.md U7). -/
def Seen.HasCell (x : Seen) : Prop := x.space = .ddram → inLineRange x.ac = true

/-- The next address is one more: not past the end of a line's range, where the counter may become anything (U7), nor
past the last cell of CGRAM. -/
def Seen.HasNext (x : Seen) : Prop :=
  match x.space with
  | .ddram => inLineRange x.ac = true ∧ x.ac ≠ 0x27 ∧ x.ac ≠ 0x67
  | .cgram => x.ac.extractLsb' 0 6 ≠ 0x3F

/-- A status read is no access: it "changes nothing at the controller" (20_memory.md R44). -/
def Transfer.isStatusRead : Transfer → Bool
  | .read .instruction _ => true
  | .read .data _ | .write _ _ => false

/-- A Function Set latches a bus width where none is (10_state.md R29 (c)): one of the six bytes `FunctionSet` produces.
Of another byte of its format the controller may make anything (93_implementation_defined.md U11). -/
def Transfer.latches : Transfer → Bool
  | .write .instruction b => b ∈ [0x20#8, 0x24, 0x28, 0x30, 0x34, 0x38]
  | .write .data _ | .read _ _ => false

/-- The controller at the start of a row of transfers. -/
def nowSeen (run : List (Seen × Transfer)) (last : Seen) : Seen :=
  match run with
  | [] => last
  | (x, _) :: _ => x

/-- The controller at the first access of a row of transfers, or at its end where it has none. -/
def atFirstAccess : List (Seen × Transfer) → Seen → Seen
  | [], last => last
  | (x, tr) :: rest, last => if tr.isStatusRead then atFirstAccess rest last else x

/-- `Q` holds at every moment up to the next access at which the controller is not processing: what changes while it is,
"a claim that needs the new one must first see not-busy" (U15). -/
def Settled (Q : Seen → Prop) : List (Seen × Transfer) → Seen → Prop
  | [], last => last.processing = false → Q last
  | (y, tr) :: rest, last => (y.processing = false → Q y) ∧ (tr.isStatusRead = true → Settled Q rest last)

/-- What an access does, `done x tr` of the controller when it has settled, for each access that finds the controller
`x` not processing: of one that arrives while it is, anything may come (U20). -/
def EachAccess (done : Seen → Transfer → Seen → Prop) : List (Seen × Transfer) → Seen → Prop
  | [], _ => True
  | (x, tr) :: rest, last =>
    (tr.isStatusRead = false → x.processing = false → Settled (done x tr) rest last) ∧ EachAccess done rest last

/-- The controller has latched a bus width, as `latchWidth` records it (log entry 26). -/
def State.latched (s : State) : Bool := s.lcd.width.isSome

/-- P5, of the state a run starts in: the controller has latched a bus width. Before it has, "busy-flag reads are
undefined", and P1 and P2 say nothing of them. -/
def State.P5 (s : State) : Prop := s.latched = true

/-- What P1 and P2 say of the status reads of a run, `latched` telling of P5 where it starts. A Function Set that finds
the controller processing latches nothing here, since it may be lost (U20). -/
def EachStatusRead (tells : Seen → Byte → Prop) : Bool → List (Seen × Transfer) → Prop
  | _, [] => True
  | latched, (x, .read .instruction sb) :: rest => (latched = true → tells x sb) ∧ EachStatusRead tells latched rest
  | latched, (_, .read .data _) :: rest => EachStatusRead tells latched rest
  | latched, (x, .write r b) :: rest =>
    EachStatusRead tells (latched || ((Transfer.write r b).latches && !x.processing)) rest

/-- A status read is no command to process: a controller that is processing none goes on processing none. -/
def StaysFree : List (Seen × Transfer) → Seen → Prop
  | [], _ => True
  | (x, tr) :: rest, last =>
    (tr.isStatusRead = true → x.processing = false → (nowSeen rest last).processing = false) ∧ StaysFree rest last

/-- P1: bit 7 of a status read is 1 exactly while the controller is "processing the previous command". -/
def P1 (latched : Bool) (run : List (Seen × Transfer)) (last : Seen) : Prop :=
  EachStatusRead (fun x sb => busyFlag sb = x.processing) latched run ∧ StaysFree run last

/-- P2: bits 6 to 0 of a status read are the Address Counter. -/
def P2 (latched : Bool) (run : List (Seen × Transfer)) : Prop :=
  EachStatusRead (fun x sb => counterField sb = x.ac) latched run

/-- P3: after a Set DDRAM Address with an address of a line's range, a read of the Address Counter yields that
address. -/
def P3 (run : List (Seen × Transfer)) (last : Seen) : Prop :=
  EachAccess (fun _ tr y => ∀ a : Addr7, tr = .write .instruction (1#1 ++ a) → inLineRange a = true →
    y.ac = a ∧ y.space = .ddram) run last

/-- P4: a Data-register write stores the byte at the cell the Address Counter points at and, with the entry mode set to
increment, advances the Address Counter by one. -/
def P4 (run : List (Seen × Transfer)) (last : Seen) : Prop :=
  EachAccess (fun x tr y => ∀ v, tr = .write .data v →
    (x.HasCell → y.cell x.space x.place = v)
    ∧ (x.increment = true → x.HasNext → y.ac = x.ac + 1 ∧ y.space = x.space)) run last

/-- `ControllerPremises`, all of them; a claim may name a subset. -/
structure ControllerPremises (latched : Bool) (run : List (Seen × Transfer)) (last : Seen) : Prop where
  p1 : P1 latched run last
  p2 : P2 latched run
  p3 : P3 run last
  p4 : P4 run last

/-- A premise beside those of R45, for a claim about what cells hold that were not written last: a Set DDRAM Address and
a Data-register write leave every cell but the one stored to, and so do the status reads that follow. -/
def CellsStay (run : List (Seen × Transfer)) (last : Seen) : Prop :=
  EachAccess (fun x tr y => ∀ sp n,
    ((∃ a : Addr7, tr = .write .instruction (1#1 ++ a)) ∨ ∃ v, tr = .write .data v ∧ ¬(sp = x.space ∧ n = x.place)) →
    y.cell sp n = x.cell sp n) run last

/-- `EntryModeIncrement`, of a run: the entry mode is increment at every transfer. -/
def IncrementThroughout (run : List (Seen × Transfer)) : Prop := ∀ p ∈ run, p.1.increment = true

/-- One transfer in front of the reference responder, from `L` to `L'` (20_memory.md R47 to R49). -/
def Responder.Makes (L : Responder) : Transfer → Responder → Prop
  | .write r b, L' => ∃ draw, L.accept (rsLevel r) b draw = .ok L'
  | .read .instruction sb, L' => sb = L.statusByte ∧ L' = L.afterStatus
  | .read .data sb, L' => ∃ draw, L.supply draw = .ok (sb, L')

/-- Between two transfers the host may wait (20_memory.md R50). -/
def Responder.Rests (L L' : Responder) : Prop := L' = L ∨ L' = L.afterHostDelay

/-- A row of transfers in front of the reference responder, `L` at its start and `L'` at its end, with the responder as
it is when each is made. -/
def Trail : Responder → List (Responder × Transfer) → Responder → Prop
  | L, [], L' => L.Rests L'
  | L, (M, tr) :: rest, L' => L.Rests M ∧ ∃ N, M.Makes tr N ∧ Trail N rest L'

/-- The transfers from event number `origin` of the trace on, where the reference responder was `L`, and the responder as
it was at each meet all the premises. -/
def State.ConformsSince (origin : Nat) (L : Responder) (latched : Bool) (s : State) : Prop :=
  ∃ trail L', trail.map (·.2) = transfersOf false (s.events.drop origin) ∧ s.lcd.model = .reference L'
    ∧ Trail L trail L'
    ∧ ControllerPremises latched (trail.map fun p => (p.1.seen, p.2)) L'.seen
    ∧ CellsStay (trail.map fun p => (p.1.seen, p.2)) L'.seen

/-! ## Operations by what they do -/

/-- Operations that run the gate and make one transfer (41_busy_sync.md R76). -/
def Paced : Instr → Bool
  | .clearDisplay | .returnHome | .setEntryMode _ _ | .displayControl _ _ _ | .cursorDisplayShift _ _
  | .functionSet _ _ _ | .setCGRAMAddress _ | .setDisplayDataAddress _ | .writeDataReg _ | .readDataReg => true
  | .isBusy | .readAddressCounter | .waitNotBusy | .writeLcd _ _ | .readLcd _ | .configure _ _ _
  | .mapAddress _ _ | .clearCell _ _ | .writeAt _ _ _ _ | .writeLine _ _ => false

/-- Calls of Text Positioning that pass their own tests (60_exceptions.md R100, R101). -/
def AcceptedText : Instr → Bool
  | .clearCell line pos => (line = 1 || line = 2) && pos ≤ 16
  | .writeAt text line pos _ => (line = 1 || line = 2) && pos ≤ 16 && text.length ≤ 16 - pos
  | .writeLine text line => (line = 1 || line = 2) && text.length ≤ 16
  | .clearDisplay | .returnHome | .setEntryMode _ _ | .displayControl _ _ _ | .cursorDisplayShift _ _
  | .functionSet _ _ _ | .setCGRAMAddress _ | .setDisplayDataAddress _ | .writeDataReg _ | .readDataReg
  | .isBusy | .readAddressCounter | .waitNotBusy | .writeLcd _ _ | .readLcd _ | .configure _ _ _
  | .mapAddress _ _ => false

/-- Operations that can reach the bus: all but `Configure` and `mapAddress` (10_state.md R15). -/
def ReachesBus : Instr → Bool
  | .configure _ _ _ | .mapAddress _ _ => false
  | .clearDisplay | .returnHome | .setEntryMode _ _ | .displayControl _ _ _ | .cursorDisplayShift _ _
  | .functionSet _ _ _ | .setCGRAMAddress _ | .setDisplayDataAddress _ | .writeDataReg _ | .readDataReg
  | .isBusy | .readAddressCounter | .waitNotBusy | .writeLcd _ _ | .readLcd _
  | .clearCell _ _ | .writeAt _ _ _ _ | .writeLine _ _ => true

/-- The two operations of Bus Transport (40_bus_transport.md R62). -/
def IsTransfer : Instr → Bool
  | .writeLcd _ _ | .readLcd _ => true
  | .clearDisplay | .returnHome | .setEntryMode _ _ | .displayControl _ _ _ | .cursorDisplayShift _ _
  | .functionSet _ _ _ | .setCGRAMAddress _ | .setDisplayDataAddress _ | .writeDataReg _ | .readDataReg
  | .isBusy | .readAddressCounter | .waitNotBusy | .configure _ _ _ | .mapAddress _ _
  | .clearCell _ _ | .writeAt _ _ _ _ | .writeLine _ _ => false

/-- Operations whose every call on a configured handle starts with a transfer: those that reach the bus, but
for Text Positioning, which may reject (60_exceptions.md R100, R101). -/
def StartsATransfer (i : Instr) : Bool :=
  Paced i || IsTransfer i || i = .isBusy || i = .readAddressCounter || i = .waitNotBusy

/-- The position of an encoder operation's marker bit (30_encoding.md R58). -/
def markerBit : Instr → Option Nat
  | .setDisplayDataAddress _ => some 7
  | .setCGRAMAddress _ => some 6
  | .functionSet _ _ _ => some 5
  | .cursorDisplayShift _ _ => some 4
  | .displayControl _ _ _ => some 3
  | .setEntryMode _ _ => some 2
  | .returnHome => some 1
  | .clearDisplay => some 0
  | .writeDataReg _ | .readDataReg | .isBusy | .readAddressCounter | .waitNotBusy | .writeLcd _ _
  | .readLcd _ | .configure _ _ _ | .mapAddress _ _ | .clearCell _ _ | .writeAt _ _ _ _ | .writeLine _ _ => none

/-- The six producible Function Set bytes (42_instruction_encoder.md R85, corner cases). -/
def functionSetTable : BusLength → LineCount → Font → Byte
  | .eightBit, .twoLines, _ => 0x38
  | .eightBit, .oneLine, .font5x8 => 0x30
  | .eightBit, .oneLine, .font5x10 => 0x34
  | .fourBit, .twoLines, _ => 0x28
  | .fourBit, .oneLine, .font5x8 => 0x20
  | .fourBit, .oneLine, .font5x10 => 0x24

/-- The DDRAM address of a cell, as a number (44_text_positioning.md R92). -/
def cellAddress (line col : Nat) : Nat := (line - 1) * 64 + col

/-- Set DDRAM Address for a cell, as a write (44_text_positioning.md R93). -/
def addressWrite (line col : Nat) : Register × Byte := (.instruction, BitVec.ofNat 8 (128 + cellAddress line col))

/-- The writes of an accepted `writeAt`: each cell of the range that exists, the address of `pos`, the text
(44_text_positioning.md R94). -/
def writeAtWrites (text : List Byte) (line pos cellsToClear : Nat) : List (Register × Byte) :=
  ((List.range cellsToClear).filter (fun i => pos + i ≤ 16)).flatMap
      (fun i => [addressWrite line (pos + i), (.data, 0x20)])
    ++ [addressWrite line pos] ++ text.map (fun c => (.data, c))

/-- What the cells of DDRAM hold after an accepted `writeAt`, `before` being what they held: the text from `pos` on, spaces
in the other cells cleared up to column 16, the rest as before (44_text_positioning.md R94). -/
def landed (text : List Byte) (line pos cellsToClear : Nat) (before : Nat → Byte) (a : Nat) : Byte :=
  if cellAddress line pos ≤ a ∧ a < cellAddress line pos + text.length then
    text.getD (a - cellAddress line pos) 0x20
  else if cellAddress line pos ≤ a ∧ a < cellAddress line pos + cellsToClear ∧ a ≤ cellAddress line 16 then 0x20
  else before a

/-- The writes an operation makes through the gate, one paced encoder operation each: none for an operation that is
rejected, does not write, or is not paced (41_busy_sync.md R76, 44_text_positioning.md). -/
def pacedWrites (i : Instr) : Option (List (Register × Byte)) :=
  match i with
  | .clearCell line pos =>
    if AcceptedText (.clearCell line pos) then some [addressWrite line pos, (.data, 0x20)] else none
  | .writeAt text line pos cells =>
    if AcceptedText (.writeAt text line pos cells) then some (writeAtWrites text line pos cells) else none
  | .writeLine text line =>
    if AcceptedText (.writeLine text line) then some (writeAtWrites text line 0 16) else none
  | .writeDataReg v => some [(.data, v)]
  | .clearDisplay | .returnHome | .setEntryMode _ _ | .displayControl _ _ _ | .cursorDisplayShift _ _
  | .functionSet _ _ _ | .setCGRAMAddress _ | .setDisplayDataAddress _ =>
    (encodeInstructionByte i).map fun b => [(.instruction, b)]
  | .readDataReg | .isBusy | .readAddressCounter | .waitNotBusy | .writeLcd _ _ | .readLcd _
  | .configure _ _ _ | .mapAddress _ _ => none

/-- How many polls an operation makes in phase 1. -/
def pollCount (i : Instr) : Nat :=
  match i, pacedWrites i with
  | .readDataReg, _ | .waitNotBusy, _ => 1
  | _, some ws => ws.length
  | _, none => 0

/-- What a rejected operation returns: the default 0 for a read, nothing otherwise (60_exceptions.md R99). -/
def defaultValue : Instr → Value
  | .readLcd _ | .readDataReg => .byte 0
  | .readAddressCounter => .address 0
  | .isBusy => .bit false
  | .clearDisplay | .returnHome | .setEntryMode _ _ | .displayControl _ _ _ | .cursorDisplayShift _ _
  | .functionSet _ _ _ | .setCGRAMAddress _ | .setDisplayDataAddress _ | .writeDataReg _
  | .waitNotBusy | .writeLcd _ _ | .configure _ _ _ | .mapAddress _ _ | .clearCell _ _ | .writeAt _ _ _ _
  | .writeLine _ _ => .nothing

/-- From `s`, operation `i` completes and does exactly the paced writes `ws`: their trace, the pins of the
last one, status OK and no value; the handle becomes `h`. The rest of the state but the ports, the draws, the
time and the controller is unchanged, and the controller keeps being the oracle. -/
def Writes (i : Instr) (ws : List (Register × Byte)) (h : Handle) (s : State) : Prop :=
  ∃ t, exec i s = .next t
    ∧ t.events = s.events ++ pacedEvents s.timing s.handle.startupComplete ws s.draws.senses
    ∧ t.pins = pinsAfter s.pins ws
    ∧ t.handle = h
    ∧ t.reply = some { status := .ok, value := .nothing }
    ∧ t.seq = .idle ∧ t.timing = s.timing ∧ t.calls = s.calls ∧ t.UnderOracle

/-- The responder after an instruction write (20_memory.md R47): `L.busy` is the next draw and a command that
arrived while busy is recorded (R50); the rest is `f L`. -/
def Obeys (s : State) (L : Responder) (v : Byte) (f : Responder → Responder) : Prop :=
  ∃ t d, exec (.writeLcd .instruction v) s = .next t
    ∧ t.lcd.model = .reference { f L with busy := d, violated := L.violated || busyNow L.busy }
    ∧ ∀ x xs, s.draws.busy = x :: xs → d = x

/-! ## The bus monitor: the timing obligations read off a trace -/

/-- What an observer of the trace remembers: when RS and RW were last written and RW's level, the direction,
since when Enable is high, when it last fell, and whether every rule has been kept. -/
structure Monitor where
  rsAt : Option Nat
  rwAt : Option Nat
  rw : Bool
  dir : Option Dir
  up : Option Nat
  fellAt : Option Nat
  good : Bool
  deriving DecidableEq, Repr

/-- Before the first event. -/
def Monitor.start : Monitor :=
  { rsAt := none, rwAt := none, rw := true, dir := none, up := none, fellAt := none, good := true }

/-- At least `d` passed from the remembered time to `stop`; `missing` is the answer where nothing is
remembered. -/
def sinceAtLeast (missing : Bool) (since : Option Nat) (d stop : Nat) : Bool :=
  match since with
  | none => missing
  | some a => decide (a + d ≤ stop)

/-- One event. RS, RW, the direction and the data change only while Enable is low and `T_H` after it fell;
Enable rises `T_AS` after RS and RW, with the direction the transfer needs; a sample is taken in a read, with
Enable high for `T_DDR`; Enable stays high for `T_PW` in a write and `T_EH_RD` in a read
(40_bus_transport.md R65, R67). -/
def Monitor.see (T : Timing) (m : Monitor) (x : Stamped) : Monitor :=
  let rest := m.up.isNone && sinceAtLeast true m.fellAt T.tH x.stop
  match x.event with
  | .rs _ => { m with rsAt := some x.stop, good := m.good && rest }
  | .rw v => { m with rwAt := some x.stop, rw := v, good := m.good && rest }
  | .dir d => { m with dir := some d, good := m.good && rest }
  | .out _ => { m with good := m.good && rest }
  | .e true =>
    { m with
      up := some x.stop
      good := m.good && m.up.isNone && sinceAtLeast false m.rsAt T.tAS x.stop
        && sinceAtLeast false m.rwAt T.tAS x.stop && decide (m.dir = some (if m.rw then .sense else .drive)) }
  | .e false =>
    { m with
      up := none
      fellAt := some x.stop
      good := m.good && sinceAtLeast false m.up (if m.rw then T.tEHRD else T.tPW) x.stop }
  | .input _ =>
    { m with
      good := m.good && m.rw && decide (m.dir = some .sense) && sinceAtLeast false m.up T.tDDR x.stop }
  | .delay _ => m

/-- What the monitor has made of a state's trace. -/
def State.monitor (s : State) : Monitor := s.trace.foldl (Monitor.see s.timing) .start

/-- Every rule of the bus has been kept so far, Enable is low, and its hold time is over. -/
def State.Rested (s : State) : Prop :=
  s.monitor.good = true ∧ s.monitor.up = none ∧ ∀ f, s.monitor.fellAt = some f → f + s.timing.tH ≤ s.now

/-! ## Invariants -/

/-- The responder's memories are in canonical form. -/
def LcdModel.wf : LcdModel → Prop
  | .oracle => True
  | .reference r => r.ddram.wf ddramUnlisted = true ∧ r.cgram.wf cgramUnlisted = true

/-- The state's own invariant: memories in canonical form; a configured handle is bound to well-formed
bindings and an unconfigured one is as reset leaves it (10_state.md R21, R30); an operation in progress runs
on a configured handle; Enable is low between transfers (10_state.md R24). -/
structure State.Inv (s : State) : Prop where
  ports : s.ports.wf portUnlisted = true
  lcd : s.lcd.model.wf
  bound : s.handle.configured = true → ∃ b, s.handle.bindings = some b ∧ b.wellFormed = true
  unbound : s.handle.configured = false → s.handle.startupComplete = false ∧ s.handle.bindings = none
  progress : s.seq ≠ .idle → s.handle.configured = true
  enableLow : s.pins.e = false

/-- Time stamps rise from `lo` on: each event begins no earlier than the one before it was over. -/
def StampsFrom : Nat → List Stamped → Prop
  | _, [] => True
  | lo, x :: xs => lo ≤ x.start ∧ x.start ≤ x.stop ∧ StampsFrom x.stop xs

/-- The time stamps of the trace rise and none lies in the future. -/
def State.Ordered (s : State) : Prop :=
  StampsFrom 0 s.trace ∧ ∀ x ∈ s.trace, x.stop ≤ s.now

/-- The level or byte of the last event of a kind. -/
def lastOf {α : Type} (f : Event → Option α) (es : List Event) : Option α := (es.filterMap f).getLast?

/-- The pin state is what the block last wrote (10_state.md R22, R23). -/
structure State.PinsFollowTrace (s : State) : Prop where
  rs : ∀ v, lastOf (fun | .rs v => some v | _ => none) s.events = some v → s.pins.rs = v
  rw : ∀ v, lastOf (fun | .rw v => some v | _ => none) s.events = some v → s.pins.rw = v
  e : ∀ v, lastOf (fun | .e v => some v | _ => none) s.events = some v → s.pins.e = v
  dir : ∀ d, lastOf (fun | .dir d => some d | _ => none) s.events = some d → s.pins.dir = d
  out : ∀ b, lastOf (fun | .out b => some b | _ => none) s.events = some b → s.pins.dbOut = b

/-- A state without its ghosts: what the host was told, the trace and the clock (60_exceptions.md R103,
10_state.md R28). -/
def State.erase (s : State) : State := { s with reply := none, trace := [], now := 0 }

/-- Two outcomes differ at most in the ghosts of their states. -/
def SameButGhosts : Host.Outcome State Fault Refusal → Host.Outcome State Fault Refusal → Prop
  | .next s, .next t => s.erase = t.erase
  | .fault f, .fault g => f = g
  | .refused r, .refused q => r = q
  | _, _ => False

end Sys2Proof.Machine
end

