-- ==== Sys2Proof/Certificates/Slice0/Obligations.lean ====
section
/-! DEFINITION. The statements for the provers, taken from the numbered rules of spec/. -/

open Sys2Proof Sys2Proof.Machine

/-! ## Encodings (30_encoding.md) -/

/-- Bus words written out bit by bit from the table of 30_encoding.md R53 (and R51 for the data register and the
status read) decode to the operations they stand for. Which of the operations that share a word is read from it
is log entry 2. -/
def Obligations.SampleBusWordsDecode : Prop :=
  decode 0b0000000001 = .ok .clearDisplay
    ∧ decode 0b0000000110 = .ok (.setEntryMode true false)
    ∧ decode 0b0000001100 = .ok (.displayControl true false false)
    ∧ decode 0b0000011000 = .ok (.cursorDisplayShift true false)
    ∧ decode 0b0000111000 = .ok (.functionSet .eightBit .twoLines .font5x8)
    ∧ decode 0b0001001000 = .ok (.setCGRAMAddress 0x08)
    ∧ decode 0b0011000011 = .ok (.setDisplayDataAddress 0x43)
    ∧ decode 0b1001001000 = .ok (.writeDataReg 0x48)
    ∧ decode 0b1100000000 = .ok .readDataReg
    ∧ decode 0b0100000000 = .ok .isBusy
    ∧ decode 0b0000000011 = .ok (.writeLcd .instruction 0x03)
    ∧ decode 0b10000000000 = .error .notABusWord

/-- Decoding the encoding of an operation that owns its bus word gives it back, with every operand at every
value: an address within its field and a font request as it is packed (30_encoding.md R53 to R55). Which
operations own their word is log entry 2. -/
def Obligations.DecodeInvertsEncode : Prop :=
  ∀ (i : Instr) (w : BusWord), i.ownsItsWord = true → encode i = some w → decode w.toNat = .ok i.masked

/-- Every bus word decodes to an operation that owns it and encodes back to it; of a read's data byte, which the
controller supplies, the encoding says nothing (30_encoding.md R51). Which operations own their word is log
entry 2. -/
def Obligations.EncodeInvertsDecode : Prop :=
  ∀ w : BusWord, ∃ i, decode w.toNat = .ok i ∧ i.ownsItsWord = true
    ∧ encode i = some (if w.getLsbD 8 then w &&& 0x300 else w)

/-- 30_encoding.md R58: the highest set bit of an instruction byte is its format's marker bit, and two
operations that issue the same byte are of the same format. The rule is the spec's own inference, "derived: from
rule R53". -/
def Obligations.FormatsDoNotOverlap : Prop :=
  (∀ (i : Instr) (b : Byte), encodeInstructionByte i = some b → ∃ k, markerBit i = some k ∧ b.toNat >>> k = 1)
    ∧ ∀ (i j : Instr) (b : Byte),
        encodeInstructionByte i = some b → encodeInstructionByte j = some b → markerBit i = markerBit j

/-- 30_encoding.md R59: the bytes an encoder operation produces are the 216 of the rule's list, a raw write can
put any byte on the bus, and every data byte is an operand of `WriteDataReg`. The rule is the spec's own
inference, "derived: from rules R52, R53 and R54". -/
def Obligations.ProducibleInstructionBytes : Prop :=
  (∀ b : Byte, (∃ i, encodeInstructionByte i = some b) ↔
      (b = 0x01 ∨ b = 0x02 ∨ (0x04 ≤ b ∧ b ≤ 0x07) ∨ (0x08 ≤ b ∧ b ≤ 0x0F)
        ∨ b ∈ [0x10, 0x14, 0x18, 0x1C, 0x20, 0x24, 0x28, 0x30, 0x34, 0x38]
        ∨ (0x40 ≤ b ∧ b ≤ 0x7F) ∨ (0x80 ≤ b ∧ b ≤ 0xFF)))
    ∧ ((List.range 256).filter (fun n => producible (BitVec.ofNat 8 n))).length = 216
    ∧ (∀ b : Byte, producible b = true ↔ ∃ i, encodeInstructionByte i = some b)
    ∧ (∀ b : Byte, encode (.writeLcd .instruction b) = some (busWord false false b))
    ∧ ∀ b : Byte, encode (.writeDataReg b) = some (busWord true false b)

/-- What a paced write operation puts on the bus is its encoding: the byte its rule computes by OR and shift
(42_instruction_encoder.md, 43_register_access.md R88) is the data byte of the bus word laid out by the table
(30_encoding.md R53), sent to the register RS selects. -/
def Obligations.MeaningsPutTheirEncodingOnTheBus : Prop :=
  ∀ (i : Instr) (w : BusWord) (b : Bindings) (s : State),
    Paced i = true → encode i = some w → w.getLsbD 8 = false →
    s.CleanEntry → s.ConfiguredWith b → s.UnderOracle → s.PollsClear 1 →
    ∃ t, exec i s = .next t
      ∧ t.events = s.events ++ pacedEvents s.timing s.handle.startupComplete
          [(if w.getLsbD 9 then .data else .instruction, w.extractLsb' 0 8)] s.draws.senses

/-! ## Bus Transport (40_bus_transport.md) -/

/-- 40_bus_transport.md R64: the ten events of a write in order, the pins and the frame it leaves, on any
controller that does not stop; on an unconfigured handle no micro-step. The order within step 4 is the spec's
decision D5. -/
def Obligations.WriteLcdFollowsItsSteps : Prop :=
  (∀ (r : Register) (v : Byte) (b : Bindings) (s : State),
    s.CleanEntry → s.ConfiguredWith b → s.LcdAccepts r v →
    ∃ t, exec (.writeLcd r v) s = .next t
      ∧ t.events = s.events ++ writeEvents s.timing r v
      ∧ t.pins = idleAfterWrite r v
      ∧ t.handle = s.handle ∧ t.seq = .idle ∧ t.timing = s.timing ∧ t.calls = s.calls
      ∧ t.reply = some { status := .ok, value := .nothing })
    ∧ ∀ (r : Register) (v : Byte) (s : State), s.seq = .idle → s.handle.configured = false →
        exec (.writeLcd r v) s = .next { s with reply := some { status := .notConfigured, value := .nothing } }

/-- 40_bus_transport.md R66: the events of a read in order, the byte sensed returned, the pins and the frame, on
any controller that does not stop; under the oracle that byte is whatever the bus carries; on an unconfigured
handle no micro-step, and 0 is returned. Its end and its Enable-high time are the spec's decisions D4 and D7. -/
def Obligations.ReadLcdFollowsItsSteps : Prop :=
  (∀ (r : Register) (b : Bindings) (s : State),
    s.CleanEntry → s.ConfiguredWith b → s.LcdAnswers r →
    ∃ sb t, exec (.readLcd r) s = .next t
      ∧ t.events = s.events ++ readEvents s.timing r sb
      ∧ t.reply = some { status := .ok, value := .byte sb }
      ∧ t.pins = idleAfterRead r s.pins
      ∧ t.handle = s.handle ∧ t.seq = .idle ∧ t.timing = s.timing ∧ t.calls = s.calls
      ∧ ∀ x xs, s.UnderOracle → s.draws.senses = x :: xs → sb = x)
    ∧ ∀ (r : Register) (s : State), s.seq = .idle → s.handle.configured = false →
        exec (.readLcd r) s = .next { s with reply := some { status := .notConfigured, value := .byte 0 } }

/-- 40_bus_transport.md R71: what a transfer leaves on the pins, and any transfer may follow any other with
nothing in between. The last clause is the spec's own inference, "derived: from rules R64 and R66". -/
def Obligations.TransfersLeaveTheIdleState : Prop :=
  (∀ (r : Register) (v : Byte) (b : Bindings) (s t : State), s.CleanEntry → s.ConfiguredWith b →
      exec (.writeLcd r v) s = .next t → t.pins = idleAfterWrite r v)
    ∧ (∀ (r : Register) (b : Bindings) (s t : State), s.CleanEntry → s.ConfiguredWith b →
      exec (.readLcd r) s = .next t → t.pins = idleAfterRead r s.pins)
    ∧ ∀ (x y : Instr) (b : Bindings) (s : State), IsTransfer x = true → IsTransfer y = true →
      s.CleanEntry → s.ConfiguredWith b → s.UnderOracle →
      ∃ t u, exec x s = .next t ∧ exec y t = .next u ∧ t.CleanEntry ∧ u.CleanEntry

/-- 40_bus_transport.md R65: the timing obligations of a write, on the time stamps of its micro-steps. The rule
is the spec's own inference from R64 and R69; a port operation takes effect at its `stop` (log entry 7). -/
def Obligations.WriteTimingHolds : Prop :=
  ∀ (r : Register) (v : Byte) (b : Bindings) (s t : State),
    s.CleanEntry → s.ConfiguredWith b → exec (.writeLcd r v) s = .next t →
    ∃ w1 w2 w3 w4a w4b w4c w5 w6 w7 w8 : Stamped,
      t.trace = s.trace ++ [w1, w2, w3, w4a, w4b, w4c, w5, w6, w7, w8]
      ∧ [w1, w2, w3, w4a, w4b, w4c, w5, w6, w7, w8].map (·.event) = writeEvents s.timing r v
      ∧ w1.stop + s.timing.tAS ≤ w4c.stop ∧ w2.stop + s.timing.tAS ≤ w4c.stop
      ∧ w4b.stop ≤ w4c.stop
      ∧ w4c.stop + s.timing.tPW ≤ w6.stop
      ∧ w6.stop + s.timing.tH ≤ w8.stop

/-- 40_bus_transport.md R67: the timing obligations of a read; the first event of whatever operation comes next
comes at least `T_H` after Enable fell. The rule is the spec's own inference from R66 and R69; a port operation
takes effect at its `stop` (log entry 7). -/
def Obligations.ReadTimingHolds : Prop :=
  ∀ (r : Register) (b : Bindings) (s t : State),
    s.CleanEntry → s.ConfiguredWith b → exec (.readLcd r) s = .next t →
    ∃ (rd1 rd2 rd3 rd4a rd4b rd5a rd5b : Stamped) (rd5c : List Stamped) (rd6 rd7 : Stamped) (sb : Byte),
      t.trace = s.trace ++ [rd1, rd2, rd3, rd4a, rd4b, rd5a, rd5b] ++ rd5c ++ [rd6, rd7]
      ∧ ([rd1, rd2, rd3, rd4a, rd4b, rd5a, rd5b] ++ rd5c ++ [rd6, rd7]).map (·.event)
          = readEvents s.timing r sb
      ∧ rd1.stop + s.timing.tAS ≤ rd4b.stop ∧ rd2.stop + s.timing.tAS ≤ rd4b.stop
      ∧ rd4a.stop ≤ rd4b.stop
      ∧ rd4b.stop + s.timing.tDDR ≤ rd5b.stop
      ∧ rd5b.stop ≤ rd6.stop
      ∧ rd4b.stop + s.timing.tEHRD ≤ rd6.stop
      ∧ ∀ (j : Instr) (u : State) (x : Stamped) (rest : List Stamped),
          exec j t = .next u → u.trace = t.trace ++ x :: rest → rd6.stop + s.timing.tH ≤ x.stop

/-- 70_reset_and_hazards.md R130: the least time one transfer takes. The bounds are the spec's own inference
from R64 and R66. -/
def Obligations.TransfersTakeTheirTime : Prop :=
  (∀ (r : Register) (v : Byte) (b : Bindings) (s t : State), s.CleanEntry → s.ConfiguredWith b →
      exec (.writeLcd r v) s = .next t → s.now + (s.timing.tAS + s.timing.tPW + s.timing.tH) ≤ t.now)
    ∧ ∀ (r : Register) (b : Bindings) (s t : State), s.CleanEntry → s.ConfiguredWith b →
      exec (.readLcd r) s = .next t → s.now + (s.timing.tAS + s.timing.tEHRD + s.timing.tH) ≤ t.now

/-- 40_bus_transport.md R72: an operation that would enter a transfer with Enable high is refused by name, an
accepted call of Text Positioning like any other. That the model refuses is the spec's decision D21 (log entry
18). -/
def Obligations.EnableHighIsRefused : Prop :=
  ∀ (i : Instr) (b : Bindings) (s : State), StartsATransfer i = true ∨ AcceptedText i = true → s.seq = .idle →
    s.ConfiguredWith b → s.pins.e = true → exec i s = .refused .enableHigh

/-! ## The busy-flag synchronizer (41_busy_sync.md) -/

/-- 41_busy_sync.md R73: one status read, in either phase and on any controller, and bit 7 of what it senses,
whatever the lower seven bits are; on an unconfigured handle nothing is done and the answer is "not busy". -/
def Obligations.IsBusyReportsBit7 : Prop :=
  (∀ (b : Bindings) (s : State), s.CleanEntry → s.ConfiguredWith b →
    ∃ sb t, exec .isBusy s = .next t
      ∧ t.events = s.events ++ readEvents s.timing .instruction sb
      ∧ t.reply = some { status := .ok, value := .bit (sb.getLsbD 7) }
      ∧ t.pins = idleAfterRead .instruction s.pins
      ∧ t.handle = s.handle ∧ t.seq = .idle ∧ t.timing = s.timing ∧ t.calls = s.calls
      ∧ ∀ x xs, s.UnderOracle → s.draws.senses = x :: xs → sb = x)
    ∧ ∀ s : State, s.seq = .idle → s.handle.configured = false →
        exec .isBusy s = .next { s with reply := some { status := .notConfigured, value := .bit false } }

/-- 41_busy_sync.md R74: the loop makes one status read for each byte the controller presents with bit 7 = 1 and
ends after the first one with bit 7 = 0, with nothing between the reads; each step of the machine makes one of
them. The first clause is the call that ends at its first read. One read a step is log entry 4. -/
def Obligations.WaitNotBusyPollsUntilClear : Prop :=
  (∀ (b : Bindings) (s : State) (sb : Byte) (rest : List Byte),
    s.CleanEntry → s.ConfiguredWith b → s.UnderOracle → s.draws.senses = sb :: rest → busyFlag sb = false →
    ∃ t, exec .waitNotBusy s = .next t
      ∧ t.events = s.events ++ readEvents s.timing .instruction sb
      ∧ t.reply = some { status := .ok, value := .nothing } ∧ t.seq = .idle
      ∧ t.pins = idleAfterRead .instruction s.pins ∧ t.handle = s.handle)
    ∧ ∀ (b : Bindings) (s : State) (busy : List Byte) (sb : Byte) (rest : List Byte) (calls : List Call),
      s.CleanEntry → s.ConfiguredWith b → s.UnderOracle → s.calls = .op .waitNotBusy :: calls →
      s.draws.senses = busy ++ sb :: rest → (∀ x ∈ busy, busyFlag x = true) → busyFlag sb = false →
      ∃ t : State, Host.Core.run core (busy.length + 1) s = .next t
        ∧ t.events = s.events ++ (busy ++ [sb]).flatMap (readEvents s.timing .instruction)
        ∧ t.reply = some { status := .ok, value := .nothing } ∧ t.seq = .idle
        ∧ t.pins = idleAfterRead .instruction s.pins ∧ t.handle = s.handle ∧ t.calls = calls

/-- 41_busy_sync.md R75: in phase 1 a paced operation first polls, and while it senses bit 7 = 1 it has made
that read and nothing else, and stands at its poll: when it is issued, and when it goes on. That a step ends at
a poll that sees busy is log entry 4; that `ReadDataReg` is paced is the spec's decision D13. -/
def Obligations.PacedOperationsWaitWhileBusy : Prop :=
  ∀ (i : Instr) (b : Bindings) (s : State) (sb : Byte) (rest : List Byte),
    Paced i = true → s.pins.e = false → s.ConfiguredWith b → s.UnderOracle →
    s.handle.startupComplete = true → s.draws.senses = sb :: rest → busyFlag sb = true →
    ∃ t : State,
      (s.seq = .idle → exec i s = .next t) ∧ (s.seq = .at i 0 → step s = .next t)
      ∧ t.events = s.events ++ readEvents s.timing .instruction sb
      ∧ t.seq = .at i 0 ∧ t.handle = s.handle ∧ t.pins = idleAfterRead .instruction s.pins
      ∧ t.reply = none ∧ t.calls = s.calls ∧ t.draws.senses = rest

/-- 41_busy_sync.md R77: while every status read returns bit 7 = 1, an operation that polls does not end: after
any number of steps, one status read each, it is still at its poll, has made those reads and no transfer of its
own, and no later call has started. With a responder that never clears its flag this holds for every number of
steps, so that the run is infinite. One read a step is log entry 4; that `ReadDataReg` is paced is the spec's
decision D13. -/
def Obligations.StuckBusyFlagHangs : Prop :=
  ∀ (i : Instr) (b : Bindings) (s : State) (calls : List Call) (c : Byte) (cs : List Byte),
    (i = .waitNotBusy ∨ s.handle.startupComplete = true ∧ (Paced i = true ∨ AcceptedText i = true)) →
    s.CleanEntry → s.ConfiguredWith b → s.calls = .op i :: calls → s.PresentsBusy (c :: cs) →
    ∃ t : State, Host.Core.run core (cs.length + 1) s = .next t
      ∧ t.seq = .at i 0
      ∧ t.events = s.events ++ (c :: cs).flatMap (readEvents s.timing .instruction)
      ∧ t.handle = s.handle ∧ t.calls = calls ∧ t.reply = none ∧ t.pins.dbOut = s.pins.dbOut

/-- With the reference responder's flag falling after `n` polls (20_memory.md R49, R50), a paced operation makes
`n` status reads that see it busy, one that does not, and its write, or for `ReadDataReg` its read; and it never
breaks the pacing rule. The responder is the spec's simulator (log entry 12), one read a step is log entry 4, and
that `ReadDataReg` is paced is the spec's decision D13. -/
def Obligations.FallingBusyFlagEndsThePoll : Prop :=
  ∀ (b : Bindings) (s : State) (L : Responder) (calls : List Call) (n : Nat),
    s.CleanEntry → s.ConfiguredWith b → s.handle.startupComplete = true →
    s.lcd.model = .reference L → L.busy = .polls n →
    (∀ (i : Instr) (w : BusWord), Paced i = true → encode i = some w → w.getLsbD 8 = false →
      s.LcdAccepts (if w.getLsbD 9 then .data else .instruction) (w.extractLsb' 0 8) →
      s.calls = .op i :: calls →
      ∃ (t : State) (L' : Responder), Host.Core.run core (n + 1) s = .next t
        ∧ t.seq = .idle ∧ t.reply = some { status := .ok, value := .nothing } ∧ t.calls = calls
        ∧ t.events = s.events
            ++ (List.replicate n (readEvents s.timing .instruction (1#1 ++ L.ac))).flatten
            ++ readEvents s.timing .instruction (0#1 ++ L.ac)
            ++ writeEvents s.timing (if w.getLsbD 9 then .data else .instruction) (w.extractLsb' 0 8)
        ∧ t.lcd.model = .reference L' ∧ L'.violated = L.violated)
    ∧ (s.LcdAnswers .data → s.calls = .op .readDataReg :: calls →
      ∃ (t : State) (L' : Responder) (v : Byte), Host.Core.run core (n + 1) s = .next t
        ∧ t.seq = .idle ∧ t.reply = some { status := .ok, value := .byte v } ∧ t.calls = calls
        ∧ v = (match L.space with
            | .ddram => L.ddram.read ddramUnlisted L.ac.toNat
            | .cgram => L.cgram.read cgramUnlisted (L.ac.toNat % 64))
        ∧ t.events = s.events
            ++ (List.replicate n (readEvents s.timing .instruction (1#1 ++ L.ac))).flatten
            ++ readEvents s.timing .instruction (0#1 ++ L.ac)
            ++ readEvents s.timing .data v
        ∧ t.lcd.model = .reference L' ∧ L'.violated = L.violated)

/-- 41_busy_sync.md R76, 20_memory.md R50: in phase 1 nothing but a raw transfer reaches a busy responder with a
command or a data access, whether the operation is issued or goes on from a poll. The responder is the spec's
simulator (log entry 12); which operations are paced is its decisions D13 and D14. -/
def Obligations.PacedOperationsNeverViolate : Prop :=
  ∀ (i : Instr) (s t : State) (L : Responder),
    IsTransfer i = false → s.handle.startupComplete = true → s.lcd.model = .reference L →
    (exec i s = .next t
      ∨ ∃ k, s.seq = .at i k ∧ (planOf i true).blocks[k]? = some .poll ∧ step s = .next t) →
    ∃ L', t.lcd.model = .reference L' ∧ L'.violated = L.violated

/-! ## The Instruction Encoder (42_instruction_encoder.md) -/

/-- 42_instruction_encoder.md R80, R81: the constant bytes. -/
def Obligations.ClearAndHomeIssueTheirBytes : Prop :=
  ∀ (b : Bindings) (s : State), s.CleanEntry → s.ConfiguredWith b → s.UnderOracle → s.PollsClear 1 →
    Writes .clearDisplay [(.instruction, 0x01)] s.handle s
    ∧ Writes .returnHome [(.instruction, 0x02)] s.handle s

/-- 42_instruction_encoder.md R82, R83, R84: each parameter at its bit, every combination. -/
def Obligations.ModeCommandsPackTheirBits : Prop :=
  ∀ (x y z : Bool) (b : Bindings) (s : State), s.CleanEntry → s.ConfiguredWith b → s.UnderOracle →
    s.PollsClear 1 →
    Writes (.setEntryMode x y) [(.instruction, BitVec.ofNat 8 (4 + 2 * x.toNat + y.toNat))] s.handle s
    ∧ Writes (.displayControl x y z)
        [(.instruction, BitVec.ofNat 8 (8 + 4 * x.toNat + 2 * y.toNat + z.toNat))] s.handle s
    ∧ Writes (.cursorDisplayShift x y) [(.instruction, BitVec.ofNat 8 (16 + 8 * x.toNat + 4 * y.toNat))]
        s.handle s

/-- 42_instruction_encoder.md R85: the six producible bytes, the dropped font request, the phase flag set after
the transfer (so that the first Function Set does not poll); on an unconfigured handle the flag is not set. When
the flag is set is the spec's decision D11. -/
def Obligations.FunctionSetPacksAndMarksThePhase : Prop :=
  (∀ (l : BusLength) (n : LineCount) (f : Font) (b : Bindings) (s : State),
    s.CleanEntry → s.ConfiguredWith b → s.UnderOracle → s.PollsClear 1 →
    Writes (.functionSet l n f) [(.instruction, functionSetTable l n f)]
      { s.handle with startupComplete := true } s)
    ∧ ∀ (l : BusLength) (n : LineCount) (f : Font) (s : State), s.seq = .idle → s.handle.configured = false →
        exec (.functionSet l n f) s
          = .next { s with reply := some { status := .notConfigured, value := .nothing } }

/-- 30_encoding.md R55, 42_instruction_encoder.md R86: an address of any width, its low 6 or 7 bits under the
marker bit; it is never rejected. -/
def Obligations.AddressCommandsMaskTheirAddress : Prop :=
  ∀ (a : Nat) (b : Bindings) (s : State), s.CleanEntry → s.ConfiguredWith b → s.UnderOracle →
    s.PollsClear 1 →
    Writes (.setCGRAMAddress a) [(.instruction, BitVec.ofNat 8 (0x40 + a % 64))] s.handle s
    ∧ Writes (.setDisplayDataAddress a) [(.instruction, BitVec.ofNat 8 (0x80 + a % 128))] s.handle s

/-! ## Data register, read-back, Configure (43_register_access.md) -/

/-- 43_register_access.md R88: the byte goes to the Data register unchanged, paced like a command. -/
def Obligations.WriteDataRegSendsTheByte : Prop :=
  ∀ (v : Byte) (b : Bindings) (s : State), s.CleanEntry → s.ConfiguredWith b → s.UnderOracle →
    s.PollsClear 1 → Writes (.writeDataReg v) [(.data, v)] s.handle s

/-- 43_register_access.md R89: the poll in phase 1, then one read of the Data register, whose byte is returned.
The operation and its pacing are the spec's decision D13. -/
def Obligations.ReadDataRegReturnsTheByte : Prop :=
  ∀ (b : Bindings) (s : State) (polled : List Byte) (sb : Byte) (rest : List Byte),
    s.CleanEntry → s.ConfiguredWith b → s.UnderOracle →
    s.draws.senses = polled ++ sb :: rest →
    polled.length = s.handle.startupComplete.toNat → (∀ x ∈ polled, busyFlag x = false) →
    ∃ t, exec .readDataReg s = .next t
      ∧ t.events = s.events ++ polled.flatMap (readEvents s.timing .instruction) ++ readEvents s.timing .data sb
      ∧ t.reply = some { status := .ok, value := .byte sb }
      ∧ t.pins = idleAfterRead .data s.pins
      ∧ t.handle = s.handle ∧ t.seq = .idle ∧ t.timing = s.timing ∧ t.calls = s.calls

/-- 43_register_access.md R90: one status read in either phase, without pacing, and its low seven bits; on an
unconfigured handle nothing is done and 0 is returned. That it is not paced is the spec's decision D14. -/
def Obligations.ReadAddressCounterDropsBit7 : Prop :=
  (∀ (b : Bindings) (s : State), s.CleanEntry → s.ConfiguredWith b →
    ∃ sb t, exec .readAddressCounter s = .next t
      ∧ t.events = s.events ++ readEvents s.timing .instruction sb
      ∧ t.reply = some { status := .ok, value := .address (BitVec.ofNat 7 (sb.toNat % 128)) }
      ∧ t.pins = idleAfterRead .instruction s.pins
      ∧ t.handle = s.handle ∧ t.seq = .idle ∧ t.timing = s.timing ∧ t.calls = s.calls
      ∧ ∀ x xs, s.UnderOracle → s.draws.senses = x :: xs → sb = x)
    ∧ ∀ s : State, s.seq = .idle → s.handle.configured = false →
        exec .readAddressCounter s
          = .next { s with reply := some { status := .notConfigured, value := .address 0 } }

/-- 43_register_access.md R91: `Configure` binds the handle and does nothing else; a second call and bindings
that overlap are refused. That it touches no pin is the spec's decision D10; the refusals are log entries 16 and
17. -/
def Obligations.ConfigureBindsTheHandleOnce : Prop :=
  ∀ (d : DataBus) (dir : PortName) (l : ControlLines) (s : State), s.seq = .idle →
    (s.handle.configured = false → (Instr.configure d dir l).wellFormed = true →
      exec (.configure d dir l) s = .next
        { s with
          handle :=
            { configured := true, startupComplete := false
              bindings := some
                { bus := { out := d.out, inp := d.inp, dir := dir }, rs := l.rs, rw := l.rw, en := l.enable } }
          reply := some { status := .ok, value := .nothing } })
    ∧ (s.handle.configured = false → (Instr.configure d dir l).wellFormed = false →
      exec (.configure d dir l) s = .refused .overlappingBindings)
    ∧ (s.handle.configured = true → exec (.configure d dir l) s = .refused .configuredTwice)

/-! ## Text Positioning (44_text_positioning.md) -/

/-- 44_text_positioning.md R92: the address of a line and a column in range, nothing out of range; no other
state is touched, on any handle. Naturals as operands are the spec's decision D17; the status OK is log entry
20. -/
def Obligations.MapAddressComputes : Prop :=
  ∀ (line col : Nat) (s : State), s.seq = .idle →
    ((line = 1 ∨ line = 2) ∧ col ≤ 16 →
      ∃ a : Addr7, a.toNat = (line - 1) * 64 + col
        ∧ exec (.mapAddress line col) s = .next { s with reply := some { status := .ok, value := .address a } })
    ∧ (¬((line = 1 ∨ line = 2) ∧ col ≤ 16) →
      exec (.mapAddress line col) s = .next { s with reply := some { status := .ok, value := .nothing } })

/-- 44_text_positioning.md R93: the address, then a space; out of range nothing; and if the poll before the
space sees the controller busy, the address has been set and the space not written, and the step ends at that
poll, block 2 of the call, with nothing returned: the step and the position are log entry 4. -/
def Obligations.ClearCellWritesASpace : Prop :=
  ∀ (line pos : Nat) (b : Bindings) (s : State), s.CleanEntry → s.ConfiguredWith b →
    ((line = 1 ∨ line = 2) ∧ pos ≤ 16 → s.UnderOracle → s.PollsClear 2 →
      Writes (.clearCell line pos) [addressWrite line pos, (.data, 0x20)] s.handle s)
    ∧ (¬((line = 1 ∨ line = 2) ∧ pos ≤ 16) →
      exec (.clearCell line pos) s = .next { s with reply := some { status := .outOfRange, value := .nothing } })
    ∧ ∀ (x y : Byte) (rest : List Byte), (line = 1 ∨ line = 2) ∧ pos ≤ 16 → s.UnderOracle →
      s.handle.startupComplete = true → s.draws.senses = x :: y :: rest →
      busyFlag x = false → busyFlag y = true →
      ∃ t, exec (.clearCell line pos) s = .next t ∧ t.seq = .at (.clearCell line pos) 2
        ∧ t.events = s.events ++ readEvents s.timing .instruction x
            ++ writeEvents s.timing (addressWrite line pos).1 (addressWrite line pos).2
            ++ readEvents s.timing .instruction y
        ∧ t.reply = none

/-- 44_text_positioning.md R94: an accepted call clears each cell of the range that exists, one address each,
then sets the address of `pos`, then writes the text: `2 * n + 1 + length(text)` paced writes. Cell by cell, and
always an address before the text, are the spec's decisions D18 and D19. -/
def Obligations.WriteAtClearsThenWrites : Prop :=
  ∀ (text : List Byte) (line pos cells : Nat) (b : Bindings) (s : State),
    (line = 1 ∨ line = 2) → pos ≤ 16 → text.length ≤ 16 - pos →
    s.CleanEntry → s.ConfiguredWith b → s.UnderOracle →
    s.PollsClear (writeAtWrites text line pos cells).length →
    Writes (.writeAt text line pos cells) (writeAtWrites text line pos cells) s.handle s
    ∧ (writeAtWrites text line pos cells).length
        = 2 * ((List.range cells).filter (fun i => pos + i ≤ 16)).length + 1 + text.length

/-- 44_text_positioning.md R95: `writeLine` makes the writes of `writeAt(text, line, 0, 16)`, which are `33 +
length(text)`: cells 0 to 15 and not cell 16. Cell by cell is the spec's decision D18. -/
def Obligations.WriteLineClearsTheWholeLine : Prop :=
  ∀ (text : List Byte) (line : Nat) (b : Bindings) (s : State),
    (line = 1 ∨ line = 2) → text.length ≤ 16 → s.CleanEntry → s.ConfiguredWith b → s.UnderOracle →
    s.PollsClear (33 + text.length) →
    Writes (.writeLine text line) (writeAtWrites text line 0 16) s.handle s
    ∧ writeAtWrites text line 0 16
        = (List.range 16).flatMap (fun i => [addressWrite line i, (.data, 0x20)])
            ++ [addressWrite line 0] ++ text.map (fun c => (.data, c))
    ∧ (writeAtWrites text line 0 16).length = 33 + text.length

/-- 60_exceptions.md R101, R104: on a configured handle range is tested before length, and either failure does
nothing. The order is the spec's decision D16 and the status its decision D15. -/
def Obligations.RejectionOrder : Prop :=
  ∀ (text : List Byte) (line pos cells : Nat) (s : State), s.seq = .idle →
    let ranged := (line = 1 ∨ line = 2) ∧ pos ≤ 16
    let rejects (i : Instr) (st : Status) : Prop :=
      exec i s = .next { s with reply := some { status := st, value := .nothing } }
    (s.handle.configured = false →
      rejects (.writeAt text line pos cells) .notConfigured ∧ rejects (.writeLine text line) .notConfigured)
    ∧ (s.handle.configured = true → ¬ranged → rejects (.writeAt text line pos cells) .outOfRange)
    ∧ (s.handle.configured = true → ranged → 16 - pos < text.length →
      rejects (.writeAt text line pos cells) .tooLong)
    ∧ (s.handle.configured = true → ¬(line = 1 ∨ line = 2) → rejects (.writeLine text line) .outOfRange)
    ∧ (s.handle.configured = true → line = 1 ∨ line = 2 → 16 < text.length →
      rejects (.writeLine text line) .tooLong)

/-! ## Rejections over all operations (60_exceptions.md) -/

/-- 40_bus_transport.md R68, 60_exceptions.md R99: on an unconfigured handle every operation that reaches the
bus does nothing, reports it, and returns the default. The status of `WaitNotBusy` is log entry 21. -/
def Obligations.UnconfiguredOperationsDoNothing : Prop :=
  ∀ (i : Instr) (s : State), ReachesBus i = true → s.seq = .idle → s.handle.configured = false →
    exec i s = .next { s with reply := some { status := .notConfigured, value := defaultValue i } }

/-- 10_state.md R21: while `H.configured = 0` no operation, issued or in progress, performs a port operation
or a delay, changes the pins or sets the phase flag. -/
def Obligations.UnconfiguredHandleTouchesNothing : Prop :=
  ∀ (i : Instr) (s t : State), s.handle.configured = false →
    (exec i s = .next t ∨ ∃ k, s.seq = .at i k ∧ step s = .next t) →
    t.trace = s.trace ∧ t.now = s.now ∧ t.pins = s.pins ∧ t.ports = s.ports ∧ t.lcd = s.lcd
      ∧ (s.handle.startupComplete = false → t.handle.startupComplete = false)

/-- 60_exceptions.md R105: an operation that reports anything but OK has left everything else as it was. -/
def Obligations.RejectedOperationsHaveNoEffect : Prop :=
  ∀ (i : Instr) (s t : State) (st : Status) (v : Value),
    exec i s = .next t → t.reply = some { status := st, value := v } → st ≠ .ok →
    t = { s with reply := some { status := st, value := v } }

/-- 20_memory.md R43: an operation issued while another is in progress is refused by name. The refusal is log
entry 19. -/
def Obligations.InterleavedOperationsAreRefused : Prop :=
  ∀ (i j : Instr) (k : Nat) (s : State), s.seq = .at j k → exec i s = .refused .interleaved

/-! ## The Controller Handle and the phase (10_state.md, 41_busy_sync.md) -/

/-- 10_state.md R19: once configured, the handle's only later change is that the phase flag becomes 1. -/
def Obligations.HandleChangesOnlyByThePhaseFlag : Prop :=
  ∀ s t : State, s.handle.configured = true → step s = .next t →
    t.handle = s.handle ∨ t.handle = { s.handle with startupComplete := true }

/-- 41_busy_sync.md R78: the phase goes from 0 to 1 only, and only `FunctionSet` takes it there, when it completes,
whether an operation is issued or goes on from its poll. When the flag is set is the spec's decision D11. -/
def Obligations.OnlyFunctionSetEndsPhase0 : Prop :=
  ∀ (i : Instr) (s t : State), s.handle.configured = true →
    (exec i s = .next t ∨ ∃ k, s.seq = .at i k ∧ step s = .next t) →
    t.handle.startupComplete ≠ s.handle.startupComplete →
    s.handle.startupComplete = false ∧ t.handle.startupComplete = true ∧ t.seq = .idle
      ∧ ∃ l n f, i = .functionSet l n f

/-! ## Frames -/

/-- What no operation changes, issued or going on from its poll: the parameters, the host's stream, the handle but
for `Configure` and `FunctionSet`, the data latch but for an operation that writes; the trace and the clock only
grow; an oracle stays one. -/
def Obligations.FrameOfEveryOperation : Prop :=
  ∀ (i : Instr) (s t : State), (exec i s = .next t ∨ ∃ k, s.seq = .at i k ∧ step s = .next t) →
    t.timing = s.timing ∧ t.calls = s.calls ∧ (∃ l, t.trace = s.trace ++ l) ∧ s.now ≤ t.now
      ∧ (s.UnderOracle → t.UnderOracle)
      ∧ ((∀ l n f, i ≠ .functionSet l n f) → (∀ d dir l, i ≠ .configure d dir l) → t.handle = s.handle)
      ∧ ((i = .isBusy ∨ i = .readAddressCounter ∨ i = .waitNotBusy ∨ i = .readDataReg ∨ (∃ r, i = .readLcd r)
          ∨ (∃ d dir l, i = .configure d dir l) ∨ (∃ l c, i = .mapAddress l c)) →
        t.pins.dbOut = s.pins.dbOut ∧ t.lcd.width = s.lcd.width)

/-- 20_memory.md R31: of the port registers, a step writes only the data output register, the direction register
and the three named bits; every other bit of every register reads as before. That only the named bit changes is
the spec's decision D28; what an unwritten register reads as is log entry 13. -/
def Obligations.PortsChangeOnlyWhereBound : Prop :=
  ∀ (b : Bindings) (s t : State) (a : PortName) (j : Fin 8),
    s.ports.wf portUnlisted = true → s.handle.bindings = some b → (step s = .next t ∨ ∃ i, exec i s = .next t) →
    a ≠ b.bus.out → a ≠ b.bus.dir →
    (∀ p ∈ [b.rs, b.rw, b.en], ¬(p.port = a ∧ p.bit = j)) →
    (t.ports.read portUnlisted a).getLsbD j.val = (s.ports.read portUnlisted a).getLsbD j.val

/-- 10_state.md R22, R23: after a transfer the bound bits carry the levels of RS, RW and E, the direction
register the platform's value of the direction, and after a write the data register the byte. Bit i of the port
is bit i of the byte by the spec's decision D8; the direction's values are log entry 14. -/
def Obligations.BoundBitsCarryThePins : Prop :=
  (∀ (r : Register) (v : Byte) (b : Bindings) (s t : State), s.CleanEntry → s.ConfiguredWith b →
    b.wellFormed = true → s.ports.wf portUnlisted = true → exec (.writeLcd r v) s = .next t →
    t.readBit b.rs = t.pins.rs ∧ t.readBit b.rw = t.pins.rw ∧ t.readBit b.en = t.pins.e
      ∧ t.ports.read portUnlisted b.bus.out = t.pins.dbOut
      ∧ t.ports.read portUnlisted b.bus.dir = Config.directionValue t.pins.dir)
    ∧ ∀ (r : Register) (b : Bindings) (s t : State), s.CleanEntry → s.ConfiguredWith b →
      b.wellFormed = true → s.ports.wf portUnlisted = true → exec (.readLcd r) s = .next t →
      t.readBit b.rs = t.pins.rs ∧ t.readBit b.rw = t.pins.rw ∧ t.readBit b.en = t.pins.e
        ∧ t.ports.read portUnlisted b.bus.dir = Config.directionValue t.pins.dir
        ∧ t.ports.read portUnlisted b.bus.out = s.ports.read portUnlisted b.bus.out

/-! ## The reference responder (20_memory.md R46 to R50) -/

/-- 20_memory.md R47: what the responder does with each instruction byte, and the two it stops on. The effects
are the spec's from general knowledge (log entry 12). -/
def Obligations.ResponderObeysInstructions : Prop :=
  ∀ (b : Bindings) (s : State) (L : Responder), s.CleanEntry → s.ConfiguredWith b → s.lcd.model = .reference L →
    (∀ a : BitVec 7, Obeys s L (1#1 ++ a) (fun L => { L with ac := a, space := .ddram }))
    ∧ (∀ a : BitVec 6, Obeys s L (0b01#2 ++ a) (fun L => { L with ac := a.setWidth 7, space := .cgram }))
    ∧ (∀ x : BitVec 5, Obeys s L (0b001#3 ++ x) id)
    ∧ (∀ x : BitVec 3, Obeys s L (0b00001#5 ++ x) id)
    ∧ (∀ i sh : Bool, Obeys s L (0b000001#6 ++ BitVec.ofBool i ++ BitVec.ofBool sh)
        (fun L => { L with increment := i }))
    ∧ (∀ x : BitVec 1, Obeys s L (0b0000001#7 ++ x) (fun L => { L with ac := 0, space := .ddram }))
    ∧ Obeys s L 0b00000001#8 (fun L => { L with ddram := [], ac := 0, space := .ddram, increment := true })
    ∧ (∀ x : BitVec 4, exec (.writeLcd .instruction (0b0001#4 ++ x)) s = .refused .responderHasNoMeaning)
    ∧ exec (.writeLcd .instruction 0x00) s = .refused .responderHasNoMeaning

/-- 20_memory.md R48: a data write stores at the cell the Address Counter points at, leaves every other cell,
and steps the counter, with the ends of the ranges; at a gap address the responder stops. The counter's ways are
the spec's from general knowledge (log entries 12, 30). -/
def Obligations.ResponderStoresData : Prop :=
  ∀ (v : Byte) (b : Bindings) (s : State) (L : Responder), s.CleanEntry → s.ConfiguredWith b →
    s.lcd.model = .reference L → L.ddram.wf ddramUnlisted = true → L.cgram.wf cgramUnlisted = true →
    (L.space = .ddram → inLineRange L.ac = false →
      exec (.writeLcd .data v) s = .refused .responderGapAddress)
    ∧ (L.space = .cgram ∨ inLineRange L.ac = true →
      ∃ t L', exec (.writeLcd .data v) s = .next t ∧ t.lcd.model = .reference L'
        ∧ L'.space = L.space ∧ L'.increment = L.increment
        ∧ L'.violated = (L.violated || busyNow L.busy)
        ∧ (∀ x xs, s.draws.busy = x :: xs → L'.busy = x)
        ∧ (L.space = .ddram →
          (∀ a, L'.ddram.read ddramUnlisted a = if a = L.ac.toNat then v else L.ddram.read ddramUnlisted a)
          ∧ L'.cgram = L.cgram
          ∧ L'.ac.toNat =
              if L.increment then
                (if L.ac.toNat = 0x27 then 0x40 else if L.ac.toNat = 0x67 then 0x00 else L.ac.toNat + 1)
              else (if L.ac.toNat = 0x40 then 0x27 else if L.ac.toNat = 0x00 then 0x67 else L.ac.toNat - 1))
        ∧ (L.space = .cgram →
          (∀ a, L'.cgram.read cgramUnlisted a
            = if a = L.ac.toNat % 64 then v else L.cgram.read cgramUnlisted a)
          ∧ L'.ddram = L.ddram
          ∧ L'.ac.toNat % 64 = (if L.increment then L.ac.toNat + 1 else L.ac.toNat + 63) % 64))

/-- 20_memory.md R49: a status read gives the busy flag and the Address Counter and counts a finite busy count
down; a data read gives the cell a write would have stored to and steps the counter as a write does. The data
read is the spec's from general knowledge (log entry 12), and bit 6 of the counter in CGRAM is log entry 30. -/
def Obligations.ResponderAnswersReads : Prop :=
  ∀ (b : Bindings) (s : State) (L : Responder), s.CleanEntry → s.ConfiguredWith b → s.lcd.model = .reference L →
    (∃ t, exec (.readLcd .instruction) s = .next t
      ∧ t.reply = some { status := .ok, value := .byte (BitVec.ofBool (busyNow L.busy) ++ L.ac) }
      ∧ t.lcd.model = .reference { L with busy := afterPoll L.busy })
    ∧ (L.space = .ddram → inLineRange L.ac = false →
      exec (.readLcd .data) s = .refused .responderGapAddress)
    ∧ (L.space = .cgram ∨ inLineRange L.ac = true →
      ∃ t d, exec (.readLcd .data) s = .next t
        ∧ t.reply = some
            { status := .ok
              value := .byte (match L.space with
                | .ddram => L.ddram.read ddramUnlisted L.ac.toNat
                | .cgram => L.cgram.read cgramUnlisted (L.ac.toNat % 64)) }
        ∧ t.lcd.model = .reference
            { L with
              ac := nextCounter L.space L.increment L.ac
              busy := d
              violated := L.violated || busyNow L.busy }
        ∧ ∀ x xs, s.draws.busy = x :: xs → d = x)

/-- 95_test_vectors.md S7, premise P3 of 20_memory.md R45, which the reference responder meets: an address set
with Set DDRAM Address is read back by the Address Counter. A property of the responder, the spec's simulator
(log entry 12). -/
def Obligations.DdramAddressRoundTrip : Prop :=
  ∀ (a : Nat) (b : Bindings) (s : State) (L : Responder),
    a ≤ 0x27 ∨ (0x40 ≤ a ∧ a ≤ 0x67) →
    s.CleanEntry → s.ConfiguredWith b → s.lcd.model = .reference L →
    (s.handle.startupComplete = true → L.busy = .polls 0) →
    ∃ t u, exec (.setDisplayDataAddress a) s = .next t ∧ exec .readAddressCounter t = .next u
      ∧ u.reply = some { status := .ok, value := .address (BitVec.ofNat 7 a) }

/-- 44_text_positioning.md R94, R97, 95_test_vectors.md S4: with the entry mode at increment, an accepted
`writeAt` leaves in DDRAM the text from `pos` on, spaces in the other cells of the range it clears, and every
other cell as it was. In front of the responder, the spec's simulator (log entry 12), the call is in phase 0 or the
responder is never busy for as long as it lasts. On any controller, for every account of it that meets P1, P3 and P4 of
20_memory.md R45 and keeps its cells (log entry 33), the same holds however long the polls last, from the first write
to when the last byte has been processed; in phase 0 each access must find it not processing. Cell by cell is decision
D18. -/
def Obligations.TextLandsInItsCells : Prop :=
  ∀ (text : List Byte) (line pos cells : Nat) (b : Bindings) (s : State),
    (line = 1 ∨ line = 2) → pos ≤ 16 → text.length ≤ 16 - pos → s.CleanEntry → s.ConfiguredWith b →
    (∀ L : Responder, s.lcd.model = .reference L → s.EntryModeIncrement → L.ddram.wf ddramUnlisted = true →
      (s.handle.startupComplete = true → L.busy = .polls 0
        ∧ (writeAtWrites text line pos cells).length ≤ s.draws.busy.length
        ∧ ∀ x ∈ s.draws.busy.take (writeAtWrites text line pos cells).length, x = .polls 0) →
      ∃ t L', exec (.writeAt text line pos cells) s = .next t
        ∧ t.reply = some { status := .ok, value := .nothing } ∧ t.seq = .idle
        ∧ t.lcd.model = .reference L'
        ∧ (∀ a : Nat, L'.ddram.read ddramUnlisted a = landed text line pos cells (L.ddram.read ddramUnlisted) a)
        ∧ L'.cgram = L.cgram)
    ∧ ∀ (calls : List Call) (m : Nat) (t : State) (run : List (Seen × Transfer)) (last : Seen),
      s.calls = .op (.writeAt text line pos cells) :: calls →
      Host.Core.run core m s = .next t → t.seq = .idle → t.calls = calls →
      run.map (·.2) = s.since t → P3 run last → P4 run last → CellsStay run last → IncrementThroughout run →
      (s.handle.startupComplete = true → s.P5 ∧ P1 s.latched run last) →
      (s.handle.startupComplete = false → ∀ p ∈ run, p.1.processing = false) →
      last.processing = false →
      (∀ a : Nat, last.cell .ddram a = landed text line pos cells ((atFirstAccess run last).cell .ddram) a)
        ∧ ∀ a : Nat, last.cell .cgram a = (atFirstAccess run last).cell .cgram a

/-- 10_state.md R29 (c): the controller latches a bus width at the first Function Set it takes, the width asked
for, whether `FunctionSet` or a raw instruction write sends it (70_reset_and_hazards.md R120); no step changes a
width latched before; and nothing but these two changes the record. That later Function Sets leave it as it is, and
that one which finds the controller busy, or a raw byte of the format that no operation produces, is recorded all the
same, is log entry 26. -/
def Obligations.ControllerLatchesItsWidthOnce : Prop :=
  (∀ (s t : State) (l : BusLength), s.lcd.width = some l → (step s = .next t ∨ ∃ i, exec i s = .next t) →
      t.lcd.width = some l)
    ∧ (∀ (l : BusLength) (n : LineCount) (f : Font) (s t : State), s.handle.configured = true →
      s.lcd.width = none → exec (.functionSet l n f) s = .next t → t.seq = .idle → t.lcd.width = some l)
    ∧ (∀ (v : Byte) (s t : State), s.handle.configured = true → s.lcd.width = none →
      exec (.writeLcd .instruction v) s = .next t →
      t.lcd.width = if v.extractLsb' 5 3 = 0b001#3 then some (.ofBit (v.getLsbD 4)) else none)
    ∧ ∀ (i : Instr) (s t : State), (∀ l n f, i ≠ .functionSet l n f) → (∀ v, i ≠ .writeLcd .instruction v) →
      (exec i s = .next t ∨ ∃ k, s.seq = .at i k ∧ step s = .next t) → t.lcd.width = s.lcd.width

/-- 70_reset_and_hazards.md R116, 20_memory.md R50: a wait of the host takes at least its time, clears the
responder's busy count, and touches nothing of the block. That it clears the count is the spec's decision D24,
that the wait is the host's its decision D12 (log entry 27). -/
def Obligations.HostDelayClearsTheBusyCount : Prop :=
  ∀ (d : Nat) (calls : List Call) (s : State), s.seq = .idle → s.calls = .hostDelay d :: calls →
    ∃ t, step s = .next t ∧ t.calls = calls ∧ s.now + d ≤ t.now
      ∧ t.handle = s.handle ∧ t.pins = s.pins ∧ t.ports = s.ports ∧ t.seq = .idle ∧ t.reply = s.reply
      ∧ t.events = s.events ++ [.delay d]
      ∧ (∀ L, s.lcd.model = .reference L → t.lcd.model = .reference { L with busy := .polls 0 })
      ∧ (s.UnderOracle → t.lcd = s.lcd)

/-! ## Invariants and whole-machine rules -/

/-- Reset meets every invariant below (10_state.md R30). The values the spec leaves open at reset are log
entries 5, 11 and 13. -/
def Obligations.ResetMeetsTheInvariants : Prop :=
  State.reset.Inv ∧ State.reset.Ordered ∧ State.reset.Rested ∧ State.reset.PinsFollowTrace
    ∧ State.reset.Unconfigured ∧ State.reset.CleanEntry

/-- Every step keeps the state's own invariant, from every state that meets it. Low Enable and distinct bindings
rest on the refusals of log entries 16 to 18. -/
def Obligations.StepKeepsTheInvariant : Prop :=
  ∀ s t : State, s.Inv → step s = .next t → t.Inv

/-- 60_exceptions.md R98: from a state that meets the invariant no step faults. The one fault of the model is
log entry 15. -/
def Obligations.NothingRaisesAFault : Prop :=
  ∀ (s : State) (f : Fault), s.Inv → step s ≠ .fault f

/-- 20_memory.md R39, 40_bus_transport.md R69: time stamps rise in every run, from every state where they do.
The stamps' convention is log entry 7. -/
def Obligations.StepKeepsTimeRising : Prop :=
  ∀ s t : State, s.Ordered → step s = .next t → t.Ordered

/-- 20_memory.md R40, 40_bus_transport.md R65, R67: in every run, whatever the operations, the durations and the
controller's answers, every transfer on the bus keeps the set-up, pulse, sample and hold times and the direction
and data rules. The stamps' convention is log entry 7. -/
def Obligations.StepKeepsTheBusRules : Prop :=
  ∀ s t : State, s.Rested → step s = .next t → t.Rested

/-- 10_state.md R22, R23: the pin state is what the block last wrote to each line, in every run. -/
def Obligations.StepKeepsPinsAsWritten : Prop :=
  ∀ s t : State, s.PinsFollowTrace → step s = .next t → t.PinsFollowTrace

/-- 60_exceptions.md R103, 10_state.md R28: the status, the trace and the clock affect nothing: from two states
that differ in them alone, a step gives outcomes that differ in them alone. -/
def Obligations.GhostsAffectNothing : Prop :=
  ∀ s s' : State, s.erase = s'.erase → SameButGhosts (step s) (step s')

/-- The block runs the calls in the host's order (20_memory.md R42): idle, it takes the next one, decoding one
given by its bus word; a wider word is refused; with no call nothing happens (70_reset_and_hazards.md R113); an
operation in progress goes on from its block `k`. The stream, the call given by a word and the blocks are log
entries 1, 3 and 4. -/
def Obligations.StepRunsTheNextCall : Prop :=
  ∀ (s : State) (calls : List Call),
    (s.seq = .idle →
      (∀ i, s.calls = .op i :: calls → step s = exec i { s with calls := calls })
      ∧ (∀ w i, s.calls = .word w :: calls → decode w = .ok i → step s = exec i { s with calls := calls })
      ∧ (∀ w, s.calls = .word w :: calls → 2 ^ 10 ≤ w → step s = .refused .notABusWord)
      ∧ (s.calls = [] → step s = .next s))
    ∧ ∀ i k, s.seq = .at i k → step s = resume i (planOf i s.handle.startupComplete) k s

/-! ## A restart, a stuck flag, the end of the polls, and the premises on the controller -/

/-- 70_reset_and_hazards.md R113: after a restart of the process without a power cycle of the display, at any
moment, the controller is as it was while the handle is unconfigured and in phase 0, so that the first Function
Set goes out without a poll to a controller that may be busy and has latched its width; and with pins and ports as
the platform owes them every invariant holds. How the restart stands in the model is log entry 32, that the width
stays is log entry 26. -/
def Obligations.RestartKeepsTheController : Prop :=
  ∀ (pins : Pins) (ports : Memory) (calls : List Call) (s : State),
    let t := s.restart pins ports calls
    t.lcd = s.lcd ∧ t.Unconfigured ∧ t.seq = .idle ∧ t.pins = pins ∧ t.ports = ports ∧ t.calls = calls
    ∧ (pins.e = false → ports.wf portUnlisted = true → s.lcd.model.wf →
      t.Inv ∧ t.Ordered ∧ t.Rested ∧ t.PinsFollowTrace)
    ∧ ∀ (d : DataBus) (dir : PortName) (c : ControlLines) (l : BusLength) (n : LineCount) (f : Font),
      pins.e = false → (Instr.configure d dir c).wellFormed = true →
      ∃ u v, exec (.configure d dir c) t = .next u ∧ exec (.functionSet l n f) u = .next v
        ∧ v.events = writeEvents s.timing .instruction (functionSetTable l n f)
        ∧ v.handle.startupComplete = true ∧ v.seq = .idle
        ∧ v.lcd.width = (match s.lcd.width with | some w => some w | none => some l)

/-- 41_busy_sync.md R77, an invariant: an operation that stands at a poll, of whatever block of whatever
operation, in front of a controller that never clears its flag, stands there after every step, which is one status
read and nothing else. The blocks, and one read a step, are log entry 4. -/
def Obligations.StuckOperationStaysStuck : Prop :=
  ∀ (i : Instr) (k : Nat) (L : Responder) (s : State), s.StuckAt i k L →
    ∃ t, step s = .next t ∧ t.StuckAt i k L
      ∧ t.events = s.events ++ readEvents s.timing .instruction (1#1 ++ L.ac)
      ∧ t.handle = s.handle ∧ t.calls = s.calls ∧ t.reply = none ∧ t.pins.dbOut = s.pins.dbOut

/-- 41_busy_sync.md R75, R77, 20_memory.md R45, 70_reset_and_hazards.md R119: where every poll loop sees bit 7 = 0
after finitely many reads (`BusyFalls`), whatever the controller, every program ends or is stopped by name by something
else than a poll; and one operation that polls ends so if its own polls do, a paced write after exactly the status reads
its polls need and its own writes. Then premises that suffice for one operation: on the bytes the bus is going to carry
under the oracle, on the busy counts in front of the responder. That `ReadDataReg` is paced is the spec's decision D13;
the steps are log entry 4, the responder log entry 12, the premises log entry 33. -/
def Obligations.OperationsEndWhenTheFlagFalls : Prop :=
  (∀ s : State, s.Inv → s.BusyFalls →
    ∃ n : Nat, (∃ t : State, Host.Core.run core n s = .next t ∧ t.seq = .idle ∧ t.calls = [])
      ∨ ∃ r ∈ [Refusal.configuredTwice, .overlappingBindings, .responderHasNoMeaning, .responderGapAddress, .notABusWord],
        Host.Core.run core n s = .refused r)
  ∧ (∀ (i : Instr) (b : Bindings) (s : State) (calls : List Call),
    ((pacedWrites i).isSome ∨ i = .readDataReg ∨ i = .waitNotBusy) →
    s.CleanEntry → s.ConfiguredWith b → s.calls = .op i :: calls → s.BusyFallsUntil calls.length →
    ∃ n : Nat,
      (∃ (t : State) (v : Value), Host.Core.run core n s = .next t ∧ t.seq = .idle ∧ t.calls = calls
        ∧ t.reply = some { status := .ok, value := v }
        ∧ ∀ ws, pacedWrites i = some ws → v = .nothing ∧ t.pins = pinsAfter s.pins ws
          ∧ ∃ sensed, (s.handle.startupComplete = true → PollsEnd ws.length sensed)
            ∧ t.events = s.events ++ polledEvents s.timing s.handle.startupComplete ws sensed)
      ∨ Host.Core.run core n s = .refused .responderHasNoMeaning
      ∨ Host.Core.run core n s = .refused .responderGapAddress)
  ∧ (∀ (i : Instr) (ws : List (Register × Byte)) (b : Bindings) (s : State) (calls : List Call),
    pacedWrites i = some ws → s.CleanEntry → s.ConfiguredWith b → s.UnderOracle → s.calls = .op i :: calls →
    (s.handle.startupComplete = true → PollsEnd ws.length s.draws.senses) →
    ∃ (n : Nat) (t : State), Host.Core.run core n s = .next t
      ∧ t.seq = .idle ∧ t.reply = some { status := .ok, value := .nothing } ∧ t.calls = calls
      ∧ t.events = s.events ++ polledEvents s.timing s.handle.startupComplete ws s.draws.senses
      ∧ t.pins = pinsAfter s.pins ws)
  ∧ (∀ (b : Bindings) (s : State) (calls : List Call) (busy : List Byte) (sb v : Byte) (rest : List Byte),
    s.CleanEntry → s.ConfiguredWith b → s.UnderOracle → s.ConfiguredIn true → s.calls = .op .readDataReg :: calls →
    s.draws.senses = busy ++ sb :: v :: rest → (∀ x ∈ busy, busyFlag x = true) → busyFlag sb = false →
    ∃ (n : Nat) (t : State), Host.Core.run core n s = .next t
      ∧ t.seq = .idle ∧ t.reply = some { status := .ok, value := .byte v } ∧ t.calls = calls
      ∧ t.events = s.events ++ (busy ++ [sb]).flatMap (readEvents s.timing .instruction)
          ++ readEvents s.timing .data v
      ∧ t.pins = idleAfterRead .data s.pins)
  ∧ ∀ (i : Instr) (b : Bindings) (s : State) (L : Responder) (calls : List Call),
    ((pacedWrites i).isSome ∨ i = .readDataReg ∨ i = .waitNotBusy) →
    s.CleanEntry → s.ConfiguredWith b → s.lcd.model = .reference L → s.calls = .op i :: calls →
    (s.handle.startupComplete = true ∨ i = .waitNotBusy → s.CountsFall (pollCount i)) →
    ∃ n : Nat,
      (∃ t : State, Host.Core.run core n s = .next t ∧ t.seq = .idle ∧ t.calls = calls
        ∧ ∃ v, t.reply = some { status := .ok, value := v })
      ∨ Host.Core.run core n s = .refused .responderHasNoMeaning
      ∨ Host.Core.run core n s = .refused .responderGapAddress

/-- 20_memory.md R45, 70_reset_and_hazards.md R119: what the premises P1 to P3 give a program, on any controller, for
every account of it that meets them: `IsBusy` tells whether it is processing, `ReadAddressCounter` gives the Address
Counter, and an address set is read back once the controller has been seen not busy (93_implementation_defined.md
U15), also where setting it waited at its poll. And the reference responder meets P1 to P4 in every run (20_memory.md
section 5), however far and from whatever state, the account being the responder itself at each transfer. What each premise is in the model is log entry 33, the
responder is log entry 12, one read a step is log entry 4. -/
def Obligations.ControllerPremisesAreMet : Prop :=
  (∀ (b : Bindings) (s : State), s.CleanEntry → s.ConfiguredWith b → s.P5 →
    (∃ t, exec .isBusy s = .next t ∧ ∀ run last, run.map (·.2) = s.since t → P1 s.latched run last →
      t.reply = some { status := .ok, value := .bit (nowSeen run last).processing })
    ∧ (∃ t, exec .readAddressCounter s = .next t ∧ ∀ run last, run.map (·.2) = s.since t → P2 s.latched run →
      t.reply = some { status := .ok, value := .address (nowSeen run last).ac })
    ∧ ∀ (n m : Nat) (t : State) (run : List (Seen × Transfer)) (last : Seen),
      inLineRange (BitVec.ofNat 7 n) = true →
      s.calls = [.op (.setDisplayDataAddress n), .op .waitNotBusy, .op .readAddressCounter] →
      Host.Core.run core m s = .next t → t.calls = [] → t.seq = .idle →
      run.map (·.2) = s.since t → P1 s.latched run last → P2 s.latched run → P3 run last →
      (s.handle.startupComplete = false → (nowSeen run last).processing = false) →
      t.reply = some { status := .ok, value := .address (BitVec.ofNat 7 n) })
  ∧ ∀ (s t : State) (L : Responder) (n : Nat) (latched : Bool), s.lcd.model = .reference L →
    L.ddram.wf ddramUnlisted = true → L.cgram.wf cgramUnlisted = true → Host.Core.run core n s = .next t →
    t.ConformsSince s.events.length L latched
end

