-- ==== Sys2Proof/Laws/Memory.lean ====
section
/-! SUPPORT. The laws of byte memories: read after write, and the canonical form. -/

namespace Sys2Proof.Machine

theorem Memory.read_below (blank : Byte) :
    ∀ (m : Memory) (lo a : Nat), Memory.wfFrom blank lo m = true → a < lo → m.read blank a = blank
  | [], _, _, _, _ => rfl
  | (k, v) :: m, lo, a, h, ha => by
    simp only [Memory.wfFrom, Bool.and_eq_true, decide_eq_true_eq] at h
    have hk : a ≠ k := by omega
    simp only [Memory.read, hk, if_false]
    exact Memory.read_below blank m (k + 1) a h.2 (by omega)

theorem Memory.wfFrom_mono (blank : Byte) :
    ∀ (m : Memory) (lo lo' : Nat), lo' ≤ lo → Memory.wfFrom blank lo m = true → Memory.wfFrom blank lo' m = true
  | [], _, _, _, _ => rfl
  | (k, v) :: m, lo, lo', hle, h => by
    simp only [Memory.wfFrom, Bool.and_eq_true, decide_eq_true_eq] at h ⊢
    exact ⟨⟨by omega, h.1.2⟩, h.2⟩

/-- A read of the address just written gives the byte written, in a memory in canonical form. -/
theorem Memory.read_write_self (blank : Byte) (a : Nat) (v : Byte) :
    ∀ (m : Memory) (lo : Nat), Memory.wfFrom blank lo m = true → (m.write blank a v).read blank a = v
  | [], _, _ => by
    by_cases h : v = blank <;> simp [Memory.write, Memory.read, h]
  | (k, u) :: m, lo, hm => by
    simp only [Memory.wfFrom, Bool.and_eq_true, decide_eq_true_eq] at hm
    unfold Memory.write
    split
    · next h =>
      split
      · next hv =>
        have hk : a ≠ k := by omega
        simp only [Memory.read, hk, if_false, hv]
        exact Memory.read_below blank m (k + 1) a hm.2 (by omega)
      · simp [Memory.read]
    · split
      · next hk =>
        split
        · next hv =>
          rw [hv]
          exact Memory.read_below blank m (k + 1) a hm.2 (by omega)
        · simp [Memory.read]
      · next hk =>
        simp only [Memory.read, hk, if_false]
        exact Memory.read_write_self blank a v m (k + 1) hm.2

/-- A write leaves every other address alone. -/
theorem Memory.read_write_other (blank : Byte) (a c : Nat) (v : Byte) (hc : c ≠ a) :
    ∀ (m : Memory), (m.write blank a v).read blank c = m.read blank c
  | [] => by
    by_cases h : v = blank <;> simp [Memory.write, Memory.read, h, hc]
  | (k, u) :: m => by
    unfold Memory.write
    split
    · split
      · rfl
      · simp [Memory.read, hc]
    · split
      · next hk =>
        subst hk
        split <;> simp [Memory.read, hc]
      · simp only [Memory.read]
        split
        · rfl
        · exact Memory.read_write_other blank a c v hc m

theorem Memory.write_wfFrom (blank : Byte) (a : Nat) (v : Byte) :
    ∀ (m : Memory) (lo : Nat), Memory.wfFrom blank lo m = true → lo ≤ a →
      Memory.wfFrom blank lo (m.write blank a v) = true
  | [], lo, _, ha => by
    by_cases h : v = blank <;> simp [Memory.write, Memory.wfFrom, h, ha]
  | (k, u) :: m, lo, hm, ha => by
    simp only [Memory.wfFrom, Bool.and_eq_true, decide_eq_true_eq] at hm
    unfold Memory.write
    split
    · split
      · simp [Memory.wfFrom, hm]
      · next hlt hv =>
        simp only [Memory.wfFrom, Bool.and_eq_true, decide_eq_true_eq]
        exact ⟨⟨ha, hv⟩, ⟨by omega, hm.1.2⟩, hm.2⟩
    · split
      · next hk =>
        split
        · exact Memory.wfFrom_mono blank m (k + 1) lo (by omega) hm.2
        · next hv =>
          simp only [Memory.wfFrom, Bool.and_eq_true, decide_eq_true_eq]
          subst hk
          exact ⟨⟨ha, hv⟩, hm.2⟩
      · next h1 h2 =>
        simp only [Memory.wfFrom, Bool.and_eq_true, decide_eq_true_eq]
        exact ⟨hm.1, Memory.write_wfFrom blank a v m (k + 1) hm.2 (by omega)⟩

/-- Every write keeps the canonical form. -/
theorem Memory.write_wf (blank : Byte) (m : Memory) (a : Nat) (v : Byte) (hm : m.wf blank = true) :
    (m.write blank a v).wf blank = true :=
  Memory.write_wfFrom blank a v m 0 hm (Nat.zero_le a)

end Sys2Proof.Machine
end

