-- ==== Sys2Proof/Laws/State.lean ====
section
/-! SUPPORT. One lemma per field per update of State, true by rfl. -/

namespace Sys2Proof.Machine

@[simp] theorem elapse_handle (t : Nat) (ev : Event) (s : State) :
    (s.elapse t ev).handle = s.handle := rfl

@[simp] theorem elapse_pins (t : Nat) (ev : Event) (s : State) :
    (s.elapse t ev).pins = s.pins := rfl

@[simp] theorem elapse_seq (t : Nat) (ev : Event) (s : State) :
    (s.elapse t ev).seq = s.seq := rfl

@[simp] theorem elapse_now (t : Nat) (ev : Event) (s : State) :
    (s.elapse t ev).now = s.now + (t + s.draws.extra) := rfl

@[simp] theorem elapse_timing (t : Nat) (ev : Event) (s : State) :
    (s.elapse t ev).timing = s.timing := rfl

@[simp] theorem elapse_ports (t : Nat) (ev : Event) (s : State) :
    (s.elapse t ev).ports = s.ports := rfl

@[simp] theorem elapse_trace (t : Nat) (ev : Event) (s : State) :
    (s.elapse t ev).trace = s.trace ++ [{ event := ev, start := s.now, stop := s.now + (t + s.draws.extra) }] := rfl

@[simp] theorem elapse_reply (t : Nat) (ev : Event) (s : State) :
    (s.elapse t ev).reply = s.reply := rfl

@[simp] theorem elapse_calls (t : Nat) (ev : Event) (s : State) :
    (s.elapse t ev).calls = s.calls := rfl

@[simp] theorem elapse_lcd (t : Nat) (ev : Event) (s : State) :
    (s.elapse t ev).lcd = s.lcd := rfl

@[simp] theorem elapse_draws (t : Nat) (ev : Event) (s : State) :
    (s.elapse t ev).draws = s.draws.dropExtra := rfl

@[simp] theorem writePort_handle (p : PortName) (v : Byte) (s : State) :
    (s.writePort p v).handle = s.handle := rfl

@[simp] theorem writePort_pins (p : PortName) (v : Byte) (s : State) :
    (s.writePort p v).pins = s.pins := rfl

@[simp] theorem writePort_seq (p : PortName) (v : Byte) (s : State) :
    (s.writePort p v).seq = s.seq := rfl

@[simp] theorem writePort_now (p : PortName) (v : Byte) (s : State) :
    (s.writePort p v).now = s.now := rfl

@[simp] theorem writePort_timing (p : PortName) (v : Byte) (s : State) :
    (s.writePort p v).timing = s.timing := rfl

@[simp] theorem writePort_ports (p : PortName) (v : Byte) (s : State) :
    (s.writePort p v).ports = s.ports.write portUnlisted p v := rfl

@[simp] theorem writePort_trace (p : PortName) (v : Byte) (s : State) :
    (s.writePort p v).trace = s.trace := rfl

@[simp] theorem writePort_reply (p : PortName) (v : Byte) (s : State) :
    (s.writePort p v).reply = s.reply := rfl

@[simp] theorem writePort_calls (p : PortName) (v : Byte) (s : State) :
    (s.writePort p v).calls = s.calls := rfl

@[simp] theorem writePort_lcd (p : PortName) (v : Byte) (s : State) :
    (s.writePort p v).lcd = s.lcd := rfl

@[simp] theorem writePort_draws (p : PortName) (v : Byte) (s : State) :
    (s.writePort p v).draws = s.draws := rfl

@[simp] theorem putPin_handle (p : PinHandle) (v : Bool) (s : State) :
    (s.putPin p v).handle = s.handle := rfl

@[simp] theorem putPin_pins (p : PinHandle) (v : Bool) (s : State) :
    (s.putPin p v).pins = s.pins := rfl

@[simp] theorem putPin_seq (p : PinHandle) (v : Bool) (s : State) :
    (s.putPin p v).seq = s.seq := rfl

@[simp] theorem putPin_now (p : PinHandle) (v : Bool) (s : State) :
    (s.putPin p v).now = s.now := rfl

@[simp] theorem putPin_timing (p : PinHandle) (v : Bool) (s : State) :
    (s.putPin p v).timing = s.timing := rfl

@[simp] theorem putPin_ports (p : PinHandle) (v : Bool) (s : State) :
    (s.putPin p v).ports = s.ports.write portUnlisted p.port (putBit (s.ports.read portUnlisted p.port) p.bit v) := rfl

@[simp] theorem putPin_trace (p : PinHandle) (v : Bool) (s : State) :
    (s.putPin p v).trace = s.trace := rfl

@[simp] theorem putPin_reply (p : PinHandle) (v : Bool) (s : State) :
    (s.putPin p v).reply = s.reply := rfl

@[simp] theorem putPin_calls (p : PinHandle) (v : Bool) (s : State) :
    (s.putPin p v).calls = s.calls := rfl

@[simp] theorem putPin_lcd (p : PinHandle) (v : Bool) (s : State) :
    (s.putPin p v).lcd = s.lcd := rfl

@[simp] theorem putPin_draws (p : PinHandle) (v : Bool) (s : State) :
    (s.putPin p v).draws = s.draws := rfl

@[simp] theorem finish_handle (v : Value) (s : State) :
    (s.finish v).handle = s.handle := rfl

@[simp] theorem finish_pins (v : Value) (s : State) :
    (s.finish v).pins = s.pins := rfl

@[simp] theorem finish_seq (v : Value) (s : State) :
    (s.finish v).seq = .idle := rfl

@[simp] theorem finish_now (v : Value) (s : State) :
    (s.finish v).now = s.now := rfl

@[simp] theorem finish_timing (v : Value) (s : State) :
    (s.finish v).timing = s.timing := rfl

@[simp] theorem finish_ports (v : Value) (s : State) :
    (s.finish v).ports = s.ports := rfl

@[simp] theorem finish_trace (v : Value) (s : State) :
    (s.finish v).trace = s.trace := rfl

@[simp] theorem finish_reply (v : Value) (s : State) :
    (s.finish v).reply = some { status := .ok, value := v } := rfl

@[simp] theorem finish_calls (v : Value) (s : State) :
    (s.finish v).calls = s.calls := rfl

@[simp] theorem finish_lcd (v : Value) (s : State) :
    (s.finish v).lcd = s.lcd := rfl

@[simp] theorem finish_draws (v : Value) (s : State) :
    (s.finish v).draws = s.draws := rfl

@[simp] theorem reject_handle (st : Status) (x : Extract) (s : State) :
    (s.reject st x).handle = s.handle := rfl

@[simp] theorem reject_pins (st : Status) (x : Extract) (s : State) :
    (s.reject st x).pins = s.pins := rfl

@[simp] theorem reject_seq (st : Status) (x : Extract) (s : State) :
    (s.reject st x).seq = .idle := rfl

@[simp] theorem reject_now (st : Status) (x : Extract) (s : State) :
    (s.reject st x).now = s.now := rfl

@[simp] theorem reject_timing (st : Status) (x : Extract) (s : State) :
    (s.reject st x).timing = s.timing := rfl

@[simp] theorem reject_ports (st : Status) (x : Extract) (s : State) :
    (s.reject st x).ports = s.ports := rfl

@[simp] theorem reject_trace (st : Status) (x : Extract) (s : State) :
    (s.reject st x).trace = s.trace := rfl

@[simp] theorem reject_reply (st : Status) (x : Extract) (s : State) :
    (s.reject st x).reply = some { status := st, value := x.value 0 } := rfl

@[simp] theorem reject_calls (st : Status) (x : Extract) (s : State) :
    (s.reject st x).calls = s.calls := rfl

@[simp] theorem reject_lcd (st : Status) (x : Extract) (s : State) :
    (s.reject st x).lcd = s.lcd := rfl

@[simp] theorem reject_draws (st : Status) (x : Extract) (s : State) :
    (s.reject st x).draws = s.draws := rfl

@[simp] theorem driveRs_handle (b : Bindings) (v : Bool) (s : State) :
    (s.driveRs b v).handle = s.handle := rfl

@[simp] theorem driveRs_pins (b : Bindings) (v : Bool) (s : State) :
    (s.driveRs b v).pins = { s.pins with rs := v } := rfl

@[simp] theorem driveRs_seq (b : Bindings) (v : Bool) (s : State) :
    (s.driveRs b v).seq = s.seq := rfl

@[simp] theorem driveRs_now (b : Bindings) (v : Bool) (s : State) :
    (s.driveRs b v).now = s.now + (0 + s.draws.extra) := rfl

@[simp] theorem driveRs_timing (b : Bindings) (v : Bool) (s : State) :
    (s.driveRs b v).timing = s.timing := rfl

@[simp] theorem driveRs_ports (b : Bindings) (v : Bool) (s : State) :
    (s.driveRs b v).ports = s.ports.write portUnlisted b.rs.port (putBit (s.ports.read portUnlisted b.rs.port) b.rs.bit v) := rfl

@[simp] theorem driveRs_trace (b : Bindings) (v : Bool) (s : State) :
    (s.driveRs b v).trace = s.trace ++ [{ event := .rs v, start := s.now, stop := s.now + (0 + s.draws.extra) }] := rfl

@[simp] theorem driveRs_reply (b : Bindings) (v : Bool) (s : State) :
    (s.driveRs b v).reply = s.reply := rfl

@[simp] theorem driveRs_calls (b : Bindings) (v : Bool) (s : State) :
    (s.driveRs b v).calls = s.calls := rfl

@[simp] theorem driveRs_lcd (b : Bindings) (v : Bool) (s : State) :
    (s.driveRs b v).lcd = s.lcd := rfl

@[simp] theorem driveRs_draws (b : Bindings) (v : Bool) (s : State) :
    (s.driveRs b v).draws = s.draws.dropExtra := rfl

@[simp] theorem driveRw_handle (b : Bindings) (v : Bool) (s : State) :
    (s.driveRw b v).handle = s.handle := rfl

@[simp] theorem driveRw_pins (b : Bindings) (v : Bool) (s : State) :
    (s.driveRw b v).pins = { s.pins with rw := v } := rfl

@[simp] theorem driveRw_seq (b : Bindings) (v : Bool) (s : State) :
    (s.driveRw b v).seq = s.seq := rfl

@[simp] theorem driveRw_now (b : Bindings) (v : Bool) (s : State) :
    (s.driveRw b v).now = s.now + (0 + s.draws.extra) := rfl

@[simp] theorem driveRw_timing (b : Bindings) (v : Bool) (s : State) :
    (s.driveRw b v).timing = s.timing := rfl

@[simp] theorem driveRw_ports (b : Bindings) (v : Bool) (s : State) :
    (s.driveRw b v).ports = s.ports.write portUnlisted b.rw.port (putBit (s.ports.read portUnlisted b.rw.port) b.rw.bit v) := rfl

@[simp] theorem driveRw_trace (b : Bindings) (v : Bool) (s : State) :
    (s.driveRw b v).trace = s.trace ++ [{ event := .rw v, start := s.now, stop := s.now + (0 + s.draws.extra) }] := rfl

@[simp] theorem driveRw_reply (b : Bindings) (v : Bool) (s : State) :
    (s.driveRw b v).reply = s.reply := rfl

@[simp] theorem driveRw_calls (b : Bindings) (v : Bool) (s : State) :
    (s.driveRw b v).calls = s.calls := rfl

@[simp] theorem driveRw_lcd (b : Bindings) (v : Bool) (s : State) :
    (s.driveRw b v).lcd = s.lcd := rfl

@[simp] theorem driveRw_draws (b : Bindings) (v : Bool) (s : State) :
    (s.driveRw b v).draws = s.draws.dropExtra := rfl

@[simp] theorem driveE_handle (b : Bindings) (v : Bool) (s : State) :
    (s.driveE b v).handle = s.handle := rfl

@[simp] theorem driveE_pins (b : Bindings) (v : Bool) (s : State) :
    (s.driveE b v).pins = { s.pins with e := v } := rfl

@[simp] theorem driveE_seq (b : Bindings) (v : Bool) (s : State) :
    (s.driveE b v).seq = s.seq := rfl

@[simp] theorem driveE_now (b : Bindings) (v : Bool) (s : State) :
    (s.driveE b v).now = s.now + (0 + s.draws.extra) := rfl

@[simp] theorem driveE_timing (b : Bindings) (v : Bool) (s : State) :
    (s.driveE b v).timing = s.timing := rfl

@[simp] theorem driveE_ports (b : Bindings) (v : Bool) (s : State) :
    (s.driveE b v).ports = s.ports.write portUnlisted b.en.port (putBit (s.ports.read portUnlisted b.en.port) b.en.bit v) := rfl

@[simp] theorem driveE_trace (b : Bindings) (v : Bool) (s : State) :
    (s.driveE b v).trace = s.trace ++ [{ event := .e v, start := s.now, stop := s.now + (0 + s.draws.extra) }] := rfl

@[simp] theorem driveE_reply (b : Bindings) (v : Bool) (s : State) :
    (s.driveE b v).reply = s.reply := rfl

@[simp] theorem driveE_calls (b : Bindings) (v : Bool) (s : State) :
    (s.driveE b v).calls = s.calls := rfl

@[simp] theorem driveE_lcd (b : Bindings) (v : Bool) (s : State) :
    (s.driveE b v).lcd = s.lcd := rfl

@[simp] theorem driveE_draws (b : Bindings) (v : Bool) (s : State) :
    (s.driveE b v).draws = s.draws.dropExtra := rfl

@[simp] theorem driveDir_handle (b : Bindings) (d : Dir) (s : State) :
    (s.driveDir b d).handle = s.handle := rfl

@[simp] theorem driveDir_pins (b : Bindings) (d : Dir) (s : State) :
    (s.driveDir b d).pins = { s.pins with dir := d } := rfl

@[simp] theorem driveDir_seq (b : Bindings) (d : Dir) (s : State) :
    (s.driveDir b d).seq = s.seq := rfl

@[simp] theorem driveDir_now (b : Bindings) (d : Dir) (s : State) :
    (s.driveDir b d).now = s.now + (0 + s.draws.extra) := rfl

@[simp] theorem driveDir_timing (b : Bindings) (d : Dir) (s : State) :
    (s.driveDir b d).timing = s.timing := rfl

@[simp] theorem driveDir_ports (b : Bindings) (d : Dir) (s : State) :
    (s.driveDir b d).ports = s.ports.write portUnlisted b.bus.dir (Config.directionValue d) := rfl

@[simp] theorem driveDir_trace (b : Bindings) (d : Dir) (s : State) :
    (s.driveDir b d).trace = s.trace ++ [{ event := .dir d, start := s.now, stop := s.now + (0 + s.draws.extra) }] := rfl

@[simp] theorem driveDir_reply (b : Bindings) (d : Dir) (s : State) :
    (s.driveDir b d).reply = s.reply := rfl

@[simp] theorem driveDir_calls (b : Bindings) (d : Dir) (s : State) :
    (s.driveDir b d).calls = s.calls := rfl

@[simp] theorem driveDir_lcd (b : Bindings) (d : Dir) (s : State) :
    (s.driveDir b d).lcd = s.lcd := rfl

@[simp] theorem driveDir_draws (b : Bindings) (d : Dir) (s : State) :
    (s.driveDir b d).draws = s.draws.dropExtra := rfl

@[simp] theorem driveOut_handle (b : Bindings) (v : Byte) (s : State) :
    (s.driveOut b v).handle = s.handle := rfl

@[simp] theorem driveOut_pins (b : Bindings) (v : Byte) (s : State) :
    (s.driveOut b v).pins = { s.pins with dbOut := v } := rfl

@[simp] theorem driveOut_seq (b : Bindings) (v : Byte) (s : State) :
    (s.driveOut b v).seq = s.seq := rfl

@[simp] theorem driveOut_now (b : Bindings) (v : Byte) (s : State) :
    (s.driveOut b v).now = s.now + (0 + s.draws.extra) := rfl

@[simp] theorem driveOut_timing (b : Bindings) (v : Byte) (s : State) :
    (s.driveOut b v).timing = s.timing := rfl

@[simp] theorem driveOut_ports (b : Bindings) (v : Byte) (s : State) :
    (s.driveOut b v).ports = s.ports.write portUnlisted b.bus.out v := rfl

@[simp] theorem driveOut_trace (b : Bindings) (v : Byte) (s : State) :
    (s.driveOut b v).trace = s.trace ++ [{ event := .out v, start := s.now, stop := s.now + (0 + s.draws.extra) }] := rfl

@[simp] theorem driveOut_reply (b : Bindings) (v : Byte) (s : State) :
    (s.driveOut b v).reply = s.reply := rfl

@[simp] theorem driveOut_calls (b : Bindings) (v : Byte) (s : State) :
    (s.driveOut b v).calls = s.calls := rfl

@[simp] theorem driveOut_lcd (b : Bindings) (v : Byte) (s : State) :
    (s.driveOut b v).lcd = s.lcd := rfl

@[simp] theorem driveOut_draws (b : Bindings) (v : Byte) (s : State) :
    (s.driveOut b v).draws = s.draws.dropExtra := rfl

@[simp] theorem restart_handle (pins : Pins) (ports : Memory) (calls : List Call) (s : State) :
    (s.restart pins ports calls).handle = { configured := false, startupComplete := false, bindings := none } := rfl

@[simp] theorem restart_pins (pins : Pins) (ports : Memory) (calls : List Call) (s : State) :
    (s.restart pins ports calls).pins = pins := rfl

@[simp] theorem restart_seq (pins : Pins) (ports : Memory) (calls : List Call) (s : State) :
    (s.restart pins ports calls).seq = .idle := rfl

@[simp] theorem restart_now (pins : Pins) (ports : Memory) (calls : List Call) (s : State) :
    (s.restart pins ports calls).now = 0 := rfl

@[simp] theorem restart_timing (pins : Pins) (ports : Memory) (calls : List Call) (s : State) :
    (s.restart pins ports calls).timing = s.timing := rfl

@[simp] theorem restart_ports (pins : Pins) (ports : Memory) (calls : List Call) (s : State) :
    (s.restart pins ports calls).ports = ports := rfl

@[simp] theorem restart_trace (pins : Pins) (ports : Memory) (calls : List Call) (s : State) :
    (s.restart pins ports calls).trace = [] := rfl

@[simp] theorem restart_reply (pins : Pins) (ports : Memory) (calls : List Call) (s : State) :
    (s.restart pins ports calls).reply = none := rfl

@[simp] theorem restart_calls (pins : Pins) (ports : Memory) (calls : List Call) (s : State) :
    (s.restart pins ports calls).calls = calls := rfl

@[simp] theorem restart_lcd (pins : Pins) (ports : Memory) (calls : List Call) (s : State) :
    (s.restart pins ports calls).lcd = s.lcd := rfl

@[simp] theorem restart_draws (pins : Pins) (ports : Memory) (calls : List Call) (s : State) :
    (s.restart pins ports calls).draws = s.draws := rfl

end Sys2Proof.Machine
end

