-- ==== Sys2Proof/Laws/Ops.lean ====
section
/-! SUPPORT. What each shared operation can do, said once: draws, the controller's edges, a micro-step, the two transfers, running blocks, one step. -/

namespace Sys2Proof.Machine

/-! ## Draws: each takes from its own list -/

@[simp] theorem dropExtra_senses (d : Draws) : d.dropExtra.senses = d.senses := by
  unfold Draws.dropExtra; split <;> rfl

@[simp] theorem dropExtra_busy (d : Draws) : d.dropExtra.busy = d.busy := by
  unfold Draws.dropExtra; split <;> rfl

@[simp] theorem dropBusy_senses (d : Draws) : d.dropBusy.senses = d.senses := by
  unfold Draws.dropBusy; split <;> rfl

@[simp] theorem dropSensed_busy (d : Draws) : d.dropSensed.busy = d.busy := by
  unfold Draws.dropSensed; split <;> rfl

theorem sensed_of_cons {d : Draws} {b : Byte} {bs : List Byte} (h : d.senses = b :: bs) : d.sensed = b := by
  simp [Draws.sensed, h]

theorem dropSensed_of_cons {d : Draws} {b : Byte} {bs : List Byte} (h : d.senses = b :: bs) :
    d.dropSensed.senses = bs := by
  simp [Draws.dropSensed, h]

theorem nextBusy_of_cons {d : Draws} {x : Busy} {xs : List Busy} (h : d.busy = x :: xs) : d.nextBusy = x := by
  simp [Draws.nextBusy, h]

theorem dropBusy_of_cons {d : Draws} {x : Busy} {xs : List Busy} (h : d.busy = x :: xs) :
    d.dropBusy.busy = xs := by
  simp [Draws.dropBusy, h]

/-! ## Events -/

theorem events_append {s t : State} {l : List Stamped} (h : t.trace = s.trace ++ l) :
    t.events = s.events ++ l.map (·.event) := by
  simp [State.events, h]

/-! ## The controller's two edges -/

/-- Taking a byte changes the controller and the draws alone. -/
theorem lcdTakes_cases {rs : Bool} {v : Byte} {s t : State} (h : s.lcdTakes rs v = .next t) :
    (s.lcd.model = .oracle ∧ t = { s with lcd := { width := latchWidth s.lcd.width rs v, model := .oracle } })
    ∨ ∃ L L', s.lcd.model = .reference L ∧ L.accept rs v s.draws.nextBusy = .ok L'
      ∧ t = { s with
              lcd := { width := latchWidth s.lcd.width rs v, model := .reference L' }
              draws := s.draws.dropBusy } := by
  unfold State.lcdTakes at h
  cases hm : s.lcd.model with
  | oracle =>
    simp only [hm] at h
    injection h with h
    exact .inl ⟨rfl, h.symm⟩
  | reference L =>
    simp only [hm] at h
    split at h
    · next L' hL =>
      injection h with h
      exact .inr ⟨L, L', rfl, hL, h.symm⟩
    · cases h

/-- Supplying a byte changes the controller's model and the draws alone. -/
theorem lcdSupplies_cases {rs : Bool} {s t : State} {v : Byte} (h : s.lcdSupplies rs = .next (v, t)) :
    (s.lcd.model = .oracle ∧ v = s.draws.sensed ∧ t = { s with draws := s.draws.dropSensed })
    ∨ (∃ L, s.lcd.model = .reference L ∧ rs = false ∧ v = L.statusByte
      ∧ t = { s with lcd := { s.lcd with model := .reference L.afterStatus } })
    ∨ ∃ L L', s.lcd.model = .reference L ∧ rs = true ∧ L.supply s.draws.nextBusy = .ok (v, L')
      ∧ t = { s with lcd := { s.lcd with model := .reference L' }, draws := s.draws.dropBusy } := by
  unfold State.lcdSupplies at h
  cases hm : s.lcd.model with
  | oracle =>
    simp only [hm] at h
    injection h with h
    injection h with h1 h2
    exact .inl ⟨rfl, h1.symm, h2.symm⟩
  | reference L =>
    simp only [hm] at h
    cases rs with
    | false =>
      simp only [Bool.false_eq_true, if_false] at h
      injection h with h
      injection h with h1 h2
      exact .inr (.inl ⟨L, rfl, rfl, h1.symm, h2.symm⟩)
    | true =>
      simp only [if_true] at h
      split at h
      · next w L' hL =>
        injection h with h
        injection h with h1 h2
        subst h1
        exact .inr (.inr ⟨L, L', rfl, rfl, hL, h2.symm⟩)
      · cases h

/-- Neither edge ever faults. -/
theorem lcdTakes_not_fault (rs : Bool) (v : Byte) (s : State) (f : Fault) : s.lcdTakes rs v ≠ .fault f := by
  unfold State.lcdTakes
  dsimp only
  split
  · exact fun h => by cases h
  · split <;> exact fun h => by cases h

theorem lcdSupplies_not_fault (rs : Bool) (s : State) (f : Fault) : s.lcdSupplies rs ≠ .fault f := by
  unfold State.lcdSupplies
  split
  · exact fun h => by cases h
  · split
    · split <;> exact fun h => by cases h
    · exact fun h => by cases h

/-! ## Micro-steps -/

theorem dropEnable_cases {b : Bindings} {s t : State} (h : s.dropEnable b = .next t) :
    t = s.driveE b false
    ∨ (s.pins.e = true ∧ s.pins.rw = false ∧ (s.driveE b false).lcdTakes s.pins.rs s.pins.dbOut = .next t) := by
  unfold State.dropEnable at h
  split at h
  · next hc => exact .inr ⟨hc.1, by simpa using hc.2, h⟩
  · injection h with h
    exact .inl h.symm

/-- Everything a micro-step can do. -/
theorem microStep_cases {b : Bindings} {m : Micro} {sb sb' : Byte} {s t : State}
    (h : microStep b m sb s = .next (sb', t)) :
    (∃ v, m = .rs v ∧ s.pins.e = false ∧ sb' = sb ∧ t = s.driveRs b v)
    ∨ (∃ v, m = .rw v ∧ sb' = sb ∧ t = s.driveRw b v)
    ∨ (m = .e true ∧ sb' = sb ∧ t = s.driveE b true)
    ∨ (m = .e false ∧ sb' = sb ∧ s.dropEnable b = .next t)
    ∨ (∃ d, m = .dir d ∧ sb' = sb ∧ t = s.driveDir b d)
    ∨ (∃ v, m = .out v ∧ sb' = sb ∧ t = s.driveOut b v)
    ∨ (m = .sample ∧ ∃ u, s.lcdSupplies s.pins.rs = .next (sb', u) ∧ t = u.elapse 0 (.input sb'))
    ∨ (∃ d, m = .delay d ∧ sb' = sb ∧ t = s.elapse d (.delay d))
    ∨ (m = .setStartup ∧ sb' = sb ∧ t = { s with handle := { s.handle with startupComplete := true } }) := by
  cases m with
  | rs v =>
    simp only [microStep] at h
    split at h
    · cases h
    · next he =>
      injection h with h
      injection h with h1 h2
      exact .inl ⟨v, rfl, by simpa using he, h1.symm, h2.symm⟩
  | rw v =>
    injection h with h
    injection h with h1 h2
    exact .inr (.inl ⟨v, rfl, h1.symm, h2.symm⟩)
  | e v =>
    cases v with
    | true =>
      injection h with h
      injection h with h1 h2
      exact .inr (.inr (.inl ⟨rfl, h1.symm, h2.symm⟩))
    | false =>
      simp only [microStep] at h
      split at h
      · next u hu =>
        injection h with h
        injection h with h1 h2
        subst h2
        exact .inr (.inr (.inr (.inl ⟨rfl, h1.symm, hu⟩)))
      · cases h
      · cases h
  | dir d =>
    injection h with h
    injection h with h1 h2
    exact .inr (.inr (.inr (.inr (.inl ⟨d, rfl, h1.symm, h2.symm⟩))))
  | out v =>
    injection h with h
    injection h with h1 h2
    exact .inr (.inr (.inr (.inr (.inr (.inl ⟨v, rfl, h1.symm, h2.symm⟩)))))
  | sample =>
    simp only [microStep] at h
    split at h
    · next v u hu =>
      injection h with h
      injection h with h1 h2
      subst h1
      exact .inr (.inr (.inr (.inr (.inr (.inr (.inl ⟨rfl, u, hu, h2.symm⟩))))))
    · cases h
    · cases h
  | delay d =>
    injection h with h
    injection h with h1 h2
    exact .inr (.inr (.inr (.inr (.inr (.inr (.inr (.inl ⟨d, rfl, h1.symm, h2.symm⟩)))))))
  | setStartup =>
    injection h with h
    injection h with h1 h2
    exact .inr (.inr (.inr (.inr (.inr (.inr (.inr (.inr ⟨rfl, h1.symm, h2.symm⟩)))))))

theorem microStep_not_fault (b : Bindings) (m : Micro) (sb : Byte) (s : State) (f : Fault) :
    microStep b m sb s ≠ .fault f := by
  cases m with
  | rs v => simp only [microStep]; split <;> exact fun h => by cases h
  | e v =>
    cases v with
    | true => exact fun h => by cases h
    | false =>
      simp only [microStep]
      split
      · exact fun h => by cases h
      · next g hg =>
        unfold State.dropEnable at hg
        split at hg
        · exact absurd hg (lcdTakes_not_fault _ _ _ _)
        · cases hg
      · exact fun h => by cases h
  | sample =>
    simp only [microStep]
    split
    · exact fun h => by cases h
    · next g hg => exact absurd hg (lcdSupplies_not_fault _ _ _)
    · exact fun h => by cases h
  | rw v => exact fun h => by cases h
  | dir d => exact fun h => by cases h
  | out v => exact fun h => by cases h
  | delay d => exact fun h => by cases h
  | setStartup => exact fun h => by cases h

theorem microSteps_not_fault (b : Bindings) (f : Fault) :
    ∀ (ms : List Micro) (sb : Byte) (s : State), microSteps b ms sb s ≠ .fault f
  | [], _, _ => fun h => by cases h
  | m :: ms, sb, s => by
    simp only [microSteps]
    split
    · exact microSteps_not_fault b f ms _ _
    · next g hg => exact absurd hg (microStep_not_fault b m sb s g)
    · exact fun h => by cases h

theorem microSteps_append (b : Bindings) :
    ∀ (ms ns : List Micro) (sb : Byte) (s : State),
      microSteps b (ms ++ ns) sb s =
        match microSteps b ms sb s with
        | .next (sb', s') => microSteps b ns sb' s'
        | .fault f => .fault f
        | .refused r => .refused r
  | [], _, _, _ => rfl
  | m :: ms, ns, sb, s => by
    simp only [List.cons_append, microSteps]
    cases microStep b m sb s with
    | next p => exact microSteps_append b ms ns p.1 p.2
    | fault f => rfl
    | refused r => rfl

/-- A property every micro-step keeps is kept by a row of them. -/
theorem microSteps_keeps {P : State → Prop} {b : Bindings}
    (hm : ∀ m sb sb' s t, P s → microStep b m sb s = .next (sb', t) → P t) :
    ∀ (ms : List Micro) (sb sb' : Byte) (s t : State), P s → microSteps b ms sb s = .next (sb', t) → P t
  | [], _, _, _, _, hs, h => by
    injection h with h
    injection h with _ h2
    exact h2 ▸ hs
  | m :: ms, sb, sb', s, t, hs, h => by
    simp only [microSteps] at h
    cases hstep : microStep b m sb s with
    | next p =>
      simp only [hstep] at h
      exact microSteps_keeps hm ms p.1 sb' p.2 t (hm m sb p.1 s p.2 hs hstep) h
    | fault f => simp only [hstep] at h; cases h
    | refused r => simp only [hstep] at h; cases h

/-! ## Running blocks -/

/-- No micro-step changes what the handle is bound to, the parameters, or where the block stands. -/
theorem microStep_holds {b : Bindings} {m : Micro} {sb sb' : Byte} {s t : State}
    (h : microStep b m sb s = .next (sb', t)) :
    t.handle.configured = s.handle.configured ∧ t.handle.bindings = s.handle.bindings ∧ t.timing = s.timing
      ∧ t.seq = s.seq ∧ t.reply = s.reply ∧ t.calls = s.calls := by
  obtain ⟨v, -, -, -, rfl⟩ | ⟨v, -, -, rfl⟩ | ⟨-, -, rfl⟩ | ⟨-, -, h⟩ | ⟨d, -, -, rfl⟩ | ⟨v, -, -, rfl⟩
    | ⟨-, u, hu, rfl⟩ | ⟨d, -, -, rfl⟩ | ⟨-, -, rfl⟩ := microStep_cases h
  case inr.inr.inr.inl =>
    obtain rfl | ⟨-, -, h⟩ := dropEnable_cases h
    · simp
    · obtain ⟨-, rfl⟩ | ⟨L, L', -, -, rfl⟩ := lcdTakes_cases h <;> simp
  case inr.inr.inr.inr.inr.inr.inl =>
    obtain ⟨-, -, rfl⟩ | ⟨L, -, -, -, rfl⟩ | ⟨L, L', -, -, -, rfl⟩ := lcdSupplies_cases hu <;> simp
  all_goals simp

/-- Nor does a row of them. -/
theorem microSteps_holds {b : Bindings} {ms : List Micro} {sb sb' : Byte} {s t : State}
    (h : microSteps b ms sb s = .next (sb', t)) :
    t.handle.configured = s.handle.configured ∧ t.handle.bindings = s.handle.bindings ∧ t.timing = s.timing
      ∧ t.seq = s.seq ∧ t.reply = s.reply ∧ t.calls = s.calls := by
  refine microSteps_keeps (P := fun u => u.handle.configured = s.handle.configured
    ∧ u.handle.bindings = s.handle.bindings ∧ u.timing = s.timing ∧ u.seq = s.seq ∧ u.reply = s.reply
    ∧ u.calls = s.calls) ?_ ms sb sb' s t ⟨rfl, rfl, rfl, rfl, rfl, rfl⟩ h
  rintro m sb sb' u v ⟨h1, h2, h3, h4, h5, h6⟩ hv
  obtain ⟨g1, g2, g3, g4, g5, g6⟩ := microStep_holds hv
  exact ⟨g1.trans h1, g2.trans h2, g3.trans h3, g4.trans h4, g5.trans h5, g6.trans h6⟩

/-- A property every block of a row keeps is kept by a run of them, whether it ends or waits at a poll. -/
theorem runBlocks_keeps {P : State → Prop} {b : Bindings} {i : Instr} {x : Extract}
    (hfinish : ∀ s v, P s → P (s.finish v)) (hwait : ∀ s k, P s → P { s with seq := .at i k }) :
    ∀ (bls : List Block),
      (∀ bl ∈ bls, ∀ sb sb' s t, P s → microSteps b (bl.micros s.timing) sb s = .next (sb', t) → P t) →
      ∀ (k : Nat) (sb : Byte) (s t : State), P s → runBlocks b i x k bls sb s = .next t → P t
  | [], _, _, _, _, _, hs, h => by
    injection h with h
    exact h ▸ hfinish _ _ hs
  | bl :: bls, hblock, k, sb, s, t, hs, h => by
    simp only [runBlocks] at h
    cases hb : microSteps b (bl.micros s.timing) sb s with
    | next p =>
      have hp := hblock bl (List.mem_cons_self ..) sb p.1 s p.2 hs hb
      simp only [hb] at h
      split at h
      · injection h with h
        exact h ▸ hwait _ _ hp
      · exact runBlocks_keeps hfinish hwait bls (fun bl hbl => hblock bl (List.mem_cons_of_mem _ hbl)) (k + 1)
          p.1 p.2 t hp h
    | fault f => simp only [hb] at h; cases h
    | refused r => simp only [hb] at h; cases h

/-- The same for a property that holds of a handle bound to `b` as long as the operation lasts. -/
theorem runBlocks_keeps_bound {P : State → Prop} {b : Bindings} {i : Instr} {x : Extract}
    (hreply : ∀ s r, P s → P { s with reply := r })
    (hseq : ∀ s q, P s → (q = .idle ∨ s.handle.configured = true) → P { s with seq := q })
    {bls : List Block}
    (hblock : ∀ bl ∈ bls, ∀ sb sb' s t, P s → s.handle.configured = true → s.handle.bindings = some b →
      microSteps b (bl.micros s.timing) sb s = .next (sb', t) → P t)
    {k : Nat} {sb : Byte} {s t : State} (hs : P s) (hc : s.handle.configured = true)
    (hb : s.handle.bindings = some b) (h : runBlocks b i x k bls sb s = .next t) : P t := by
  have key := runBlocks_keeps
    (P := fun s => P s ∧ s.handle.configured = true ∧ s.handle.bindings = some b) (b := b)
    (fun s v hs => ⟨hreply _ (some { status := .ok, value := v }) (hseq s .idle hs.1 (.inl rfl)), hs.2⟩)
    (fun s k hs => ⟨hseq s (.at i k) hs.1 (.inr hs.2.1), hs.2⟩) bls
    (fun bl hbl sb sb' s t hs h => ⟨hblock bl hbl sb sb' s t hs.1 hs.2.1 hs.2.2 h,
      (microSteps_holds h).1.trans hs.2.1, (microSteps_holds h).2.1.trans hs.2.2⟩)
    k sb s t ⟨hs, hc, hb⟩ h
  exact key.1

theorem runBlocks_not_fault (b : Bindings) (i : Instr) (x : Extract) (f : Fault) :
    ∀ (bls : List Block) (k : Nat) (sb : Byte) (s : State), runBlocks b i x k bls sb s ≠ .fault f
  | [], _, _, _ => fun h => by cases h
  | bl :: bls, k, sb, s => by
    simp only [runBlocks]
    split
    · split
      · exact fun h => by cases h
      · exact runBlocks_not_fault b i x f bls _ _ _
    · next g hg => exact absurd hg (microSteps_not_fault b g _ sb s)
    · exact fun h => by cases h

/-- One block that is no poll, or a poll that sees the controller free. -/
theorem runBlocks_cons_next {b : Bindings} {i : Instr} {x : Extract} {k : Nat} {bl : Block} {bls : List Block}
    {sb sb' : Byte} {s t : State} (h : microSteps b (bl.micros s.timing) sb s = .next (sb', t))
    (hp : bl = .poll → busyFlag sb' = false) :
    runBlocks b i x k (bl :: bls) sb s = runBlocks b i x (k + 1) bls sb' t := by
  simp only [runBlocks, h]
  rw [if_neg]
  rintro ⟨h1, h2⟩
  rw [hp h1] at h2
  cases h2

/-- A poll that sees the controller busy. -/
theorem runBlocks_poll_busy {b : Bindings} {i : Instr} {x : Extract} {k : Nat} {bls : List Block}
    {sb sb' : Byte} {s t : State} (h : microSteps b (Block.poll.micros s.timing) sb s = .next (sb', t))
    (hp : busyFlag sb' = true) :
    runBlocks b i x k (.poll :: bls) sb s = .next { t with seq := .at i k } := by
  simp [runBlocks, h, hp]

/-- Everything a run that begins with block `bl` can answer as a next state: it waits at a busy poll, or the rest
of the blocks runs. -/
theorem runBlocks_cons_cases {b : Bindings} {i : Instr} {x : Extract} {k : Nat} {bl : Block} {bls : List Block}
    {sb : Byte} {s t : State} (h : runBlocks b i x k (bl :: bls) sb s = .next t) :
    ∃ sb' u, microSteps b (bl.micros s.timing) sb s = .next (sb', u)
      ∧ ((bl = .poll ∧ busyFlag sb' = true ∧ t = { u with seq := .at i k })
        ∨ (¬(bl = .poll ∧ busyFlag sb' = true) ∧ runBlocks b i x (k + 1) bls sb' u = .next t)) := by
  simp only [runBlocks] at h
  cases hm : microSteps b (bl.micros s.timing) sb s with
  | next p =>
    simp only [hm] at h
    refine ⟨p.1, p.2, rfl, ?_⟩
    split at h
    · next hc =>
      injection h with h
      exact .inl ⟨hc.1, hc.2, h.symm⟩
    · next hc => exact .inr ⟨hc, h⟩
  | fault f => simp only [hm] at h; cases h
  | refused r => simp only [hm] at h; cases h

/-! ## Issuing and going on -/

/-- Everything issuing an operation by its plan can answer as a next state. -/
theorem operate_cases {i : Instr} {p : Plan} {s t : State} (h : operate i p s = .next t) :
    s.seq = .idle ∧
      ((s.handle.configured = false ∧ t = s.reject .notConfigured p.returns)
      ∨ (s.handle.configured = true ∧ ∃ st, p.rejected = some st ∧ t = s.reject st p.returns)
      ∨ (s.handle.configured = true ∧ p.rejected = none ∧ ∃ b, s.handle.bindings = some b
          ∧ runBlocks b i p.returns 0 p.blocks 0 { s with reply := none } = .next t)) := by
  unfold operate at h
  split at h
  · cases h
  · next hq =>
    refine ⟨hq, ?_⟩
    split at h
    · next hc =>
      split at h
      · next st hst =>
        injection h with h
        exact .inr (.inl ⟨hc, st, hst, h.symm⟩)
      · next hnone =>
        unfold runFrom at h
        split at h
        · cases h
        · next b hb => exact .inr (.inr ⟨hc, hnone, b, hb, by simpa using h⟩)
    · next hc =>
      injection h with h
      exact .inl ⟨by simpa using hc, h.symm⟩

/-- Everything going on with an operation can answer as a next state. -/
theorem resume_cases {i : Instr} {p : Plan} {k : Nat} {s t : State} (h : resume i p k s = .next t) :
    (s.handle.configured = false ∧ t = s.reject .notConfigured p.returns)
    ∨ (s.handle.configured = true ∧ ∃ b, s.handle.bindings = some b
        ∧ runBlocks b i p.returns k (p.blocks.drop k) 0 { s with reply := none } = .next t) := by
  unfold resume at h
  split at h
  · next hc =>
    unfold runFrom at h
    split at h
    · cases h
    · next b hb => exact .inr ⟨hc, b, hb, h⟩
  · next hc =>
    injection h with h
    exact .inl ⟨by simpa using hc, h.symm⟩

/-- On a clean entry with a configured handle and an accepted plan, issuing is running the blocks. -/
theorem operate_runs {i : Instr} {p : Plan} {s : State} {b : Bindings} (hq : s.seq = .idle)
    (hc : s.ConfiguredWith b) (hp : p.rejected = none) :
    operate i p s = runBlocks b i p.returns 0 p.blocks 0 { s with reply := none } := by
  simp [operate, hq, hc.1, hp, runFrom, hc.2]

/-- Every operation but `Configure` and `mapAddress` is issued by its plan. -/
theorem exec_eq_operate {i : Instr} (hi : ReachesBus i = true) (s : State) :
    exec i s = operate i (planOf i s.handle.startupComplete) s := by
  cases i <;> first | rfl | cases hi

theorem execConfigure_cases {d : DataBus} {dir : PortName} {l : ControlLines} {s t : State}
    (h : execConfigure d dir l s = .next t) :
    s.seq = .idle ∧ s.handle.configured = false ∧ bindingsDistinct (boundBy d dir l) = true
      ∧ t = { s with
              handle := { configured := true, startupComplete := false, bindings := some (boundBy d dir l) }
              reply := some { status := .ok, value := .nothing } } := by
  unfold execConfigure at h
  split at h
  · cases h
  · next hq =>
    split at h
    · cases h
    · next hc =>
      split at h
      · next hd =>
        injection h with h
        exact ⟨hq, by simpa using hc, hd, h.symm⟩
      · cases h

theorem execMapAddress_cases {line col : Nat} {s t : State} (h : execMapAddress line col s = .next t) :
    s.seq = .idle ∧ ∃ v, t = { s with reply := some { status := .ok, value := v } } := by
  unfold execMapAddress at h
  split at h
  · cases h
  · next hq =>
    injection h with h
    exact ⟨hq, _, h.symm⟩

/-- Everything one operation can answer as a next state. -/
theorem exec_cases {i : Instr} {s t : State} (h : exec i s = .next t) :
    s.seq = .idle ∧
      ((∃ r, t = { s with reply := some r })
      ∨ (∃ d dir l, i = .configure d dir l ∧ s.handle.configured = false
          ∧ bindingsDistinct (boundBy d dir l) = true
          ∧ t = { s with
                  handle := { configured := true, startupComplete := false, bindings := some (boundBy d dir l) }
                  reply := some { status := .ok, value := .nothing } })
      ∨ (ReachesBus i = true ∧ s.handle.configured = true
          ∧ (planOf i s.handle.startupComplete).rejected = none
          ∧ ∃ b, s.handle.bindings = some b
          ∧ runBlocks b i (planOf i s.handle.startupComplete).returns 0
              (planOf i s.handle.startupComplete).blocks 0 { s with reply := none } = .next t)) := by
  by_cases hi : ReachesBus i = true
  · rw [exec_eq_operate hi] at h
    obtain ⟨hq, h⟩ := operate_cases h
    refine ⟨hq, ?_⟩
    obtain ⟨-, rfl⟩ | ⟨-, st, -, rfl⟩ | ⟨hc, hn, b, hb, hr⟩ := h
    · exact .inl ⟨_, by simp [State.reject, hq]; rfl⟩
    · exact .inl ⟨_, by simp [State.reject, hq]; rfl⟩
    · exact .inr (.inr ⟨hi, hc, hn, b, hb, hr⟩)
  · cases i with
    | configure d dir l =>
      obtain ⟨hq, hc, hd, rfl⟩ := execConfigure_cases h
      exact ⟨hq, .inr (.inl ⟨d, dir, l, rfl, hc, hd, rfl⟩)⟩
    | mapAddress line col =>
      obtain ⟨hq, v, rfl⟩ := execMapAddress_cases h
      exact ⟨hq, .inl ⟨_, rfl⟩⟩
    | _ => exact absurd rfl hi

/-- Everything an operation can answer as a next state, issued or going on with it. -/
theorem running_cases {i : Instr} {s t : State}
    (h : exec i s = .next t ∨ ∃ k, s.seq = .at i k ∧ step s = .next t) :
    (∃ q r, t = { s with seq := q, reply := some r })
    ∨ (∃ d dir l, i = .configure d dir l ∧ s.handle.configured = false
        ∧ t = { s with
                handle := { configured := true, startupComplete := false, bindings := some (boundBy d dir l) }
                reply := some { status := .ok, value := .nothing } })
    ∨ (s.handle.configured = true ∧ ∃ b k, s.handle.bindings = some b
        ∧ runBlocks b i (planOf i s.handle.startupComplete).returns k
            ((planOf i s.handle.startupComplete).blocks.drop k) 0 { s with reply := none } = .next t) := by
  rcases h with h | ⟨k, hk, h⟩
  · obtain ⟨-, ⟨r, rfl⟩ | ⟨d, dir, l, he, hc, -, rfl⟩ | ⟨-, hc, -, b, hb, hr⟩⟩ := exec_cases h
    · exact .inl ⟨_, r, rfl⟩
    · exact .inr (.inl ⟨d, dir, l, he, hc, rfl⟩)
    · exact .inr (.inr ⟨hc, b, 0, hb, hr⟩)
  · have hs : step s = resume i (planOf i s.handle.startupComplete) k s := by simp only [step, hk]
    rw [hs] at h
    obtain ⟨-, rfl⟩ | ⟨hc, b, hb, hr⟩ := resume_cases h
    · exact .inl ⟨_, _, rfl⟩
    · exact .inr (.inr ⟨hc, b, k, hb, hr⟩)

/-- The step that takes a call issues it. -/
theorem step_issues {i : Instr} {calls : List Call} {s : State} (hq : s.seq = .idle) (hc : s.calls = .op i :: calls) :
    step s = exec i { s with calls := calls } := by
  simp [step, hq, fetch, hc]

/-- The step that finds an operation in progress runs its blocks from the one it stands at. -/
theorem step_goes_on {i : Instr} {k : Nat} {b : Bindings} {s : State} (hq : s.seq = .at i k)
    (hc : s.ConfiguredWith b) :
    step s = runBlocks b i (planOf i s.handle.startupComplete).returns k
      ((planOf i s.handle.startupComplete).blocks.drop k) 0 { s with reply := none } := by
  have h : step s = resume i (planOf i s.handle.startupComplete) k s := by simp only [step, hq]
  rw [h]
  simp only [resume, hc.1, runFrom, hc.2, if_true]

/-- A property is kept by an operation if the reply, a binding `Configure`, the blocks of its plan, the end
and the waiting of a run keep it. -/
theorem exec_keeps {P : State → Prop} {i : Instr} {s t : State}
    (hreply : ∀ s r, P s → P { s with reply := r })
    (hconfigure : ∀ s b, P s → s.handle.configured = false → bindingsDistinct b = true →
      P { s with handle := { configured := true, startupComplete := false, bindings := some b } })
    (hseq : ∀ s q, P s → (q = .idle ∨ s.handle.configured = true) → P { s with seq := q })
    (hblock : ∀ bl ∈ (planOf i s.handle.startupComplete).blocks, ∀ b sb sb' s t, P s →
      s.handle.configured = true → s.handle.bindings = some b →
      microSteps b (bl.micros s.timing) sb s = .next (sb', t) → P t)
    (hs : P s) (h : exec i s = .next t) : P t := by
  obtain ⟨-, ⟨r, rfl⟩ | ⟨d, dir, l, -, hc, hd, rfl⟩ | ⟨-, hc, -, b, hb, hr⟩⟩ := exec_cases h
  · exact hreply _ _ hs
  · exact hreply _ (some { status := .ok, value := .nothing }) (hconfigure s _ hs hc hd)
  · exact runBlocks_keeps_bound hreply hseq (fun bl hbl => hblock bl hbl b) (hreply s none hs) hc hb hr

/-- A property is kept by going on with an operation under the same conditions. -/
theorem resume_keeps {P : State → Prop} {i : Instr} {p : Plan} {k : Nat} {s t : State}
    (hreply : ∀ s r, P s → P { s with reply := r })
    (hseq : ∀ s q, P s → (q = .idle ∨ s.handle.configured = true) → P { s with seq := q })
    (hblock : ∀ bl ∈ p.blocks, ∀ b sb sb' s t, P s →
      s.handle.configured = true → s.handle.bindings = some b →
      microSteps b (bl.micros s.timing) sb s = .next (sb', t) → P t)
    (hs : P s) (h : resume i p k s = .next t) : P t := by
  obtain ⟨-, rfl⟩ | ⟨hc, b, hb, hr⟩ := resume_cases h
  · exact hreply _ (some _) (hseq s .idle hs (.inl rfl))
  · exact runBlocks_keeps_bound hreply hseq (fun bl hbl => hblock bl (List.mem_of_mem_drop hbl) b)
      (hreply s none hs) hc hb hr

/-- Everything a step can answer as a next state. -/
theorem step_cases {s t : State} (h : step s = .next t) :
    (∃ i k, s.seq = .at i k ∧ resume i (planOf i s.handle.startupComplete) k s = .next t)
    ∨ (s.seq = .idle ∧ t = s)
    ∨ (s.seq = .idle ∧ ∃ d c, s.calls = .hostDelay d :: c ∧ t = hostWait d { s with calls := c })
    ∨ (s.seq = .idle ∧ ∃ i c, exec i { s with calls := c } = .next t) := by
  unfold step at h
  split at h
  · next i k hq => exact .inl ⟨i, k, hq, h⟩
  · next hq =>
    refine .inr ?_
    unfold fetch at h
    cases hcalls : s.calls with
    | nil =>
      simp only [hcalls] at h
      injection h with h
      exact .inl ⟨hq, h.symm⟩
    | cons c rest =>
      cases c with
      | op i => exact .inr (.inr ⟨hq, i, rest, by simpa only [hcalls] using h⟩)
      | hostDelay d =>
        simp only [hcalls] at h
        injection h with h
        exact .inr (.inl ⟨hq, d, rest, rfl, h.symm⟩)
      | word w =>
        cases hw : decode w with
        | ok i => exact .inr (.inr ⟨hq, i, rest, by simpa only [hcalls, hw] using h⟩)
        | error e =>
          simp only [hcalls, hw] at h
          cases h

/-- A property is kept by every step if, besides, the host's stream and its waits keep it. -/
theorem step_keeps {P : State → Prop}
    (hreply : ∀ s r, P s → P { s with reply := r })
    (hcalls : ∀ s c, P s → P { s with calls := c })
    (hwait : ∀ s d, P s → P (hostWait d s))
    (hconfigure : ∀ s b, P s → s.handle.configured = false → bindingsDistinct b = true →
      P { s with handle := { configured := true, startupComplete := false, bindings := some b } })
    (hseq : ∀ s q, P s → (q = .idle ∨ s.handle.configured = true) → P { s with seq := q })
    (hblock : ∀ bl b sb sb' s t, P s → s.handle.configured = true → s.handle.bindings = some b →
      microSteps b (Block.micros s.timing bl) sb s = .next (sb', t) → P t)
    {s t : State} (hs : P s) (h : step s = .next t) : P t := by
  obtain ⟨i, k, -, h⟩ | ⟨-, rfl⟩ | ⟨-, d, c, -, rfl⟩ | ⟨-, i, c, h⟩ := step_cases h
  · exact resume_keeps hreply hseq (fun bl _ => hblock bl) hs h
  · exact hs
  · exact hwait _ _ (hcalls _ _ hs)
  · exact exec_keeps hreply hconfigure hseq (fun bl _ => hblock bl) (hcalls _ _ hs) h

/-- One step of a run. -/
theorem run_next {n : Nat} {s t : State} (h : step s = .next t) :
    Host.Core.run core (n + 1) s = Host.Core.run core n t := by
  have h' : core.step s = .next t := h
  simp only [Host.Core.run, h']

/-- An idle block with no calls stays as it is. -/
theorem run_idle {s : State} (hq : s.seq = .idle) (hc : s.calls = []) : ∀ n : Nat, Host.Core.run core n s = .next s
  | 0 => rfl
  | n + 1 => (run_next (by simp only [step, hq, fetch, hc])).trans (run_idle hq hc n)

end Sys2Proof.Machine
end

