-- ==== Sys2Proof/Laws/PerInstr.lean ====
section
/-! SUPPORT. Per operation: the words it encodes to are those of its row of spec/opcode_table.json. -/

namespace Sys2Proof.Laws.RowPattern

/-- An operation with a row of its own mask and match encodes to a word the row matches; an operation whose row
has none puts no word of its own on the bus (30_encoding.md R53, R60, R61). -/
def Statement (i : Instr) : Prop :=
  match i.row with
  | some (mask, pattern) => ∃ w, encode i = some w ∧ w &&& mask = pattern
  | none => encode i = none

theorem clearDisplay : Statement (.clearDisplay) := by
  refine ⟨_, rfl, ?_⟩
  decide

theorem returnHome : Statement (.returnHome) := by
  refine ⟨_, rfl, ?_⟩
  decide

theorem setEntryMode (i s : Bool) : Statement (.setEntryMode i s) := by
  refine ⟨_, rfl, ?_⟩
  revert i s
  decide

theorem displayControl (d c b : Bool) : Statement (.displayControl d c b) := by
  refine ⟨_, rfl, ?_⟩
  revert d c b
  decide

theorem cursorDisplayShift (d c : Bool) : Statement (.cursorDisplayShift d c) := by
  refine ⟨_, rfl, ?_⟩
  revert d c
  decide

theorem functionSet (l : BusLength) (n : LineCount) (f : Font) : Statement (.functionSet l n f) := by
  refine ⟨_, rfl, ?_⟩
  cases l <;> cases n <;> cases f <;> decide

theorem setCGRAMAddress (a : Nat) : Statement (.setCGRAMAddress a) := by
  refine ⟨_, rfl, ?_⟩
  generalize BitVec.ofNat 6 a = x
  revert x
  decide

theorem setDisplayDataAddress (a : Nat) : Statement (.setDisplayDataAddress a) := by
  refine ⟨_, rfl, ?_⟩
  generalize BitVec.ofNat 7 a = x
  revert x
  decide

theorem writeDataReg (b : Byte) : Statement (.writeDataReg b) := by
  refine ⟨_, rfl, ?_⟩
  revert b
  decide

theorem readDataReg : Statement (.readDataReg) := by
  refine ⟨_, rfl, ?_⟩
  decide

theorem isBusy : Statement (.isBusy) := by
  refine ⟨_, rfl, ?_⟩
  decide

theorem readAddressCounter : Statement (.readAddressCounter) := by
  refine ⟨_, rfl, ?_⟩
  decide

theorem waitNotBusy : Statement (.waitNotBusy) := by
  refine ⟨_, rfl, ?_⟩
  decide

theorem writeLcd (r : Register) (b : Byte) : Statement (.writeLcd r b) := by
  refine ⟨_, rfl, ?_⟩
  cases r <;> (revert b; decide)

theorem readLcd (r : Register) : Statement (.readLcd r) := by
  refine ⟨_, rfl, ?_⟩
  cases r <;> decide

theorem configure (d : DataBus) (dir : PortName) (l : ControlLines) : Statement (.configure d dir l) := by
  exact rfl

theorem mapAddress (line col : Nat) : Statement (.mapAddress line col) := by
  exact rfl

theorem clearCell (line pos : Nat) : Statement (.clearCell line pos) := by
  exact rfl

theorem writeAt (text : List Byte) (line pos cells : Nat) : Statement (.writeAt text line pos cells) := by
  exact rfl

theorem writeLine (text : List Byte) (line : Nat) : Statement (.writeLine text line) := by
  exact rfl

end Sys2Proof.Laws.RowPattern
end

