-- ==== Sys2Proof/Laws/Responder.lean ====
section
/-! SUPPORT. What the reference responder's operations keep, and that every memory operation keeps the canonical form. -/

namespace Sys2Proof.Machine

theorem reset_ports_wf : State.reset.ports.wf portUnlisted = true := rfl

theorem start_wf {cgram : Memory} (h : cgram.wf cgramUnlisted = true) :
    (LcdModel.reference (Responder.start cgram)).wf := ⟨rfl, h⟩

/-- Everything an instruction byte can do to the responder (20_memory.md R47). -/
theorem instruct_cases {L L' : Responder} {v : Byte} (h : L.instruct v = .ok L') :
    L' = L ∨ (∃ a sp, L' = { L with ac := a, space := sp }) ∨ (∃ i, L' = { L with increment := i })
      ∨ L' = { L with ddram := [], ac := 0, space := .ddram, increment := true } := by
  unfold Responder.instruct at h
  split at h
  · injection h with h
    exact .inr (.inl ⟨_, _, h.symm⟩)
  split at h
  · injection h with h
    exact .inr (.inl ⟨_, _, h.symm⟩)
  split at h
  · injection h with h
    exact .inl h.symm
  split at h
  · cases h
  split at h
  · injection h with h
    exact .inl h.symm
  split at h
  · injection h with h
    exact .inr (.inr (.inl ⟨_, h.symm⟩))
  split at h
  · injection h with h
    exact .inr (.inl ⟨_, _, h.symm⟩)
  split at h
  · injection h with h
    exact .inr (.inr (.inr h.symm))
  cases h

/-- Everything a data write can do to the responder (20_memory.md R48). -/
theorem store_cases {L L' : Responder} {v : Byte} (h : L.store v = .ok L') :
    (L.space = .ddram ∧ inLineRange L.ac = true
      ∧ L' = ({ L with ddram := L.ddram.write ddramUnlisted L.ac.toNat v }).advance)
    ∨ (L.space = .cgram ∧ L' = ({ L with cgram := L.cgram.write cgramUnlisted (cgramCell L.ac) v }).advance) := by
  unfold Responder.store at h
  split at h
  · next hs =>
    injection h with h
    exact .inr ⟨hs, h.symm⟩
  · next hs =>
    split at h
    · next hr =>
      injection h with h
      exact .inl ⟨hs, hr, h.symm⟩
    · cases h

/-- A write transfer keeps the canonical form, takes the draw, and records an arrival while busy. -/
theorem accept_keeps {L L' : Responder} {rs : Bool} {v : Byte} {d : Busy} (h : L.accept rs v d = .ok L') :
    ((LcdModel.reference L).wf → (LcdModel.reference L').wf) ∧ L'.busy = d
      ∧ L'.violated = (L.violated || busyNow L.busy) := by
  unfold Responder.accept at h
  split at h
  · next M hM =>
    injection h with h
    subst h
    refine ⟨?_, rfl, ?_⟩
    · rintro ⟨h1, h2⟩
      split at hM
      · obtain ⟨-, -, rfl⟩ | ⟨-, rfl⟩ := store_cases hM
        · exact ⟨Memory.write_wf _ _ _ _ h1, h2⟩
        · exact ⟨h1, Memory.write_wf _ _ _ _ h2⟩
      · obtain rfl | ⟨a, sp, rfl⟩ | ⟨i, rfl⟩ | rfl := instruct_cases hM
        · exact ⟨h1, h2⟩
        · exact ⟨h1, h2⟩
        · exact ⟨h1, h2⟩
        · exact ⟨rfl, h2⟩
    · split at hM
      · obtain ⟨-, -, rfl⟩ | ⟨-, rfl⟩ := store_cases hM <;> rfl
      · obtain rfl | ⟨a, sp, rfl⟩ | ⟨i, rfl⟩ | rfl := instruct_cases hM <;> rfl
  · cases h

/-- A data read takes the draw, records an arrival while busy, and changes the Address Counter besides
(20_memory.md R49). -/
theorem supply_cases {L L' : Responder} {v : Byte} {d : Busy} (h : L.supply d = .ok (v, L')) :
    L.cell = .ok v ∧ L' = { L with ac := nextCounter L.space L.increment L.ac, busy := d
                                   violated := L.violated || busyNow L.busy } := by
  unfold Responder.supply at h
  split at h
  · next b hb =>
    injection h with h
    injection h with h1 h2
    exact ⟨by rw [hb, h1], h2.symm⟩
  · cases h

/-- Every memory of the state keeps its canonical form from `s` to `t`. -/
structure KeepsMemories (s t : State) : Prop where
  ports : s.ports.wf portUnlisted = true → t.ports.wf portUnlisted = true
  lcd : s.lcd.model.wf → t.lcd.model.wf

theorem microStep_keeps_memories {b : Bindings} {m : Micro} {sb sb' : Byte} {s t : State}
    (h : microStep b m sb s = .next (sb', t)) : KeepsMemories s t := by
  obtain ⟨v, -, -, -, rfl⟩ | ⟨v, -, -, rfl⟩ | ⟨-, -, rfl⟩ | ⟨-, -, h⟩ | ⟨d, -, -, rfl⟩ | ⟨v, -, -, rfl⟩
    | ⟨-, u, hu, rfl⟩ | ⟨d, -, -, rfl⟩ | ⟨-, -, rfl⟩ := microStep_cases h
  case inr.inr.inr.inl =>
    obtain rfl | ⟨-, -, h⟩ := dropEnable_cases h
    · exact ⟨fun h => Memory.write_wf _ _ _ _ h, id⟩
    · obtain ⟨-, rfl⟩ | ⟨L, L', hm, ha, rfl⟩ := lcdTakes_cases h
      · exact ⟨fun h => Memory.write_wf _ _ _ _ h, fun _ => trivial⟩
      · exact ⟨fun h => Memory.write_wf _ _ _ _ h, fun h => (accept_keeps ha).1 (hm ▸ h)⟩
  case inr.inr.inr.inr.inr.inr.inl =>
    obtain ⟨-, -, rfl⟩ | ⟨L, hm, -, -, rfl⟩ | ⟨L, L', hm, -, ha, rfl⟩ := lcdSupplies_cases hu
    · exact ⟨id, id⟩
    · exact ⟨id, fun h => by rw [hm] at h; exact h⟩
    · refine ⟨id, fun hw => ?_⟩
      rw [hm] at hw
      obtain ⟨-, rfl⟩ := supply_cases ha
      exact hw
  all_goals first | exact ⟨id, id⟩ | exact ⟨fun h => Memory.write_wf _ _ _ _ h, id⟩

theorem microSteps_keep_memories {b : Bindings} {ms : List Micro} {sb sb' : Byte} {s t : State}
    (h : microSteps b ms sb s = .next (sb', t)) : KeepsMemories s t :=
  microSteps_keeps (P := fun u => KeepsMemories s u)
    (fun _ _ _ _ _ hs h => ⟨(microStep_keeps_memories h).1 ∘ hs.1, (microStep_keeps_memories h).2 ∘ hs.2⟩)
    ms sb sb' s t ⟨id, id⟩ h

end Sys2Proof.Machine
end

