-- ==== Sys2Proof/Laws/Transfers.lean ====
section
/-! SUPPORT. The two transfers and the poll, each as one equation and one list of what it leaves (40_bus_transport.md R64, R66, R71). -/

namespace Sys2Proof.Machine

/-! ## The transfers of a row of events -/

@[simp] theorem transfersOf_append_write (rs : Bool) (es : List Event) (T : Timing) (r : Register) (v : Byte) :
    transfersOf rs (es ++ writeEvents T r v) = transfersOf rs es ++ [.write r v] := by
  induction es generalizing rs with
  | nil => cases r <;> rfl
  | cons e es ih => cases e <;> simp [transfersOf, ih]

@[simp] theorem transfersOf_append_read (rs : Bool) (es : List Event) (T : Timing) (r : Register) (sb : Byte) :
    transfersOf rs (es ++ readEvents T r sb) = transfersOf rs es ++ [.read r sb] := by
  induction es generalizing rs with
  | nil => unfold readEvents; cases r <;> split <;> rfl
  | cons e es ih => cases e <;> simp [transfersOf, ih]

/-- A wait of the host's is no transfer. -/
@[simp] theorem transfersOf_append_delay (rs : Bool) (es : List Event) (d : Nat) :
    transfersOf rs (es ++ [.delay d]) = transfersOf rs es := by
  induction es generalizing rs with
  | nil => rfl
  | cons e es ih => cases e <;> simp [transfersOf, ih]

/-- Two things said of the controller once settled are said together. -/
theorem Settled.and {Q R : Seen → Prop} : ∀ {run : List (Seen × Transfer)} {last : Seen},
    Settled Q run last → Settled R run last → Settled (fun y => Q y ∧ R y) run last
  | [], _, hq, hr => fun hp => ⟨hq hp, hr hp⟩
  | _ :: _, _, hq, hr => ⟨fun hp => ⟨hq.1 hp, hr.1 hp⟩, fun ht => (hq.2 ht).and (hr.2 ht)⟩

/-! ## WriteLcd -/

/-- The state after W1 to W5: Enable is high, the byte is on the bus. -/
def State.raisedForWrite (b : Bindings) (T : Timing) (r : Register) (v : Byte) (s : State) : State :=
  ((((((s.driveRs b (rsLevel r)).driveRw b false).elapse T.tAS (.delay T.tAS)).driveDir b .drive).driveOut b v).driveE
    b true).elapse T.tPW (.delay T.tPW)

/-- A write entered with Enable low: the controller takes the byte as Enable falls, and W7 and W8 follow. -/
theorem microSteps_write {b : Bindings} (T : Timing) (r : Register) (v : Byte) (sb : Byte) {s : State}
    (he : s.pins.e = false) :
    microSteps b (writeMicros T r v) sb s =
      match ((s.raisedForWrite b T r v).driveE b false).lcdTakes (rsLevel r) v with
      | .next u => .next (sb, (u.elapse T.tH (.delay T.tH)).driveRw b true)
      | .fault f => .fault f
      | .refused e => .refused e := by
  simp only [writeMicros, microSteps, microStep, he, State.dropEnable, State.raisedForWrite]
  simp only [driveRs_pins, driveRw_pins, elapse_pins, driveDir_pins, driveOut_pins, driveE_pins,
    Bool.false_eq_true, if_false, not_false_eq_true, and_self, if_true]
  generalize State.lcdTakes (rsLevel r) v _ = o
  cases o <;> rfl

/-- The responder stops on 0x00 and on Cursor/Display Shift alone (20_memory.md R47). -/
theorem instruct_accepts (L : Responder) {v : Byte} (h0 : v ≠ 0x00) (h1 : v.extractLsb' 4 4 ≠ 0x1#4) :
    ∃ L', L.instruct v = .ok L' := by
  have key : ∀ w : Byte, w ≠ 0x00 → w.extractLsb' 4 4 ≠ 0x1#4 →
      w.getLsbD 7 = false → w.getLsbD 6 = false → w.getLsbD 5 = false →
      w.getLsbD 4 = false
        ∧ (w.getLsbD 3 = false → w.getLsbD 2 = false → w.getLsbD 1 = false → w.getLsbD 0 = true) := by
    decide
  unfold Responder.instruct
  split
  · exact ⟨_, rfl⟩
  next h7 =>
  split
  · exact ⟨_, rfl⟩
  next h6 =>
  split
  · exact ⟨_, rfl⟩
  next h5 =>
  obtain ⟨h4, hlow⟩ := key v h0 h1 (by simpa using h7) (by simpa using h6) (by simpa using h5)
  rw [if_neg (by rw [h4]; decide)]
  split
  · exact ⟨_, rfl⟩
  next h3 =>
  split
  · exact ⟨_, rfl⟩
  next h2 =>
  split
  · exact ⟨_, rfl⟩
  next h1' =>
  rw [if_pos (hlow (by simpa using h3) (by simpa using h2) (by simpa using h1'))]
  exact ⟨_, rfl⟩

/-- The controller does not stop on a write it accepts. -/
theorem lcdTakes_accepts {s : State} {r : Register} {v : Byte} (h : s.LcdAccepts r v) (u : State)
    (hu : u.lcd.model = s.lcd.model) : ∃ t, u.lcdTakes (rsLevel r) v = .next t := by
  unfold State.lcdTakes
  cases hm : u.lcd.model with
  | oracle => exact ⟨_, rfl⟩
  | reference L =>
    have hL := h L (hu ▸ hm)
    have : ∃ L', L.accept (rsLevel r) v u.draws.nextBusy = .ok L' := by
      cases r with
      | data =>
        simp only at hL
        simp only [Responder.accept, rsLevel, if_true, Responder.store, Responder.noteArrival]
        cases hs : L.space with
        | cgram => exact ⟨_, rfl⟩
        | ddram =>
          have : inLineRange L.ac = true := by simpa [hs] using hL
          simp [this]
      | instruction =>
        simp only at hL
        simp only [Responder.accept, rsLevel, Bool.false_eq_true, if_false]
        obtain ⟨L', hL'⟩ := instruct_accepts L.noteArrival hL.1 hL.2
        exact ⟨_, by rw [hL']⟩
    obtain ⟨L', hL'⟩ := this
    exact ⟨_, by simp only [hL']; rfl⟩

/-- What a write transfer leaves (40_bus_transport.md R64, R71). -/
structure WriteDone (b : Bindings) (r : Register) (v : Byte) (s t : State) : Prop where
  events : t.events = s.events ++ writeEvents s.timing r v
  pins : t.pins = idleAfterWrite r v
  handle : t.handle = s.handle
  seq : t.seq = s.seq
  timing : t.timing = s.timing
  reply : t.reply = s.reply
  calls : t.calls = s.calls
  senses : t.draws.senses = s.draws.senses
  oracle : s.UnderOracle → t.UnderOracle ∧ t.draws.busy = s.draws.busy
  responder : ∀ L, s.lcd.model = .reference L → ∃ L' d, t.lcd.model = .reference L'
    ∧ L.accept (rsLevel r) v d = .ok L'
    ∧ ∀ x xs, s.draws.busy = x :: xs → d = x ∧ t.draws.busy = xs
  now : s.now + (s.timing.tAS + s.timing.tPW + s.timing.tH) ≤ t.now
  width : t.lcd.width = latchWidth s.lcd.width (rsLevel r) v

theorem rsLevel_eq (r : Register) : rsLevel r = decide (r = .data) := by cases r <;> rfl

/-- A write that completes, whatever the controller: what it leaves. -/
theorem write_done {b : Bindings} {r : Register} {v : Byte} {sb sb' : Byte} {s t : State}
    (he : s.pins.e = false) (h : microSteps b (writeMicros s.timing r v) sb s = .next (sb', t)) :
    sb' = sb ∧ WriteDone b r v s t := by
  rw [microSteps_write _ _ _ _ he] at h
  split at h
  · next u hu =>
    injection h with h
    injection h with h1 h2
    subst h1 h2
    refine ⟨rfl, ?_⟩
    have hcase := lcdTakes_cases hu
    have hev : u.trace = ((s.raisedForWrite b s.timing r v).driveE b false).trace
        ∧ u.pins = ((s.raisedForWrite b s.timing r v).driveE b false).pins
        ∧ u.handle = s.handle ∧ u.seq = s.seq ∧ u.timing = s.timing ∧ u.reply = s.reply ∧ u.calls = s.calls
        ∧ u.draws.senses = s.draws.senses
        ∧ u.now = ((s.raisedForWrite b s.timing r v).driveE b false).now := by
      obtain ⟨-, rfl⟩ | ⟨L, L', -, -, rfl⟩ := hcase <;> simp [State.raisedForWrite]
    obtain ⟨e1, e2, e3, e4, e5, e6, e7, e8, e9⟩ := hev
    refine ⟨?_, ?_, ?_, ?_, ?_, ?_, ?_, ?_, ?_, ?_, ?_, ?_⟩
    · simp [State.events, e1, State.raisedForWrite, writeEvents, rsLevel_eq]
    · simp [e2, State.raisedForWrite, idleAfterWrite, rsLevel_eq]
    · simpa using e3
    · simpa using e4
    · simpa using e5
    · simpa using e6
    · simpa using e7
    · simpa using e8
    · intro ho
      obtain ⟨-, rfl⟩ | ⟨L, L', hL, -, -⟩ := hcase
      · simp [State.raisedForWrite, State.UnderOracle]
      · have hL : s.lcd.model = .reference L := by simpa [State.raisedForWrite] using hL
        rw [State.UnderOracle, hL] at ho
        cases ho
    · intro L hs
      obtain ⟨hm, -⟩ | ⟨L₀, L', hL, hacc, rfl⟩ := hcase
      · have hm : s.lcd.model = .oracle := by simpa [State.raisedForWrite] using hm
        rw [hm] at hs
        cases hs
      · have hL : s.lcd.model = .reference L₀ := by simpa [State.raisedForWrite] using hL
        rw [hL] at hs
        cases hs
        refine ⟨L', _, by simp, hacc, ?_⟩
        intro x xs hx
        have hx' : ((s.raisedForWrite b s.timing r v).driveE b false).draws.busy = x :: xs := by
          simpa [State.raisedForWrite] using hx
        exact ⟨nextBusy_of_cons hx', by simpa using dropBusy_of_cons hx'⟩
    · simp only [driveRw_now, elapse_now, e9, State.raisedForWrite, driveE_now, driveOut_now, driveDir_now,
        driveRs_now]
      omega
    · obtain ⟨-, rfl⟩ | ⟨L, L', -, -, rfl⟩ := hcase <;> simp [State.raisedForWrite]
  · cases h
  · cases h

/-- A write the controller accepts completes. -/
theorem write_completes {b : Bindings} {r : Register} {v : Byte} (sb : Byte) {s : State}
    (he : s.pins.e = false) (ha : s.LcdAccepts r v) :
    ∃ t, microSteps b (writeMicros s.timing r v) sb s = .next (sb, t) ∧ WriteDone b r v s t := by
  obtain ⟨u, hu⟩ := lcdTakes_accepts ha ((s.raisedForWrite b s.timing r v).driveE b false)
    (by simp [State.raisedForWrite])
  have h : microSteps b (writeMicros s.timing r v) sb s
      = .next (sb, (u.elapse s.timing.tH (.delay s.timing.tH)).driveRw b true) := by
    rw [microSteps_write _ _ _ _ he, hu]
  exact ⟨_, h, (write_done he h).2⟩

/-! ## ReadLcd -/

/-- The state after Rd1 to Rd5a: Enable is high, the bus is an input. -/
def State.raisedForRead (b : Bindings) (T : Timing) (r : Register) (s : State) : State :=
  (((((s.driveRs b (rsLevel r)).driveRw b true).elapse T.tAS (.delay T.tAS)).driveDir b .sense).driveE
    b true).elapse T.tDDR (.delay T.tDDR)

/-- Rd5c, present only if `T_EH_RD > T_DDR`. -/
def State.stretched (T : Timing) (s : State) : State :=
  if T.tDDR < T.tEHRD then s.elapse (T.tEHRD - T.tDDR) (.delay (T.tEHRD - T.tDDR)) else s

@[simp] theorem stretched_pins (T : Timing) (s : State) : (s.stretched T).pins = s.pins := by
  unfold State.stretched; split <;> rfl
@[simp] theorem stretched_handle (T : Timing) (s : State) : (s.stretched T).handle = s.handle := by
  unfold State.stretched; split <;> rfl
@[simp] theorem stretched_seq (T : Timing) (s : State) : (s.stretched T).seq = s.seq := by
  unfold State.stretched; split <;> rfl
@[simp] theorem stretched_timing (T : Timing) (s : State) : (s.stretched T).timing = s.timing := by
  unfold State.stretched; split <;> rfl
@[simp] theorem stretched_ports (T : Timing) (s : State) : (s.stretched T).ports = s.ports := by
  unfold State.stretched; split <;> rfl
@[simp] theorem stretched_reply (T : Timing) (s : State) : (s.stretched T).reply = s.reply := by
  unfold State.stretched; split <;> rfl
@[simp] theorem stretched_calls (T : Timing) (s : State) : (s.stretched T).calls = s.calls := by
  unfold State.stretched; split <;> rfl
@[simp] theorem stretched_lcd (T : Timing) (s : State) : (s.stretched T).lcd = s.lcd := by
  unfold State.stretched; split <;> rfl
@[simp] theorem stretched_senses (T : Timing) (s : State) : (s.stretched T).draws.senses = s.draws.senses := by
  unfold State.stretched; split <;> simp
@[simp] theorem stretched_busy (T : Timing) (s : State) : (s.stretched T).draws.busy = s.draws.busy := by
  unfold State.stretched; split <;> simp

/-- What follows the sample: Rd5c, Rd6, Rd7. -/
def State.lowered (b : Bindings) (T : Timing) (s : State) : State :=
  ((s.stretched T).driveE b false).elapse T.tH (.delay T.tH)

/-- A read entered with Enable low: the controller supplies the byte at Rd5b. -/
theorem microSteps_read {b : Bindings} (T : Timing) (r : Register) (sb : Byte) {s : State}
    (he : s.pins.e = false) :
    microSteps b (readMicros T r) sb s =
      match (s.raisedForRead b T r).lcdSupplies (rsLevel r) with
      | .next (v, u) => .next (v, (u.elapse 0 (.input v)).lowered b T)
      | .fault f => .fault f
      | .refused e => .refused e := by
  have hpins : (s.raisedForRead b T r).pins.rs = rsLevel r := by simp [State.raisedForRead]
  have h1 : microSteps b [.rs (rsLevel r), .rw true, .delay T.tAS, .dir .sense, .e true, .delay T.tDDR] sb s
      = .next (sb, s.raisedForRead b T r) := by
    simp [microSteps, microStep, he, State.raisedForRead]
  have hsplit : readMicros T r
      = [.rs (rsLevel r), .rw true, .delay T.tAS, .dir .sense, .e true, .delay T.tDDR]
        ++ ([.sample] ++ ((if T.tDDR < T.tEHRD then [.delay (T.tEHRD - T.tDDR)] else [])
        ++ [.e false, .delay T.tH])) := by
    simp [readMicros]
  rw [hsplit, microSteps_append, h1]
  simp only [List.singleton_append, microSteps, microStep, hpins]
  cases ho : (s.raisedForRead b T r).lcdSupplies (rsLevel r) with
  | fault f => rfl
  | refused e => rfl
  | next p =>
    obtain ⟨v, u⟩ := p
    simp only
    have hup : u.pins = (s.raisedForRead b T r).pins := by
      obtain ⟨-, -, rfl⟩ | ⟨L, -, -, -, rfl⟩ | ⟨L, L', -, -, -, rfl⟩ := lcdSupplies_cases ho <;> rfl
    have hrw : u.pins.rw = true := by rw [hup]; simp [State.raisedForRead]
    unfold State.lowered State.stretched
    split <;> simp [microSteps, microStep, State.dropEnable, hrw]

/-- The controller does not stop on a read it answers. -/
theorem lcdSupplies_answers {s : State} {r : Register} (h : s.LcdAnswers r) (u : State)
    (hu : u.lcd.model = s.lcd.model) : ∃ p, u.lcdSupplies (rsLevel r) = .next p := by
  unfold State.lcdSupplies
  cases hm : u.lcd.model with
  | oracle => exact ⟨_, rfl⟩
  | reference L =>
    cases r with
    | instruction => exact ⟨_, rfl⟩
    | data =>
      have hL := h L (hu ▸ hm) rfl
      simp only [rsLevel, if_true, Responder.supply, Responder.cell]
      cases hs : L.space with
      | cgram => exact ⟨_, rfl⟩
      | ddram =>
        have : inLineRange L.ac = true := by simpa [hs] using hL
        simp [this]

/-- What a read transfer that sensed `sb` leaves (40_bus_transport.md R66, R71). -/
structure ReadDone (b : Bindings) (r : Register) (sb : Byte) (s t : State) : Prop where
  events : t.events = s.events ++ readEvents s.timing r sb
  pins : t.pins = idleAfterRead r s.pins
  handle : t.handle = s.handle
  seq : t.seq = s.seq
  timing : t.timing = s.timing
  reply : t.reply = s.reply
  calls : t.calls = s.calls
  width : t.lcd.width = s.lcd.width
  oracle : s.UnderOracle → t.UnderOracle ∧ t.draws.busy = s.draws.busy
    ∧ ∀ x xs, s.draws.senses = x :: xs → sb = x ∧ t.draws.senses = xs
  status : ∀ L, s.lcd.model = .reference L → r = .instruction →
    sb = L.statusByte ∧ t.lcd.model = .reference L.afterStatus ∧ t.draws.busy = s.draws.busy
      ∧ t.draws.senses = s.draws.senses
  data : ∀ L, s.lcd.model = .reference L → r = .data → ∃ L' d, t.lcd.model = .reference L'
    ∧ L.supply d = .ok (sb, L') ∧ ∀ x xs, s.draws.busy = x :: xs → d = x ∧ t.draws.busy = xs
  now : s.now + (s.timing.tAS + s.timing.tEHRD + s.timing.tH) ≤ t.now

theorem read_done {b : Bindings} {r : Register} {sb sb' : Byte} {s t : State}
    (he : s.pins.e = false) (h : microSteps b (readMicros s.timing r) sb s = .next (sb', t)) :
    ReadDone b r sb' s t := by
  rw [microSteps_read _ _ _ he] at h
  split at h
  · next v u hu =>
    injection h with h
    injection h with h1 h2
    subst h1 h2
    have hcase := lcdSupplies_cases hu
    have hev : u.trace = (s.raisedForRead b s.timing r).trace ∧ u.pins = (s.raisedForRead b s.timing r).pins
        ∧ u.handle = s.handle ∧ u.seq = s.seq ∧ u.timing = s.timing ∧ u.reply = s.reply ∧ u.calls = s.calls
        ∧ u.lcd.width = s.lcd.width ∧ u.now = (s.raisedForRead b s.timing r).now := by
      obtain ⟨-, -, rfl⟩ | ⟨L, -, -, -, rfl⟩ | ⟨L, L', -, -, -, rfl⟩ := hcase <;>
        simp [State.raisedForRead]
    obtain ⟨e1, e2, e3, e4, e5, e6, e7, e8, e9⟩ := hev
    refine ⟨?_, ?_, ?_, ?_, ?_, ?_, ?_, ?_, ?_, ?_, ?_, ?_⟩
    · simp only [State.lowered, State.stretched, readEvents]
      split <;> simp [State.events, e1, State.raisedForRead, rsLevel_eq]
    · simp [State.lowered, e2, State.raisedForRead, idleAfterRead, rsLevel_eq]
    · simpa [State.lowered] using e3
    · simpa [State.lowered] using e4
    · simpa [State.lowered] using e5
    · simpa [State.lowered] using e6
    · simpa [State.lowered] using e7
    · simpa [State.lowered] using e8
    · intro ho
      obtain ⟨-, hv, rfl⟩ | ⟨L, hL, -⟩ | ⟨L, L', hL, -⟩ := hcase
      · refine ⟨by simpa [State.lowered, State.UnderOracle, State.raisedForRead] using ho,
          by simp [State.lowered, State.raisedForRead], ?_⟩
        intro x xs hx
        have hx' : (s.raisedForRead b s.timing r).draws.senses = x :: xs := by
          simpa [State.raisedForRead] using hx
        exact ⟨hv.trans (sensed_of_cons hx'), by simpa [State.lowered] using dropSensed_of_cons hx'⟩
      all_goals
        have hL : s.lcd.model = .reference L := by simpa [State.raisedForRead] using hL
        rw [State.UnderOracle, hL] at ho
        cases ho
    · rintro L hs rfl
      obtain ⟨hm, -⟩ | ⟨L₀, hL, -, hv, rfl⟩ | ⟨L₀, L', hL, hrs, -⟩ := hcase
      · have hm : s.lcd.model = .oracle := by simpa [State.raisedForRead] using hm
        rw [hm] at hs
        cases hs
      · have hL : s.lcd.model = .reference L₀ := by simpa [State.raisedForRead] using hL
        rw [hL] at hs
        cases hs
        exact ⟨hv, by simp [State.lowered], by simp [State.lowered, State.raisedForRead],
          by simp [State.lowered, State.raisedForRead]⟩
      · cases hrs
    · rintro L hs rfl
      obtain ⟨hm, -⟩ | ⟨L₀, hL, hrs, -⟩ | ⟨L₀, L', hL, -, hsup, rfl⟩ := hcase
      · have hm : s.lcd.model = .oracle := by simpa [State.raisedForRead] using hm
        rw [hm] at hs
        cases hs
      · cases hrs
      · have hL : s.lcd.model = .reference L₀ := by simpa [State.raisedForRead] using hL
        rw [hL] at hs
        cases hs
        refine ⟨L', _, by simp [State.lowered], hsup, ?_⟩
        intro x xs hx
        have hx' : (s.raisedForRead b s.timing .data).draws.busy = x :: xs := by
          simpa [State.raisedForRead] using hx
        exact ⟨nextBusy_of_cons hx', by simpa [State.lowered] using dropBusy_of_cons hx'⟩
    · simp only [State.lowered, State.stretched]
      split <;> simp only [elapse_now, driveE_now, e9, State.raisedForRead, driveDir_now, driveRw_now,
        driveRs_now] <;> omega
  · cases h
  · cases h

/-- A read the controller answers completes. -/
theorem read_completes {b : Bindings} {r : Register} (sb : Byte) {s : State}
    (he : s.pins.e = false) (ha : s.LcdAnswers r) :
    ∃ sb' t, microSteps b (readMicros s.timing r) sb s = .next (sb', t) ∧ ReadDone b r sb' s t := by
  obtain ⟨⟨v, u⟩, hu⟩ := lcdSupplies_answers ha (s.raisedForRead b s.timing r) (by simp [State.raisedForRead])
  have h : microSteps b (readMicros s.timing r) sb s = .next (v, (u.elapse 0 (.input v)).lowered b s.timing) := by
    rw [microSteps_read _ _ _ he, hu]
  exact ⟨v, _, h, read_done he h⟩

/-! ## One block -/

/-- A block with a transfer in it runs only if Enable was low (40_bus_transport.md R72). -/
theorem block_found_low {b : Bindings} {bl : Block} {sb sb' : Byte} {s t : State} (hb : bl ≠ .setStartup)
    (h : microSteps b (Block.micros s.timing bl) sb s = .next (sb', t)) : s.pins.e = false := by
  cases he : s.pins.e with
  | false => rfl
  | true =>
    cases bl with
    | setStartup => exact absurd rfl hb
    | poll => simp [Block.micros, readMicros, microSteps, microStep, he] at h
    | read r => simp [Block.micros, readMicros, microSteps, microStep, he] at h
    | write r v => simp [Block.micros, writeMicros, microSteps, microStep, he] at h

/-- What a block makes of the controller's record of its bus width (10_state.md R29 (c)). -/
theorem block_width {b : Bindings} {bl : Block} {sb sb' : Byte} {s t : State}
    (h : microSteps b (Block.micros s.timing bl) sb s = .next (sb', t)) :
    t.lcd.width = match bl with
      | .write r v => latchWidth s.lcd.width (rsLevel r) v
      | .poll | .read _ | .setStartup => s.lcd.width := by
  cases bl with
  | setStartup =>
    simp only [Block.micros, microSteps, microStep] at h
    injection h with h
    injection h with _ h
    exact h ▸ rfl
  | poll => exact (read_done (r := .instruction) (block_found_low (by simp) h) h).width
  | read r => exact (read_done (block_found_low (by simp) h) h).width
  | write r v => exact (write_done (block_found_low (by simp) h) h).2.width

/-! ## Premises about the controller -/

theorem accepts_of_oracle {s : State} (h : s.UnderOracle) (r : Register) (v : Byte) : s.LcdAccepts r v :=
  fun L hL => by rw [State.UnderOracle, hL] at h; cases h

theorem answers_of_oracle {s : State} (h : s.UnderOracle) (r : Register) : s.LcdAnswers r :=
  fun L hL => by rw [State.UnderOracle, hL] at h; cases h

theorem answers_status (s : State) : s.LcdAnswers .instruction :=
  fun _ _ h => by cases h

/-! ## The poll -/

/-- A poll makes one status read; it waits where it senses bit 7 = 1 and goes on where it does not
(41_busy_sync.md R74). -/
theorem runBlocks_poll {b : Bindings} {i : Instr} {x : Extract} {k : Nat} {bls : List Block} {s : State}
    (he : s.pins.e = false) :
    ∃ sb t, ReadDone b .instruction sb s t ∧ ∀ sb₀, runBlocks b i x k (.poll :: bls) sb₀ s
      = if busyFlag sb then .next { t with seq := .at i k } else runBlocks b i x (k + 1) bls sb t := by
  obtain ⟨sb, t, h, hd⟩ := read_completes (b := b) (r := .instruction) 0 he (answers_status s)
  refine ⟨sb, t, hd, fun sb₀ => ?_⟩
  have h' : microSteps b (Block.micros s.timing .poll) sb₀ s = .next (sb, t) := by
    rw [← h]
    simp only [Block.micros]
    rw [microSteps_read _ _ _ he, microSteps_read _ _ _ he]
  simp only [runBlocks, h']
  cases busyFlag sb <;> simp

/-! ## Paced writes under the oracle -/

/-- What a row of paced writes leaves. -/
structure PacedDone (ws : List (Register × Byte)) (s t : State) : Prop where
  events : t.events = s.events ++ pacedEvents s.timing s.handle.startupComplete ws s.draws.senses
  pins : t.pins = pinsAfter s.pins ws
  handle : t.handle = s.handle
  seq : t.seq = s.seq
  timing : t.timing = s.timing
  reply : t.reply = s.reply
  calls : t.calls = s.calls
  oracle : t.UnderOracle

/-- The blocks of a row of paced writes. -/
def pacedBlocks (phase : Bool) (ws : List (Register × Byte)) : List Block :=
  ws.flatMap (fun w => pace phase ++ [.write w.1 w.2])

/-- Under the oracle a row of paced writes whose polls are clear runs through to what comes after it. -/
theorem runBlocks_paced {b : Bindings} {i : Instr} {x : Extract} (tail : List Block) :
    ∀ (ws : List (Register × Byte)) (k : Nat) (sb : Byte) (s : State),
      s.pins.e = false → s.UnderOracle → s.PollsClear ws.length →
      ∃ k' sb' t, runBlocks b i x k (pacedBlocks s.handle.startupComplete ws ++ tail) sb s
          = runBlocks b i x k' tail sb' t
        ∧ PacedDone ws s t ∧ t.pins.e = false
  | [], k, sb, s, he, ho, _ =>
    ⟨k, sb, s, rfl, ⟨by simp [pacedEvents], rfl, rfl, rfl, rfl, rfl, rfl, ho⟩, he⟩
  | w :: ws, k, sb, s, he, ho, hc => by
    cases hph : s.handle.startupComplete with
    | false =>
      obtain ⟨t, ht, hd⟩ := write_completes (b := b) (r := w.1) (v := w.2) sb he (accepts_of_oracle ho w.1 w.2)
      have het : t.pins.e = false := by rw [hd.pins]; rfl
      have hpt : t.handle.startupComplete = false := by rw [hd.handle, hph]
      obtain ⟨k', sb', u, hu, hdu, heu⟩ := runBlocks_paced tail ws (k + 1) sb t het (hd.oracle ho).1
        (fun h => by rw [hpt] at h; cases h)
      rw [hpt] at hu
      refine ⟨k', sb', u, ?_, ⟨?_, ?_, ?_, ?_, ?_, ?_, ?_, hdu.oracle⟩, heu⟩
      · simp only [pacedBlocks, List.flatMap_cons, pace, Bool.false_eq_true, if_false, List.nil_append,
          List.cons_append] at hu ⊢
        rw [runBlocks_cons_next ht (by intro h; cases h)]
        exact hu
      · rw [hdu.events, hd.events, hd.timing, hpt, hd.senses]
        simp [pacedEvents, hph]
      · rw [hdu.pins, hd.pins]; rfl
      · rw [hdu.handle, hd.handle]
      · rw [hdu.seq, hd.seq]
      · rw [hdu.timing, hd.timing]
      · rw [hdu.reply, hd.reply]
      · rw [hdu.calls, hd.calls]
    | true =>
      obtain ⟨hlen, hclear⟩ := hc hph
      cases hsen : s.draws.senses with
      | nil => rw [hsen] at hlen; simp at hlen
      | cons c cs =>
        rw [hsen] at hlen hclear
        simp only [List.length_cons, Nat.add_le_add_iff_right, List.take_succ_cons, List.mem_cons,
          forall_eq_or_imp] at hlen hclear
        obtain ⟨v, t, ht, hd⟩ := read_completes (b := b) (r := .instruction) sb he (answers_status s)
        obtain ⟨hot, -, hsens⟩ := hd.oracle ho
        obtain ⟨rfl, hcs⟩ := hsens c cs hsen
        have het : t.pins.e = false := by rw [hd.pins]; rfl
        obtain ⟨u, hu, hdu⟩ := write_completes (b := b) (r := w.1) (v := w.2) v het (accepts_of_oracle hot w.1 w.2)
        have heu : u.pins.e = false := by rw [hdu.pins]; rfl
        have hpu : u.handle.startupComplete = true := by rw [hdu.handle, hd.handle, hph]
        have hcu : u.draws.senses = cs := by rw [hdu.senses, hcs]
        obtain ⟨k', sb', z, hz, hdz, hez⟩ := runBlocks_paced tail ws (k + 1 + 1) v u heu (hdu.oracle hot).1
          (fun _ => ⟨by rw [hcu]; exact hlen, by rw [hcu]; exact hclear.2⟩)
        rw [hpu] at hz
        refine ⟨k', sb', z, ?_, ⟨?_, ?_, ?_, ?_, ?_, ?_, ?_, hdz.oracle⟩, hez⟩
        · simp only [pacedBlocks, List.flatMap_cons, pace, if_true, List.cons_append, List.nil_append] at hz ⊢
          rw [runBlocks_cons_next (bl := .poll) ht (fun _ => hclear.1), runBlocks_cons_next hu (by intro h; cases h)]
          exact hz
        · rw [hdz.events, hdu.events, hd.events, hdu.timing, hd.timing, hpu, hcu]
          simp [pacedEvents, hph, hsen]
        · rw [hdz.pins, hdu.pins]; rfl
        · rw [hdz.handle, hdu.handle, hd.handle]
        · rw [hdz.seq, hdu.seq, hd.seq]
        · rw [hdz.timing, hdu.timing, hd.timing]
        · rw [hdz.reply, hdu.reply, hd.reply]
        · rw [hdz.calls, hdu.calls, hd.calls]

/-! ## The two premises on polls -/

theorem pollsEnd_of_clear : ∀ (n : Nat) (bytes : List Byte), n ≤ bytes.length →
    (∀ sb ∈ bytes.take n, busyFlag sb = false) → PollsEnd n bytes
  | 0, _, _, _ => trivial
  | n + 1, [], h, _ => by simp at h
  | n + 1, sb :: rest, h, hc => by
    simp only [List.length_cons, Nat.add_le_add_iff_right, List.take_succ_cons, List.mem_cons, forall_eq_or_imp]
      at h hc
    exact ⟨[], sb, rest, rfl, by simp, hc.1, pollsEnd_of_clear n rest h hc.2⟩

theorem pollsEnd_of_pollsClear {n : Nat} {s : State} (hp : s.handle.startupComplete = true) (h : s.PollsClear n) :
    PollsEnd n s.draws.senses := pollsEnd_of_clear n _ (h hp).1 (h hp).2

/-- `BusyFalls` is kept by every step, and asks less of a shorter part of the stream. -/
theorem State.BusyFallsUntil.next {left : Nat} {s t : State} (h : s.BusyFallsUntil left) (hs : step s = .next t) :
    t.BusyFallsUntil left := fun n u i k hr => h (n + 1) u i k ((run_next hs).trans hr)

theorem State.BusyFallsUntil.mono {left more : Nat} {s : State} (h : s.BusyFallsUntil left) (hm : left ≤ more) :
    s.BusyFallsUntil more := fun n t i k hr hq hl => h n t i k hr hq (hm.trans hl)

end Sys2Proof.Machine
end

