-- ==== Sys2Proof/Tests/Slice0.lean ====
section
/-! SUPPORT. The model's own tests: ill-formed bindings, words and results from 95_test_vectors.md, and for each statement with hypotheses a state that meets them. -/

open Sys2Proof Sys2Proof.Machine

namespace Sys2Proof.Tests

/-! ## States and observations -/

/-- Port 1 is the data port (in and out), port 2 its direction, port 3 holds the three control lines. -/
def pins : Bindings where
  bus := { out := 1, inp := 1, dir := 2 }
  rs := { port := 3, bit := 0, inport := none }
  rw := { port := 3, bit := 1, inport := none }
  en := { port := 3, bit := 7, inport := none }

/-- A configured block whose bus carries `senses` at the coming reads; every event takes its minimum. -/
def ready (phase : Bool) (senses : List Byte) : State :=
  { State.reset with
    handle := { configured := true, startupComplete := phase, bindings := some pins }
    draws := { senses := senses, slack := List.replicate 200 0, busy := [], taken := 0 } }

/-- The responder at its start, with a blank CGRAM. -/
def blank : Responder := .start []

/-- The same block in front of the reference responder `L`, whose coming draws of `L.busy` are `draws`. -/
def facing (phase : Bool) (L : Responder) (draws : List Busy) : State :=
  { ready phase [] with
    lcd := { width := none, model := .reference L }
    draws := { senses := [], slack := List.replicate 200 0, busy := draws, taken := 0 } }

/-- The same block under an oracle that has latched its width, with calls to come. -/
def conforming (phase : Bool) (senses : List Byte) (calls : List Call) : State :=
  { ready phase senses with lcd := { width := some .eightBit, model := .oracle }, calls := calls }

/-- A controller in increment mode with its Address Counter in DDRAM; its cell 0 holds `c`, the others spaces. -/
def seenAt (processing : Bool) (ac : Addr7) (c : Byte) : Seen :=
  { processing := processing, ac := ac, space := .ddram, increment := true
    cell := fun sp n => if sp = .ddram ∧ n = 0 then c else 0x20 }

/-- What an outcome's state is, where there is one. -/
def after (o : Host.Outcome State Fault Refusal) : State :=
  match o with
  | .next s => s
  | .fault _ | .refused _ => State.reset

/-- The bus words of a trace: RS, RW and the byte, one for each byte driven or sensed. -/
def words : Bool → List Event → List (Bool × Bool × Byte)
  | _, [] => []
  | _, .rs v :: es => words v es
  | rs, .out b :: es => (rs, false, b) :: words rs es
  | rs, .input b :: es => (rs, true, b) :: words rs es
  | rs, .rw _ :: es => words rs es
  | rs, .e _ :: es => words rs es
  | rs, .dir _ :: es => words rs es
  | rs, .delay _ :: es => words rs es

/-- The bus words of one operation. -/
def bus (i : Instr) (s : State) : List (Bool × Bool × Byte) := words false (after (exec i s)).events

/-- `W I b`, `W D b`, `R I -> b`, `R D -> b` of 95_test_vectors.md. -/
def wi (b : Byte) : Bool × Bool × Byte := (false, false, b)
def wd (b : Byte) : Bool × Bool × Byte := (true, false, b)
def ri (b : Byte) : Bool × Bool × Byte := (false, true, b)
def rd (b : Byte) : Bool × Bool × Byte := (true, true, b)

/-- What an operation hands the host. -/
def replied (i : Instr) (s : State) : Option Reply := (after (exec i s)).reply

/-! ## Ill-formed terms: one for each check of `Bindings.wellFormed` -/

/-- `Configure` with the given bindings. -/
def configureAs (b : Bindings) : Instr :=
  .configure { out := b.bus.out, inp := b.bus.inp } b.bus.dir { rs := b.rs, rw := b.rw, enable := b.en }

theorem test_wellFormed_accepts : (configureAs pins).wellFormed = true := by rfl
theorem test_wellFormed_rs_is_rw : (configureAs { pins with rw := pins.rs }).wellFormed = false := by rfl
theorem test_wellFormed_rs_is_en : (configureAs { pins with en := pins.rs }).wellFormed = false := by rfl
theorem test_wellFormed_rw_is_en : (configureAs { pins with en := pins.rw }).wellFormed = false := by rfl
theorem test_wellFormed_rs_in_out :
    (configureAs { pins with bus := { out := 3, inp := 1, dir := 2 }, rw := { pins.rw with port := 4 }
                             en := { pins.en with port := 4 } }).wellFormed = false := by rfl
theorem test_wellFormed_rs_in_inp :
    (configureAs { pins with bus := { out := 1, inp := 3, dir := 2 }, rw := { pins.rw with port := 4 }
                             en := { pins.en with port := 4 } }).wellFormed = false := by rfl
theorem test_wellFormed_rs_in_dir :
    (configureAs { pins with rs := { pins.rs with port := 2 } }).wellFormed = false := by rfl
theorem test_wellFormed_rw_in_out :
    (configureAs { pins with rw := { pins.rw with port := 1 } }).wellFormed = false := by rfl
theorem test_wellFormed_rw_in_inp :
    (configureAs { pins with bus := { out := 1, inp := 4, dir := 2 }
                             rw := { pins.rw with port := 4 } }).wellFormed = false := by rfl
theorem test_wellFormed_rw_in_dir :
    (configureAs { pins with rw := { pins.rw with port := 2 } }).wellFormed = false := by rfl
theorem test_wellFormed_en_in_out :
    (configureAs { pins with en := { pins.en with port := 1 } }).wellFormed = false := by rfl
theorem test_wellFormed_en_in_inp :
    (configureAs { pins with bus := { out := 1, inp := 4, dir := 2 }
                             en := { pins.en with port := 4 } }).wellFormed = false := by rfl
theorem test_wellFormed_en_in_dir :
    (configureAs { pins with en := { pins.en with port := 2 } }).wellFormed = false := by rfl
theorem test_wellFormed_dir_is_out :
    (configureAs { pins with bus := { out := 1, inp := 4, dir := 1 } }).wellFormed = false := by rfl
theorem test_wellFormed_dir_is_inp :
    (configureAs { pins with bus := { out := 1, inp := 2, dir := 2 } }).wellFormed = false := by rfl

/-! ## Decoding: words written out from 30_encoding.md R51, R53 (RS, RW, DB7 to DB0) -/

theorem test_decode_clearDisplay : decode 0b00_0000_0001 = .ok .clearDisplay := by rfl
theorem test_decode_returnHome : decode 0b00_0000_0010 = .ok .returnHome := by rfl
theorem test_decode_setEntryMode : decode 0b00_0000_0101 = .ok (.setEntryMode false true) := by rfl
theorem test_decode_displayControl : decode 0b00_0000_1110 = .ok (.displayControl true true false) := by rfl
theorem test_decode_cursorDisplayShift : decode 0b00_0001_0100 = .ok (.cursorDisplayShift false true) := by rfl
theorem test_decode_functionSet :
    decode 0b00_0011_0100 = .ok (.functionSet .eightBit .oneLine .font5x10)
      ∧ decode 0b00_0010_1000 = .ok (.functionSet .fourBit .twoLines .font5x8) := by and_intros <;> rfl
theorem test_decode_setCGRAMAddress : decode 0b00_0111_1111 = .ok (.setCGRAMAddress 0x3F) := by rfl
theorem test_decode_setDisplayDataAddress : decode 0b00_1110_0111 = .ok (.setDisplayDataAddress 0x67) := by rfl
theorem test_decode_writeDataReg : decode 0b10_0100_1000 = .ok (.writeDataReg 0x48) := by rfl
theorem test_decode_readDataReg : decode 0b11_0000_0000 = .ok .readDataReg := by rfl
theorem test_decode_isBusy : decode 0b01_0000_0000 = .ok .isBusy := by rfl
/-- 30_encoding.md R59: no encoder operation produces these bytes, a raw write does. -/
theorem test_decode_writeLcd :
    [0x00, 0x03, 0x11, 0x21, 0x2C, 0x3C].all
      (fun n => decode n = .ok (.writeLcd .instruction (BitVec.ofNat 8 n))) = true := by rfl
theorem test_decode_wide : decode 0b100_0000_0000 = .error .notABusWord := by rfl

/-- The operations that own no bus word encode to the words 30_encoding.md R51 gives their transfers. -/
theorem test_encode_shared :
    encode .readAddressCounter = some 0b0100000000#10 ∧ encode .waitNotBusy = some 0b0100000000#10
      ∧ encode (.readLcd .data) = some 0b1100000000#10 ∧ encode (.writeLcd .data 0x41) = some 0b1001000001#10
      ∧ encode (configureAs pins) = none ∧ encode (.mapAddress 1 0) = none ∧ encode (.clearCell 1 0) = none
      ∧ encode (.writeAt [] 1 0 0) = none ∧ encode (.writeLine [] 1) = none := by and_intros <;> rfl

/-- The word is fetched from the head of the host's stream and run. -/
theorem test_fetchWord :
    words false (after (step ((ready false []).withFetchWord 10 0b00_0011_1000))).events = [wi 0x38] := by rfl

/-! ## Bus Transport (95_test_vectors.md section 2.1) -/

/-- T1, with its time stamps. -/
theorem test_writeLcd_T1 :
    (after (exec (.writeLcd .instruction 0x38) (ready false []))).trace.map (fun x => (x.event, x.start, x.stop))
      = [(.rs false, 0, 0), (.rw false, 0, 0), (.delay 40, 0, 40), (.dir .drive, 40, 40), (.out 0x38, 40, 40),
         (.e true, 40, 40), (.delay 230, 40, 270), (.e false, 270, 270), (.delay 10, 270, 280),
         (.rw true, 280, 280)] := by rfl

/-- T2 and T1's last line of pins. -/
theorem test_writeLcd_T2 :
    bus (.writeLcd .data 0x41) (ready true []) = [wd 0x41]
      ∧ (after (exec (.writeLcd .data 0x41) (ready true []))).pins
        = { rs := true, rw := true, e := false, dbOut := 0x41, dir := .drive } := by and_intros <;> rfl

/-- T3, with its time stamps. -/
theorem test_readLcd_T3 :
    (after (exec (.readLcd .instruction) (ready false [0x85]))).trace.map (fun x => (x.event, x.start, x.stop))
      = [(.rs false, 0, 0), (.rw true, 0, 0), (.delay 40, 0, 40), (.dir .sense, 40, 40), (.e true, 40, 40),
         (.delay 150, 40, 190), (.input 0x85, 190, 190), (.e false, 190, 190), (.delay 10, 190, 200)]
      ∧ replied (.readLcd .instruction) (ready false [0x85]) = some { status := .ok, value := .byte 0x85 } := by
  and_intros <;> rfl

/-- T5: `T_EH_RD` = 230 adds a wait of 80 between the sample and the fall of Enable. -/
theorem test_readLcd_T5 :
    (after (exec (.readLcd .data)
      { ready false [0x85] with timing := { Config.timing with tEHRD := 230 } })).trace.map
        (fun x => (x.event, x.start, x.stop))
      = [(.rs true, 0, 0), (.rw true, 0, 0), (.delay 40, 0, 40), (.dir .sense, 40, 40), (.e true, 40, 40),
         (.delay 150, 40, 190), (.input 0x85, 190, 190), (.delay 80, 190, 270), (.e false, 270, 270),
         (.delay 10, 270, 280)] := by rfl

/-! ## Busy synchronizer (section 2.2) -/

/-- The table of section 2.2. -/
def statusTable : List (Byte × Bool × Addr7) :=
  [(0x00, false, 0x00), (0x7F, false, 0x7F), (0x80, true, 0x00), (0x85, true, 0x05), (0xC3, true, 0x43),
   (0x43, false, 0x43), (0xFF, true, 0x7F), (0x01, false, 0x01)]

theorem test_isBusy_table :
    statusTable.map (fun r => replied .isBusy (ready true [r.1]))
      = statusTable.map (fun r => some { status := .ok, value := .bit r.2.1 }) := by rfl

theorem test_readAddressCounter_table :
    statusTable.map (fun r => replied .readAddressCounter (ready true [r.1]))
      = statusTable.map (fun r => some { status := .ok, value := .address r.2.2 }) := by rfl

/-- B1, its first read: the loop is still at its poll. -/
theorem test_waitNotBusy_B1 :
    (after (exec .waitNotBusy (ready true [0x80, 0xA7, 0xFF, 0x27]))).seq = .at .waitNotBusy 0
      ∧ bus .waitNotBusy (ready true [0x80, 0xA7, 0xFF, 0x27]) = [ri 0x80] := by and_intros <;> rfl

/-- B2: one status read, in either phase. -/
theorem test_waitNotBusy_B2 :
    (after (exec .waitNotBusy (ready false [0x00]))).seq = .idle ∧ bus .waitNotBusy (ready false [0x00]) = [ri 0x00] := by
  and_intros <;> rfl

/-! ## Instruction Encoder (section 2.3) -/

/-- The table of section 2.3, the commands with two-valued parameters. -/
def entryModeTable : List (Instr × Byte) :=
  [(.clearDisplay, 0x01), (.returnHome, 0x02),
   (.setEntryMode false false, 0x04), (.setEntryMode false true, 0x05), (.setEntryMode true false, 0x06),
   (.setEntryMode true true, 0x07)]

def displayTable : List (Instr × Byte) :=
  [(.displayControl false false false, 0x08), (.displayControl false false true, 0x09),
   (.displayControl false true false, 0x0A), (.displayControl false true true, 0x0B),
   (.displayControl true false false, 0x0C), (.displayControl true false true, 0x0D),
   (.displayControl true true false, 0x0E), (.displayControl true true true, 0x0F)]

def shiftTable : List (Instr × Byte) :=
  [(.cursorDisplayShift false false, 0x10), (.cursorDisplayShift false true, 0x14),
   (.cursorDisplayShift true false, 0x18), (.cursorDisplayShift true true, 0x1C)]

def functionSetRows : List (Instr × Byte) :=
  [(.functionSet .fourBit .oneLine .font5x8, 0x20), (.functionSet .fourBit .oneLine .font5x10, 0x24),
   (.functionSet .fourBit .twoLines .font5x8, 0x28), (.functionSet .fourBit .twoLines .font5x10, 0x28),
   (.functionSet .eightBit .oneLine .font5x8, 0x30), (.functionSet .eightBit .oneLine .font5x10, 0x34),
   (.functionSet .eightBit .twoLines .font5x8, 0x38), (.functionSet .eightBit .twoLines .font5x10, 0x38)]

def encoderTable : List (Instr × Byte) := entryModeTable ++ displayTable ++ shiftTable ++ functionSetRows

/-- The same table, the address commands: field, address, byte. -/
def cgramTable : List (Instr × Byte) :=
  [(.setCGRAMAddress 0x00, 0x40), (.setCGRAMAddress 0x08, 0x48), (.setCGRAMAddress 0x3F, 0x7F),
   (.setCGRAMAddress 0x40, 0x40), (.setCGRAMAddress 0x7F, 0x7F), (.setCGRAMAddress 0xFF, 0x7F),
   (.setCGRAMAddress 0x100, 0x40)]

def ddramTable : List (Instr × Byte) :=
  [(.setDisplayDataAddress 0x00, 0x80), (.setDisplayDataAddress 0x01, 0x81), (.setDisplayDataAddress 0x0F, 0x8F),
   (.setDisplayDataAddress 0x10, 0x90), (.setDisplayDataAddress 0x27, 0xA7), (.setDisplayDataAddress 0x28, 0xA8),
   (.setDisplayDataAddress 0x40, 0xC0), (.setDisplayDataAddress 0x43, 0xC3)]

def ddramTable2 : List (Instr × Byte) :=
  [(.setDisplayDataAddress 0x50, 0xD0), (.setDisplayDataAddress 0x67, 0xE7), (.setDisplayDataAddress 0x7F, 0xFF),
   (.setDisplayDataAddress 0x80, 0x80), (.setDisplayDataAddress 0xFF, 0xFF), (.setDisplayDataAddress 0x143, 0xC3)]

def addressTable : List (Instr × Byte) := cgramTable ++ ddramTable ++ ddramTable2

/-- E1: in phase 0 each call is one write of its byte. -/
theorem test_encoder_table :
    encoderTable.map (fun r => bus r.1 (ready false [])) = encoderTable.map (fun r => [wi r.2]) := by rfl
theorem test_address_table :
    addressTable.map (fun r => bus r.1 (ready false [])) = addressTable.map (fun r => [wi r.2]) := by rfl

/-- E2: in phase 1 the status read comes first. -/
theorem test_clearDisplay_E2 : bus .clearDisplay (ready true [0x00]) = [ri 0x00, wi 0x01] := by rfl

/-- E4: the first Function Set does not poll, and ends phase 0. -/
theorem test_functionSet_E4 :
    (after (exec (.functionSet .eightBit .twoLines .font5x8) (ready false []))).handle.startupComplete = true
      ∧ bus (.functionSet .eightBit .twoLines .font5x8) (ready false [0x00]) = [wi 0x38] := by and_intros <;> rfl

/-! ## Data register, Configure (section 2.4) -/

/-- A1, the second status read and the write, from the poll that saw 0x80. -/
theorem test_writeDataReg_A1 :
    words false (after (step { ready true [0x00] with seq := .at (.writeDataReg 0x48) 0 })).events
      = [ri 0x00, wd 0x48] := by rfl

/-- A2. -/
theorem test_writeDataReg_A2 : bus (.writeDataReg 0x48) (ready false [0x80]) = [wd 0x48] := by rfl

/-- A4. -/
theorem test_readDataReg_A4 :
    bus .readDataReg (ready true [0x00, 0x48]) = [ri 0x00, rd 0x48]
      ∧ replied .readDataReg (ready true [0x00, 0x48]) = some { status := .ok, value := .byte 0x48 } := by and_intros <;> rfl

/-- A7. -/
theorem test_configure_A7 :
    (after (exec (configureAs pins) State.reset)).handle
        = { configured := true, startupComplete := false, bindings := some pins }
      ∧ (after (exec (configureAs pins) State.reset)).trace = [] := by and_intros <;> rfl

/-- A8: a second `Configure`. -/
theorem test_configure_A8 : exec (configureAs pins) (ready true []) = .refused .configuredTwice := by rfl

/-! ## Text Positioning (section 2.5) -/

theorem test_mapAddress :
    [(1, 0), (1, 16), (2, 0), (2, 3), (2, 16)].map (fun r => replied (.mapAddress r.1 r.2) State.reset)
      = [0x00, 0x10, 0x40, 0x43, 0x50].map (fun a => some { status := .ok, value := .address a }) := by rfl

theorem test_mapAddress_none :
    [(0, 0), (3, 0), (1, 17), (2, 255), (0, 17)].map (fun r => replied (.mapAddress r.1 r.2) State.reset)
      = List.replicate 5 (some { status := .ok, value := .nothing }) := by rfl

/-- X1, X2, X3. -/
theorem test_clearCell :
    bus (.clearCell 2 3) (ready false []) = [wi 0xC3, wd 0x20]
      ∧ bus (.clearCell 1 16) (ready false []) = [wi 0x90, wd 0x20]
      ∧ replied (.clearCell 1 17) (ready false []) = some { status := .outOfRange, value := .nothing } := by and_intros <;> rfl

/-- X4, X5, X7, X9. -/
theorem test_writeAt :
    bus (.writeAt [0x48, 0x69] 2 3 2) (ready false [])
        = [wi 0xC3, wd 0x20, wi 0xC4, wd 0x20, wi 0xC3, wd 0x48, wd 0x69]
      ∧ bus (.writeAt [] 1 16 0) (ready false []) = [wi 0x90]
      ∧ bus (.writeAt [0x41, 0x42, 0x43, 0x44, 0x45, 0x46] 1 10 0) (ready false [])
        = [wi 0x8A, wd 0x41, wd 0x42, wd 0x43, wd 0x44, wd 0x45, wd 0x46]
      ∧ bus (.writeAt [0x41] 1 15 4) (ready false []) = [wi 0x8F, wd 0x20, wi 0x90, wd 0x20, wi 0x8F, wd 0x41] := by
  and_intros <;> rfl

/-- X6, X10, X11, X12. -/
theorem test_writeAt_rejected :
    replied (.writeAt [0x41] 1 16 0) (ready false []) = some { status := .tooLong, value := .nothing }
      ∧ replied (.writeAt [0x41] 0 0 1) (ready false []) = some { status := .outOfRange, value := .nothing }
      ∧ replied (.writeAt (List.replicate 17 0x31) 1 17 0) (ready false [])
        = some { status := .outOfRange, value := .nothing }
      ∧ replied (.writeAt (List.replicate 17 0x31) 1 17 0) State.reset
        = some { status := .notConfigured, value := .nothing } := by and_intros <;> rfl

/-- The write a bus word of the tables stands for. -/
def blockOf (w : Bool × Bool × Byte) : Block := .write (if w.1 then .data else .instruction) w.2.2

/-- X13. -/
theorem test_writeLine_X13 :
    (planWriteLine [] 1 false).blocks
      = ([wi 0x80, wd 0x20, wi 0x81, wd 0x20, wi 0x82, wd 0x20, wi 0x83, wd 0x20, wi 0x84, wd 0x20, wi 0x85, wd 0x20,
          wi 0x86, wd 0x20, wi 0x87, wd 0x20]
        ++ [wi 0x88, wd 0x20, wi 0x89, wd 0x20, wi 0x8A, wd 0x20, wi 0x8B, wd 0x20, wi 0x8C, wd 0x20, wi 0x8D,
            wd 0x20, wi 0x8E, wd 0x20, wi 0x8F, wd 0x20, wi 0x80]).map blockOf := by rfl

/-- X14: 16 bytes fit, in 49 paced operations; 17 do not. -/
theorem test_writeLine_X14 :
    (planWriteLine (List.replicate 16 0x30) 2 false).blocks.length = 49
      ∧ replied (.writeLine (List.replicate 17 0x30) 2) (ready false [])
        = some { status := .tooLong, value := .nothing } := by and_intros <;> rfl

/-! ## Witnesses: for each statement with hypotheses, states and operands that meet them, at the ends of its ranges -/

theorem ready_meets (phase : Bool) (senses : List Byte) :
    (ready phase senses).CleanEntry ∧ (ready phase senses).ConfiguredWith pins ∧ (ready phase senses).UnderOracle :=
  ⟨⟨rfl, rfl⟩, ⟨rfl, rfl⟩, rfl⟩

theorem facing_meets (phase : Bool) (L : Responder) (draws : List Busy) :
    (facing phase L draws).CleanEntry ∧ (facing phase L draws).ConfiguredWith pins
      ∧ (facing phase L draws).lcd.model = .reference L :=
  ⟨⟨rfl, rfl⟩, ⟨rfl, rfl⟩, rfl⟩

/-- In phase 0 no poll is asked for; in phase 1 the bus carries as many clear bytes as there are polls. -/
theorem polls_phase0 (n : Nat) : (ready false []).PollsClear n := fun h => by cases h
theorem polls_phase1 : (ready true [0x7F, 0x00]).PollsClear 2 := fun _ => ⟨by decide, by decide⟩
theorem polls_one : (ready true [0x7F]).PollsClear 1 := fun _ => ⟨by decide, by decide⟩

/-- The reset state is an unconfigured, idle block. -/
theorem reset_unconfigured : State.reset.seq = .idle ∧ State.reset.handle.configured = false := ⟨rfl, rfl⟩

theorem witness_DecodeInvertsEncode :
    Instr.ownsItsWord (.setDisplayDataAddress 0x7F) = true
      ∧ encode (.setDisplayDataAddress 0x7F) = some 0b0011111111#10
      ∧ Instr.ownsItsWord (.functionSet .eightBit .twoLines .font5x10) = true
      ∧ encode (.functionSet .eightBit .twoLines .font5x10) = some 0b0000111000#10
      ∧ Instr.ownsItsWord (.writeLcd .instruction 0x3C) = true
      ∧ encode (.writeLcd .instruction 0x3C) = some 0b0000111100#10 := by decide

theorem witness_FormatsDoNotOverlap :
    encodeInstructionByte (.setCGRAMAddress 0x40) = some 0x40 ∧ encodeInstructionByte (.setCGRAMAddress 0) = some 0x40 := by
  decide

theorem witness_MeaningsPutTheirEncodingOnTheBus :
    Paced (.writeDataReg 0x48) = true ∧ encode (.writeDataReg 0x48) = some 0b1001001000#10
      ∧ (0b1001001000#10).getLsbD 8 = false ∧ (ready true [0x7F]).CleanEntry ∧ (ready true [0x7F]).ConfiguredWith pins
      ∧ (ready true [0x7F]).UnderOracle ∧ (ready true [0x7F]).PollsClear 1 :=
  ⟨rfl, by decide, by decide, (ready_meets _ _).1, (ready_meets _ _).2.1, (ready_meets _ _).2.2, polls_one⟩

/-- The reference responder accepts data at 0x27, 0x40 and 0x67 and in CGRAM, and the oracle accepts anything. -/
theorem witness_WriteLcdFollowsItsSteps :
    (∀ a ∈ [0x00#7, 0x27#7, 0x40#7, 0x67#7], (facing true { blank with ac := a } []).LcdAccepts .data 0x41)
      ∧ (facing true { blank with ac := 0x3F, space := .cgram } []).LcdAccepts .data 0x41
      ∧ (facing true blank []).LcdAccepts .instruction 0x38
      ∧ (ready false []).LcdAccepts .instruction 0x00
      ∧ (ready false []).CleanEntry ∧ (ready false []).ConfiguredWith pins := by
  refine ⟨?_, fun L h => ?_, fun L h => ?_, fun L h => (by cases h), ⟨rfl, rfl⟩, ⟨rfl, rfl⟩⟩
  · rintro a ha L h
    cases h
    exact .inr (by revert ha; revert a; decide)
  · cases h
    exact .inl rfl
  · cases h
    decide

theorem witness_ReadLcdFollowsItsSteps :
    (facing true { blank with ac := 0x67 } []).LcdAnswers .data ∧ (facing true { blank with ac := 0x28 } []).LcdAnswers .instruction
      ∧ (ready false [0x85]).LcdAnswers .data ∧ (ready false [0x85]).CleanEntry
      ∧ (ready false [0x85]).ConfiguredWith pins ∧ (ready false [0x85]).UnderOracle := by
  refine ⟨fun L h _ => ?_, fun L _ h => (by cases h), fun L h => (by cases h), ⟨rfl, rfl⟩, ⟨rfl, rfl⟩, rfl⟩
  cases h
  exact .inr (by decide)

theorem witness_TransfersLeaveTheIdleState :
    IsTransfer (.writeLcd .data 0x41) = true ∧ IsTransfer (.readLcd .instruction) = true
      ∧ (ready false []).CleanEntry ∧ (ready false []).ConfiguredWith pins ∧ (ready false []).UnderOracle
      ∧ (∃ t, exec (.writeLcd .data 0x41) (ready false []) = .next t)
      ∧ ∃ t, exec (.readLcd .instruction) (ready false []) = .next t :=
  ⟨rfl, rfl, ⟨rfl, rfl⟩, ⟨rfl, rfl⟩, rfl, ⟨_, rfl⟩, ⟨_, rfl⟩⟩

theorem witness_WriteTimingHolds :
    (ready true []).CleanEntry ∧ (ready true []).ConfiguredWith pins
      ∧ ∃ t, exec (.writeLcd .instruction 0x38) (ready true []) = .next t :=
  ⟨⟨rfl, rfl⟩, ⟨rfl, rfl⟩, ⟨_, rfl⟩⟩

/-- And an operation that comes next and makes an event. -/
theorem witness_ReadTimingHolds :
    (ready true [0x85]).CleanEntry ∧ (ready true [0x85]).ConfiguredWith pins
      ∧ ∃ t u x rest, exec (.readLcd .data) (ready true [0x85]) = .next t
        ∧ exec (.writeLcd .data 0x41) t = .next u ∧ u.trace = t.trace ++ x :: rest :=
  ⟨⟨rfl, rfl⟩, ⟨rfl, rfl⟩, ⟨_, _, _, _, rfl, rfl, rfl⟩⟩

theorem witness_TransfersTakeTheirTime :
    (ready false [0x85]).CleanEntry ∧ (ready false [0x85]).ConfiguredWith pins
      ∧ (∃ t, exec (.writeLcd .data 0x00) (ready false [0x85]) = .next t)
      ∧ ∃ t, exec (.readLcd .data) (ready false [0x85]) = .next t :=
  ⟨⟨rfl, rfl⟩, ⟨rfl, rfl⟩, ⟨_, rfl⟩, ⟨_, rfl⟩⟩

theorem witness_EnableHighIsRefused :
    let s := { ready true [] with pins := { State.reset.pins with e := true } }
    StartsATransfer .clearDisplay = true ∧ StartsATransfer (.readLcd .data) = true
      ∧ AcceptedText (.clearCell 1 16) = true ∧ AcceptedText (.writeAt [] 2 16 0) = true
      ∧ AcceptedText (.writeLine (List.replicate 16 0) 1) = true
      ∧ s.seq = .idle ∧ s.ConfiguredWith pins ∧ s.pins.e = true :=
  ⟨rfl, rfl, by decide, by decide, by decide, rfl, ⟨rfl, rfl⟩, rfl⟩

theorem witness_IsBusyReportsBit7 :
    (ready true [0xFF]).CleanEntry ∧ (ready true [0xFF]).ConfiguredWith pins ∧ (ready true [0xFF]).UnderOracle
      ∧ (ready true [0xFF]).draws.senses = [0xFF] ∧ State.reset.seq = .idle ∧ State.reset.handle.configured = false :=
  ⟨⟨rfl, rfl⟩, ⟨rfl, rfl⟩, rfl, rfl, rfl, rfl⟩

/-- B1 of 95_test_vectors.md for the second clause, with the loop's calls. -/
theorem witness_WaitNotBusyPollsUntilClear :
    let s := { ready false [0x80, 0xA7, 0xFF, 0x27] with calls := [.op .waitNotBusy] }
    (ready false [0x7F]).draws.senses = 0x7F :: [] ∧ busyFlag 0x7F = false
      ∧ s.CleanEntry ∧ s.ConfiguredWith pins ∧ s.UnderOracle ∧ s.calls = .op .waitNotBusy :: []
      ∧ s.draws.senses = [0x80, 0xA7, 0xFF] ++ 0x27 :: [] ∧ (∀ x ∈ [0x80, 0xA7, 0xFF], busyFlag x = true)
      ∧ busyFlag 0x27 = false :=
  ⟨rfl, rfl, ⟨rfl, rfl⟩, ⟨rfl, rfl⟩, rfl, rfl, rfl, by decide, rfl⟩

theorem witness_PacedOperationsWaitWhileBusy :
    let s := { ready true [0x80] with seq := .at (.writeDataReg 0x48) 0 }
    Paced (.writeDataReg 0x48) = true ∧ busyFlag 0x80 = true
      ∧ ((ready true [0x80]).seq = .idle ∧ (ready true [0x80]).pins.e = false ∧ (ready true [0x80]).ConfiguredWith pins
        ∧ (ready true [0x80]).UnderOracle ∧ (ready true [0x80]).handle.startupComplete = true
        ∧ (ready true [0x80]).draws.senses = 0x80 :: [])
      ∧ s.seq = .at (.writeDataReg 0x48) 0 ∧ s.pins.e = false ∧ s.ConfiguredWith pins ∧ s.UnderOracle
      ∧ s.handle.startupComplete = true ∧ s.draws.senses = 0x80 :: [] :=
  ⟨rfl, rfl, ⟨rfl, rfl, ⟨rfl, rfl⟩, rfl, rfl, rfl⟩, rfl, rfl, ⟨rfl, rfl⟩, rfl, rfl, rfl⟩

/-- Any number of steps with the flag stuck in front of a paced command in phase 1; the bytes of the oracle, in
front of `WaitNotBusy` in phase 0; and a text call. -/
theorem witness_StuckBusyFlagHangs :
    (∀ n : Nat,
      let L := { blank with busy := .forever }
      let s := { facing true L [] with calls := [.op .clearDisplay, .op .returnHome] }
      Paced .clearDisplay = true ∧ s.handle.startupComplete = true ∧ s.CleanEntry ∧ s.ConfiguredWith pins
        ∧ s.calls = .op .clearDisplay :: [.op .returnHome] ∧ s.PresentsBusy (0x80 :: List.replicate n 0x80))
    ∧ (let s := { ready false [0x80, 0xFF, 0x00] with calls := [.op .waitNotBusy] }
      s.CleanEntry ∧ s.ConfiguredWith pins ∧ s.PresentsBusy [0x80, 0xFF])
    ∧ AcceptedText (.writeAt [] 2 16 0) = true ∧ AcceptedText (.writeLine (List.replicate 16 0) 1) = true
    ∧ AcceptedText (.clearCell 1 16) = true := by
  refine ⟨fun n => ⟨rfl, rfl, ⟨rfl, rfl⟩, ⟨rfl, rfl⟩, rfl, ?_⟩, ⟨⟨rfl, rfl⟩, ⟨rfl, rfl⟩, ?_⟩, by decide, by decide, by decide⟩
  · have h : ∀ x ∈ (0x80 : Byte) :: List.replicate n 0x80, x = 0x80 := by simp
    exact ⟨fun x hx => by rw [h x hx]; decide, .inr ⟨_, rfl, rfl, fun x hx => by rw [h x hx]; decide⟩⟩
  · exact ⟨by decide, .inl ⟨rfl, [0x00], rfl⟩⟩

/-- With `n` = 0, and with `n` = 3: a write at an address, and a data read at the end of line 1 and in CGRAM. -/
theorem witness_FallingBusyFlagEndsThePoll :
    (∀ n ∈ [0, 3],
      let L := { blank with busy := .polls n }
      let s := { facing true L [] with calls := [.op (.setDisplayDataAddress 0x43)] }
      s.CleanEntry ∧ s.ConfiguredWith pins ∧ s.handle.startupComplete = true ∧ s.lcd.model = .reference L
        ∧ L.busy = .polls n
        ∧ Paced (.setDisplayDataAddress 0x43) = true ∧ encode (.setDisplayDataAddress 0x43) = some 0b0011000011#10
        ∧ (0b0011000011#10).getLsbD 8 = false ∧ (0b0011000011#10).getLsbD 9 = false
        ∧ s.LcdAccepts .instruction ((0b0011000011#10).extractLsb' 0 8))
    ∧ ∀ n ∈ [0, 3], ∀ a ∈ [(0x27#7, Space.ddram), (0x3F#7, Space.cgram)],
      let L := { blank with busy := .polls n, ac := a.1, space := a.2 }
      let s := { facing true L [] with calls := [.op .readDataReg] }
      s.CleanEntry ∧ s.ConfiguredWith pins ∧ s.handle.startupComplete = true ∧ s.lcd.model = .reference L
        ∧ L.busy = .polls n ∧ s.calls = .op .readDataReg :: [] ∧ s.LcdAnswers .data := by
  refine ⟨fun n _ => ⟨⟨rfl, rfl⟩, ⟨rfl, rfl⟩, rfl, rfl, rfl, rfl, by decide, by decide, by decide, fun L h => ?_⟩,
    fun n _ a ha => ⟨⟨rfl, rfl⟩, ⟨rfl, rfl⟩, rfl, rfl, rfl, rfl, fun L h _ => ?_⟩⟩
  · cases h
    exact ⟨by decide, by decide⟩
  · cases h
    have key : ∀ a ∈ [(0x27#7, Space.ddram), (0x3F#7, Space.cgram)], a.2 = Space.cgram ∨ inLineRange a.1 = true := by
      decide
    exact key a ha

/-- Issued, and going on from the poll of block 2. -/
theorem witness_PacedOperationsNeverViolate :
    let s := { facing true blank [.polls 0, .polls 0] with seq := .at (.clearCell 2 3) 2 }
    IsTransfer (.clearCell 2 3) = false
      ∧ ((facing true blank [.polls 0, .polls 0]).handle.startupComplete = true
        ∧ ∃ t, exec (.clearCell 2 3) (facing true blank [.polls 0, .polls 0]) = .next t)
      ∧ s.handle.startupComplete = true ∧ s.lcd.model = .reference blank ∧ s.seq = .at (.clearCell 2 3) 2
      ∧ (planOf (.clearCell 2 3) true).blocks[2]? = some .poll ∧ ∃ t, step s = .next t :=
  ⟨rfl, ⟨rfl, ⟨_, rfl⟩⟩, rfl, rfl, rfl, by decide, ⟨_, rfl⟩⟩

theorem witness_ClearAndHomeIssueTheirBytes :
    (ready true [0x7F]).CleanEntry ∧ (ready true [0x7F]).ConfiguredWith pins ∧ (ready true [0x7F]).UnderOracle
      ∧ (ready true [0x7F]).PollsClear 1 :=
  ⟨⟨rfl, rfl⟩, ⟨rfl, rfl⟩, rfl, polls_one⟩

theorem witness_ModeCommandsPackTheirBits :
    (ready false []).CleanEntry ∧ (ready false []).ConfiguredWith pins ∧ (ready false []).UnderOracle
      ∧ (ready false []).PollsClear 1 :=
  ⟨⟨rfl, rfl⟩, ⟨rfl, rfl⟩, rfl, polls_phase0 1⟩

/-- In phase 0, where it does not poll; in phase 1; and on the unconfigured block. -/
theorem witness_FunctionSetPacksAndMarksThePhase :
    ((ready false []).CleanEntry ∧ (ready false []).ConfiguredWith pins ∧ (ready false []).UnderOracle
        ∧ (ready false []).PollsClear 1)
      ∧ ((ready true [0x7F]).CleanEntry ∧ (ready true [0x7F]).ConfiguredWith pins ∧ (ready true [0x7F]).UnderOracle
        ∧ (ready true [0x7F]).PollsClear 1)
      ∧ State.reset.seq = .idle ∧ State.reset.handle.configured = false :=
  ⟨⟨⟨rfl, rfl⟩, ⟨rfl, rfl⟩, rfl, polls_phase0 1⟩, ⟨⟨rfl, rfl⟩, ⟨rfl, rfl⟩, rfl, polls_one⟩, rfl, rfl⟩

theorem witness_AddressCommandsMaskTheirAddress :
    (ready true [0x7F]).CleanEntry ∧ (ready true [0x7F]).ConfiguredWith pins ∧ (ready true [0x7F]).UnderOracle
      ∧ (ready true [0x7F]).PollsClear 1 :=
  ⟨⟨rfl, rfl⟩, ⟨rfl, rfl⟩, rfl, polls_one⟩

theorem witness_WriteDataRegSendsTheByte :
    (ready true [0x7F]).CleanEntry ∧ (ready true [0x7F]).ConfiguredWith pins ∧ (ready true [0x7F]).UnderOracle
      ∧ (ready true [0x7F]).PollsClear 1 :=
  ⟨⟨rfl, rfl⟩, ⟨rfl, rfl⟩, rfl, polls_one⟩

/-- A4 of 95_test_vectors.md in phase 1, and phase 0. -/
theorem witness_ReadDataRegReturnsTheByte :
    ((ready true [0x00, 0x48]).CleanEntry ∧ (ready true [0x00, 0x48]).ConfiguredWith pins
        ∧ (ready true [0x00, 0x48]).UnderOracle ∧ (ready true [0x00, 0x48]).draws.senses = [0x00] ++ 0x48 :: []
        ∧ [0x00#8].length = (ready true [0x00, 0x48]).handle.startupComplete.toNat
        ∧ ∀ x ∈ [0x00#8], busyFlag x = false)
      ∧ (ready false [0x48]).CleanEntry ∧ (ready false [0x48]).ConfiguredWith pins ∧ (ready false [0x48]).UnderOracle
      ∧ (ready false [0x48]).draws.senses = [] ++ 0x48 :: []
      ∧ ([] : List Byte).length = (ready false [0x48]).handle.startupComplete.toNat :=
  ⟨⟨⟨rfl, rfl⟩, ⟨rfl, rfl⟩, rfl, rfl, rfl, by decide⟩, ⟨rfl, rfl⟩, ⟨rfl, rfl⟩, rfl, rfl, rfl⟩

theorem witness_ReadAddressCounterDropsBit7 :
    (ready true [0xC3]).CleanEntry ∧ (ready true [0xC3]).ConfiguredWith pins ∧ (ready true [0xC3]).UnderOracle
      ∧ (ready true [0xC3]).draws.senses = [0xC3] ∧ State.reset.seq = .idle ∧ State.reset.handle.configured = false :=
  ⟨⟨rfl, rfl⟩, ⟨rfl, rfl⟩, rfl, rfl, rfl, rfl⟩

/-- Each clause: a first call, overlapping bindings, a second call. -/
theorem witness_ConfigureBindsTheHandleOnce :
    (State.reset.seq = .idle ∧ State.reset.handle.configured = false)
      ∧ (configureAs pins).wellFormed = true ∧ (configureAs { pins with rw := pins.rs }).wellFormed = false
      ∧ (ready false []).seq = .idle ∧ (ready false []).handle.configured = true :=
  ⟨⟨rfl, rfl⟩, rfl, rfl, rfl, rfl⟩

/-- Each clause at the ends of the ranges. -/
theorem witness_MapAddressComputes :
    State.reset.seq = .idle
      ∧ (∀ r ∈ [(1, 0), (1, 16), (2, 0), (2, 16)], (r.1 = 1 ∨ r.1 = 2) ∧ r.2 ≤ 16)
      ∧ ∀ r ∈ [(0, 0), (3, 0), (1, 17), (2, 17)], ¬((r.1 = 1 ∨ r.1 = 2) ∧ r.2 ≤ 16) := by decide

/-- Each clause: the last cell with two clear polls, the first position out of range, a busy second poll. -/
theorem witness_ClearCellWritesASpace :
    ((2 = 1 ∨ 2 = 2) ∧ 16 ≤ 16 ∧ (ready true [0x7F, 0x00]).CleanEntry ∧ (ready true [0x7F, 0x00]).ConfiguredWith pins
        ∧ (ready true [0x7F, 0x00]).UnderOracle ∧ (ready true [0x7F, 0x00]).PollsClear 2)
      ∧ ¬((1 = 1 ∨ 1 = 2) ∧ 17 ≤ 16) ∧ ¬((3 = 1 ∨ 3 = 2) ∧ 0 ≤ 16)
      ∧ (ready true [0x7F, 0x80]).CleanEntry ∧ (ready true [0x7F, 0x80]).ConfiguredWith pins
      ∧ (ready true [0x7F, 0x80]).UnderOracle ∧ (ready true [0x7F, 0x80]).handle.startupComplete = true
      ∧ (ready true [0x7F, 0x80]).draws.senses = 0x7F :: 0x80 :: [] ∧ busyFlag 0x7F = false ∧ busyFlag 0x80 = true :=
  ⟨⟨.inr rfl, by decide, ⟨rfl, rfl⟩, ⟨rfl, rfl⟩, rfl, polls_phase1⟩, by decide, by decide, ⟨rfl, rfl⟩, ⟨rfl, rfl⟩,
    rfl, rfl, rfl, rfl, rfl⟩

/-- A text that just fits, and the empty text at position 16. -/
theorem witness_WriteAtClearsThenWrites :
    (List.replicate 6 0x41#8).length ≤ 16 - 10 ∧ 10 ≤ 16 ∧ ([] : List Byte).length ≤ 16 - 16
      ∧ (writeAtWrites [] 1 16 0).length = 1
      ∧ (ready true [0x7F]).CleanEntry ∧ (ready true [0x7F]).ConfiguredWith pins ∧ (ready true [0x7F]).UnderOracle
      ∧ (ready true [0x7F]).PollsClear (writeAtWrites [] 1 16 0).length
      ∧ (ready false []).PollsClear (writeAtWrites (List.replicate 6 0x41) 1 10 7).length :=
  ⟨by decide, by decide, by decide, rfl, ⟨rfl, rfl⟩, ⟨rfl, rfl⟩, rfl, polls_one, polls_phase0 _⟩

/-- 16 bytes. -/
theorem witness_WriteLineClearsTheWholeLine :
    (List.replicate 16 0x41#8).length ≤ 16 ∧ (ready false []).CleanEntry ∧ (ready false []).ConfiguredWith pins
      ∧ (ready false []).UnderOracle ∧ (ready false []).PollsClear (33 + (List.replicate 16 0x41#8).length)
      ∧ (ready true (List.replicate 33 0x7F)).PollsClear (33 + ([] : List Byte).length) :=
  ⟨by decide, ⟨rfl, rfl⟩, ⟨rfl, rfl⟩, rfl, polls_phase0 _, fun _ => ⟨by decide, by decide⟩⟩

/-- Each clause, one past its range. -/
theorem witness_RejectionOrder :
    (State.reset.seq = .idle ∧ State.reset.handle.configured = false)
      ∧ ((ready true []).seq = .idle ∧ (ready true []).handle.configured = true)
      ∧ ¬((1 = 1 ∨ 1 = 2) ∧ 17 ≤ 16) ∧ ((1 = 1 ∨ 1 = 2) ∧ 16 ≤ 16) ∧ 16 - 16 < [0x41#8].length
      ∧ ¬(3 = 1 ∨ 3 = 2) ∧ 16 < (List.replicate 17 0x41#8).length :=
  ⟨⟨rfl, rfl⟩, ⟨rfl, rfl⟩, by decide, by decide, by decide, by decide, by decide⟩

theorem witness_UnconfiguredOperationsDoNothing :
    ReachesBus .readDataReg = true ∧ ReachesBus (.writeAt [] 9 99 1) = true ∧ State.reset.seq = .idle
      ∧ State.reset.handle.configured = false := by decide

/-- Issued, and in progress on a handle no run leaves so. -/
theorem witness_UnconfiguredHandleTouchesNothing :
    let s := { State.reset with seq := .at .clearDisplay 0 }
    State.reset.handle.configured = false ∧ (∃ t, exec .clearDisplay State.reset = .next t)
      ∧ s.handle.configured = false ∧ s.seq = .at .clearDisplay 0 ∧ ∃ t, step s = .next t :=
  ⟨rfl, ⟨_, rfl⟩, rfl, rfl, ⟨_, rfl⟩⟩

theorem witness_RejectedOperationsHaveNoEffect :
    ∃ t, exec (.clearCell 1 17) (ready true []) = .next t
      ∧ t.reply = some { status := .outOfRange, value := .nothing } ∧ Status.outOfRange ≠ .ok :=
  ⟨_, rfl, rfl, by decide⟩

theorem witness_InterleavedOperationsAreRefused :
    { ready true [] with seq := .at .clearDisplay 0 }.seq = .at .clearDisplay 0 := rfl

theorem witness_HandleChangesOnlyByThePhaseFlag :
    let s := { ready false [] with calls := [.op (.functionSet .eightBit .twoLines .font5x8)] }
    s.handle.configured = true ∧ ∃ t, step s = .next t ∧ t.handle ≠ s.handle :=
  ⟨rfl, ⟨_, rfl, by decide⟩⟩

/-- Issued; and going on, in a state no run reaches, from the block before the flag is set. -/
theorem witness_OnlyFunctionSetEndsPhase0 :
    let s := { ready false [] with seq := .at (.functionSet .fourBit .oneLine .font5x8) 1 }
    (ready false []).handle.configured = true
      ∧ (∃ t, exec (.functionSet .fourBit .oneLine .font5x8) (ready false []) = .next t
        ∧ t.handle.startupComplete ≠ (ready false []).handle.startupComplete)
      ∧ s.seq = .at (.functionSet .fourBit .oneLine .font5x8) 1
      ∧ ∃ t, step s = .next t ∧ t.handle.startupComplete ≠ s.handle.startupComplete :=
  ⟨rfl, ⟨_, rfl, by decide⟩, rfl, ⟨_, rfl, by decide⟩⟩

/-- Issued, and going on from a poll. -/
theorem witness_FrameOfEveryOperation :
    let s := { ready true [0x00] with seq := .at .readDataReg 0 }
    (∃ t, exec .clearDisplay (ready false []) = .next t) ∧ (∃ t, exec .isBusy (ready false []) = .next t)
      ∧ (ready false []).UnderOracle
      ∧ s.seq = .at .readDataReg 0 ∧ s.UnderOracle ∧ ∃ t, step s = .next t :=
  ⟨⟨_, rfl⟩, ⟨_, rfl⟩, rfl, rfl, rfl, ⟨_, rfl⟩⟩

/-- A bit of the control lines' own port that is bound to none of them. -/
theorem witness_PortsChangeOnlyWhereBound :
    let s := { ready false [] with ports := [(3, 0x10)] }
    s.ports.wf portUnlisted = true ∧ s.handle.bindings = some pins ∧ (∃ t, exec .clearDisplay s = .next t)
      ∧ 3 ≠ pins.bus.out ∧ 3 ≠ pins.bus.dir
      ∧ ∀ p ∈ [pins.rs, pins.rw, pins.en], ¬(p.port = 3 ∧ p.bit = 4) :=
  ⟨rfl, rfl, ⟨_, rfl⟩, by decide, by decide, by decide⟩

theorem witness_BoundBitsCarryThePins :
    (ready false []).CleanEntry ∧ (ready false []).ConfiguredWith pins ∧ pins.wellFormed = true
      ∧ (ready false []).ports.wf portUnlisted = true
      ∧ (∃ t, exec (.writeLcd .data 0x41) (ready false []) = .next t)
      ∧ ∃ t, exec (.readLcd .data) (ready false []) = .next t :=
  ⟨⟨rfl, rfl⟩, ⟨rfl, rfl⟩, rfl, rfl, ⟨_, rfl⟩, ⟨_, rfl⟩⟩

theorem witness_ResponderObeysInstructions :
    (facing true blank []).CleanEntry ∧ (facing true blank []).ConfiguredWith pins
      ∧ (facing true blank []).lcd.model = .reference blank :=
  facing_meets _ _ _

/-- Each clause: the gap's ends, and the ends of the ranges, in canonical memories. -/
theorem witness_ResponderStoresData :
    (blank.ddram.wf ddramUnlisted = true ∧ blank.cgram.wf cgramUnlisted = true)
      ∧ (∀ a ∈ [0x28#7, 0x3F#7, 0x68#7, 0x7F#7], blank.space = .ddram ∧ inLineRange a = false)
      ∧ (∀ a ∈ [0x00#7, 0x27#7, 0x40#7, 0x67#7], inLineRange a = true)
      ∧ { blank with ac := 0x3F, space := .cgram }.space = .cgram
      ∧ ∀ a, (facing true { blank with ac := a } [.forever]).CleanEntry
        ∧ (facing true { blank with ac := a } [.forever]).ConfiguredWith pins
        ∧ (facing true { blank with ac := a } [.forever]).lcd.model = .reference { blank with ac := a } :=
  ⟨⟨rfl, rfl⟩, by decide, by decide, rfl, fun a => facing_meets _ _ _⟩

/-- A status read, the ends of the gaps and of the ranges, and the last cell of CGRAM. -/
theorem witness_ResponderAnswersReads :
    (∀ a ∈ [0x28#7, 0x3F#7, 0x68#7], blank.space = .ddram ∧ inLineRange a = false)
      ∧ (∀ a ∈ [0x00#7, 0x27#7, 0x40#7, 0x67#7], inLineRange a = true)
      ∧ { blank with ac := 0x3F, space := .cgram }.space = .cgram
      ∧ (∃ t, exec (.readLcd .data) (facing false { blank with ac := 0x3F, space := .cgram } []) = .next t)
      ∧ ∀ a sp, (facing false { blank with ac := a, space := sp } []).CleanEntry
        ∧ (facing false { blank with ac := a, space := sp } []).ConfiguredWith pins
        ∧ (facing false { blank with ac := a, space := sp } []).lcd.model
          = .reference { blank with ac := a, space := sp } :=
  ⟨by decide, by decide, rfl, ⟨_, rfl⟩, fun a sp => facing_meets _ _ _⟩

/-- The ends of both ranges, in phase 1 with the busy flag clear. -/
theorem witness_DdramAddressRoundTrip :
    (∀ a ∈ [0x00, 0x27, 0x40, 0x67], a ≤ 0x27 ∨ (0x40 ≤ a ∧ a ≤ 0x67))
      ∧ (facing true blank []).CleanEntry ∧ (facing true blank []).ConfiguredWith pins
      ∧ (facing true blank []).lcd.model = .reference blank ∧ blank.busy = .polls 0 :=
  ⟨by decide, ⟨rfl, rfl⟩, ⟨rfl, rfl⟩, rfl, rfl⟩

/-- `writeAt("A", 1, 0, 0)` in phase 1, where the poll of either write waits. -/
def textRun : List (Seen × Transfer) :=
  [(seenAt true 0x05 0x58, .read .instruction 0x85), (seenAt false 0x05 0x58, .read .instruction 0x05),
   (seenAt false 0x05 0x58, .write .instruction 0x80), (seenAt true 0x00 0x58, .read .instruction 0x80),
   (seenAt false 0x00 0x58, .read .instruction 0x00), (seenAt false 0x00 0x58, .write .data 0x41)]

/-- `writeAt("A", 1, 0, 1)` in phase 0, which clears the cell first. -/
def textRun0 : List (Seen × Transfer) :=
  [(seenAt false 0x05 0x58, .write .instruction 0x80), (seenAt false 0x00 0x58, .write .data 0x20),
   (seenAt false 0x01 0x20, .write .instruction 0x80), (seenAt false 0x00 0x20, .write .data 0x41)]

/-- Both meet P3 and P4, keep the other cells, and stay in increment mode. -/
theorem textRun_meets : ∀ run ∈ [textRun, textRun0],
    P3 run (seenAt false 0x01 0x41) ∧ P4 run (seenAt false 0x01 0x41) ∧ CellsStay run (seenAt false 0x01 0x41)
      ∧ IncrementThroughout run := by
  simp only [List.forall_mem_cons, List.not_mem_nil, false_implies, implies_true, and_true]
  refine ⟨⟨?_, ?_, ?_, ?_⟩, ?_, ?_, ?_, ?_⟩
  case refine_1 | refine_5 =>
    have key : ∀ a : Addr7, (0x80 : Byte) = 1#1 ++ a → inLineRange a = true → (0 : Addr7) = a := by decide
    simpa [P3, EachAccess, Settled, textRun, textRun0, seenAt, Transfer.isStatusRead] using key
  case refine_2 | refine_6 =>
    simp [P4, EachAccess, Settled, textRun, textRun0, seenAt, Transfer.isStatusRead, Seen.HasCell, Seen.place,
      Seen.HasNext, inLineRange]
  case refine_4 | refine_8 => simp [IncrementThroughout, textRun, textRun0, seenAt]
  all_goals
    simp [CellsStay, EachAccess, Settled, textRun, textRun0, seenAt, Transfer.isStatusRead, Seen.place]
    try grind

/-- `writeAt("35 deg.", 1, 6, 7)` of 95_test_vectors.md S4, in phase 1, in front of the responder; and in either phase a
call under an oracle. -/
theorem witness_TextLandsInItsCells :
    (let text : List Byte := [0x33, 0x35, 0x20, 0x64, 0x65, 0x67, 0x2E];
      let s := facing true blank (List.replicate 22 (.polls 0));
      6 ≤ 16 ∧ text.length ≤ 16 - 6 ∧ s.CleanEntry ∧ s.ConfiguredWith pins ∧ s.lcd.model = .reference blank
        ∧ s.EntryModeIncrement ∧ blank.ddram.wf ddramUnlisted = true ∧ blank.busy = .polls 0
        ∧ (writeAtWrites text 1 6 7).length ≤ s.draws.busy.length
        ∧ ∀ x ∈ s.draws.busy.take (writeAtWrites text 1 6 7).length, x = .polls 0)
      ∧ (let s := conforming true [0x85, 0x05, 0x80, 0x00] [.op (.writeAt [0x41] 1 0 0)];
        s.CleanEntry ∧ s.ConfiguredWith pins
          ∧ (∃ t, Host.Core.run core 3 s = .next t ∧ t.seq = .idle ∧ t.calls = [] ∧ textRun.map (·.2) = s.since t)
          ∧ s.P5 ∧ P1 s.latched textRun (seenAt false 0x01 0x41))
      ∧ (let s := conforming false [] [.op (.writeAt [0x41] 1 0 1)];
        s.CleanEntry ∧ s.ConfiguredWith pins
          ∧ (∃ t, Host.Core.run core 1 s = .next t ∧ t.seq = .idle ∧ t.calls = [] ∧ textRun0.map (·.2) = s.since t)
          ∧ ∀ p ∈ textRun0, p.1.processing = false)
      ∧ (∀ run ∈ [textRun, textRun0], P3 run (seenAt false 0x01 0x41) ∧ P4 run (seenAt false 0x01 0x41)
          ∧ CellsStay run (seenAt false 0x01 0x41) ∧ IncrementThroughout run)
      ∧ (seenAt false 0x01 0x41).processing = false :=
  ⟨⟨by decide, by decide, ⟨rfl, rfl⟩, ⟨rfl, rfl⟩, rfl, fun L h => (by cases h; rfl), rfl, rfl, by decide, by decide⟩,
    ⟨⟨rfl, rfl⟩, ⟨rfl, rfl⟩, ⟨_, rfl, rfl, rfl, rfl⟩, rfl,
      by simp [P1, EachStatusRead, StaysFree, textRun, seenAt, nowSeen, busyFlag, Transfer.isStatusRead]⟩,
    ⟨⟨rfl, rfl⟩, ⟨rfl, rfl⟩, ⟨_, rfl, rfl, rfl, rfl⟩, by simp [textRun0, seenAt]⟩, textRun_meets, rfl⟩

/-- A width latched before; none before a Function Set that completes; a raw Function Set of either width and a raw
byte that is none; an operation that sends another byte, issued and going on. -/
theorem witness_ControllerLatchesItsWidthOnce :
    let s := { ready true [0x00] with lcd := { width := some .fourBit, model := .oracle } }
    s.lcd.width = some .fourBit ∧ (∃ t, exec (.functionSet .eightBit .twoLines .font5x8) s = .next t)
      ∧ (ready false []).handle.configured = true ∧ (ready false []).lcd.width = none
      ∧ (∃ t, exec (.functionSet .fourBit .oneLine .font5x10) (ready false []) = .next t ∧ t.seq = .idle)
      ∧ (∃ t, exec (.writeLcd .instruction 0x30) (ready false []) = .next t ∧ t.lcd.width = some .eightBit)
      ∧ (∃ t, exec (.writeLcd .instruction 0x2F) (ready false []) = .next t ∧ t.lcd.width = some .fourBit)
      ∧ (∃ t, exec (.writeLcd .instruction 0x40) (ready false []) = .next t ∧ t.lcd.width = none)
      ∧ (∃ t, exec (.writeLcd .data 0x30) (ready false []) = .next t)
      ∧ ∃ t, step { ready true [0x00] with seq := .at (.writeDataReg 0x30) 0 } = .next t :=
  ⟨rfl, ⟨_, rfl⟩, rfl, rfl, ⟨_, rfl, rfl⟩, ⟨_, rfl, rfl⟩, ⟨_, rfl, rfl⟩, ⟨_, rfl, rfl⟩, ⟨_, rfl⟩, ⟨_, rfl⟩⟩

theorem witness_HostDelayClearsTheBusyCount :
    let s := { facing true { blank with busy := .forever } [] with calls := [.hostDelay 2000000] }
    s.seq = .idle ∧ s.calls = .hostDelay 2000000 :: [] ∧ (ready true []).UnderOracle :=
  ⟨rfl, rfl, rfl⟩

/-- Reset with one call, for the five statements about every step. -/
def called : State := { State.reset with calls := [.op (configureAs pins)] }

theorem witness_StepKeepsTheInvariant : called.Inv ∧ ∃ t, step called = .next t :=
  ⟨⟨rfl, trivial, fun h => (by cases h), fun _ => ⟨rfl, rfl⟩, fun h => absurd rfl h, rfl⟩, ⟨_, rfl⟩⟩

theorem witness_NothingRaisesAFault : called.Inv := witness_StepKeepsTheInvariant.1

/-- A state with one event behind it. -/
theorem witness_StepKeepsTimeRising :
    let s := { called with now := 5, trace := [{ event := .delay 5, start := 0, stop := 5 }] }
    s.Ordered ∧ ∃ t, step s = .next t :=
  ⟨⟨⟨by decide, by decide, trivial⟩, fun x hx => by simp at hx; subst hx; decide⟩, ⟨_, rfl⟩⟩

theorem witness_StepKeepsTheBusRules :
    (ready false []).Rested ∧ ∃ t, step { ready false [] with calls := [.op .clearDisplay] } = .next t :=
  ⟨⟨rfl, rfl, fun f h => (by cases h)⟩, ⟨_, rfl⟩⟩

theorem witness_StepKeepsPinsAsWritten : called.PinsFollowTrace ∧ ∃ t, step called = .next t :=
  ⟨⟨fun v h => (by cases h), fun v h => (by cases h), fun v h => (by cases h), fun v h => (by cases h),
    fun v h => (by cases h)⟩, ⟨_, rfl⟩⟩

theorem witness_GhostsAffectNothing :
    let s := { called with now := 7, reply := some { status := .ok, value := .nothing } }
    s ≠ called ∧ s.erase = called.erase :=
  ⟨by decide, rfl⟩

theorem witness_StepRunsTheNextCall :
    called.seq = .idle ∧ called.calls = .op (configureAs pins) :: []
      ∧ (State.reset.withFetchWord 10 0b00_0000_0001).calls = .word 1 :: [] ∧ decode 1 = .ok .clearDisplay
      ∧ 2 ^ 10 ≤ 1024 ∧ State.reset.calls = []
      ∧ { ready true [] with seq := .at .clearDisplay 0 }.seq = .at .clearDisplay 0 :=
  ⟨rfl, rfl, rfl, by decide, by decide, rfl, rfl⟩

/-- From the middle of an operation, in front of a busy responder with a latched width, with well-formed bindings. -/
theorem witness_RestartKeepsTheController :
    let s := { facing true { blank with busy := .forever } [] with
      seq := .at (.clearCell 1 0) 2, lcd := { width := some .fourBit, model := .reference { blank with busy := .forever } } }
    State.reset.pins.e = false ∧ s.ports.wf portUnlisted = true ∧ s.lcd.model.wf
      ∧ (configureAs pins).wellFormed = true ∧ s.lcd.width = some .fourBit ∧ State.reset.lcd.width = none :=
  ⟨rfl, rfl, ⟨rfl, rfl⟩, rfl, rfl, rfl⟩

/-- At the first poll of a command, at the second one of a text call, and at `WaitNotBusy`'s in phase 0. -/
theorem witness_StuckOperationStaysStuck :
    ∀ r ∈ [(Instr.clearDisplay, 0, true), (.clearCell 1 16, 2, true), (.waitNotBusy, 0, false)],
      let L := { blank with busy := .forever }
      State.StuckAt { facing r.2.2 L [] with seq := .at r.1 r.2.1 } r.1 r.2.1 L := by
  intro r hr
  exact ⟨rfl, by revert r; decide, rfl, Option.some_ne_none pins, rfl, rfl, rfl⟩

/-- `PollsEnd`, with a poll that ends at once and one that ends after two reads. -/
theorem two_polls_end : PollsEnd 2 [0x7F, 0x80, 0xFF, 0x00] :=
  ⟨[], 0x7F, [0x80, 0xFF, 0x00], rfl, by decide, rfl, [0x80, 0xFF], 0x00, [], rfl, by decide, rfl, trivial⟩

/-- Two calls in phase 1: the first waits at its poll, then reads 0xFF as data, then the second polls. -/
def readThenClear : State := conforming true [0x80, 0x00, 0xFF, 0x00] [.op .readDataReg, .op .clearDisplay]

/-- Its one poll loop sees bit 7 = 0 at the second read. -/
theorem readThenClear_falls : readThenClear.BusyFalls := by
  intro n t i k hr hq _
  match n with
  | 0 | 2 => cases hr; cases hq
  | 1 => cases hr; cases hq; exact ⟨0, _, 0x00, rfl, rfl, rfl, ⟨_, rfl, rfl⟩, rfl⟩
  | n + 3 =>
    have h : Host.Core.run core (n + 3) readThenClear = .next (after (Host.Core.run core 3 readThenClear)) :=
      run_idle rfl rfl n
    cases h.symm.trans hr
    cases hq

/-- Those two calls, and the second alone; then under the oracle a text call in phase 1, one in phase 0 and `ReadDataReg`,
in front of the responder a text call in phase 1, and `WaitNotBusy` in phase 0. -/
theorem witness_OperationsEndWhenTheFlagFalls :
    (readThenClear.Inv ∧ readThenClear.BusyFalls)
      ∧ (readThenClear.CleanEntry ∧ readThenClear.ConfiguredWith pins
        ∧ readThenClear.calls = .op .readDataReg :: [.op .clearDisplay] ∧ readThenClear.BusyFallsUntil 1)
      ∧ (∃ s, Host.Core.run core 2 readThenClear = .next s ∧ (pacedWrites .clearDisplay).isSome = true ∧ s.CleanEntry
        ∧ s.ConfiguredWith pins ∧ s.calls = .op .clearDisplay :: [] ∧ s.BusyFallsUntil 0)
      ∧ (let s := { ready true [0x7F, 0x80, 0xFF, 0x00] with calls := [.op (.clearCell 2 16)] };
      pacedWrites (.clearCell 2 16) = some [addressWrite 2 16, (.data, 0x20)] ∧ s.CleanEntry ∧ s.ConfiguredWith pins
        ∧ s.UnderOracle ∧ s.calls = .op (.clearCell 2 16) :: [] ∧ PollsEnd 2 s.draws.senses)
      ∧ (let s := { ready false [] with calls := [.op (.writeAt [] 1 16 0)] };
        pacedWrites (.writeAt [] 1 16 0) = some [addressWrite 1 16] ∧ s.CleanEntry ∧ s.ConfiguredWith pins
          ∧ s.UnderOracle ∧ s.calls = .op (.writeAt [] 1 16 0) :: [] ∧ s.handle.startupComplete = false)
      ∧ (let s := { ready true [0x80, 0x00, 0x48] with calls := [.op .readDataReg] };
        s.CleanEntry ∧ s.ConfiguredWith pins ∧ s.UnderOracle ∧ s.ConfiguredIn true
          ∧ s.calls = .op .readDataReg :: [] ∧ s.draws.senses = [0x80] ++ 0x00 :: 0x48 :: []
          ∧ (∀ x ∈ [0x80#8], busyFlag x = true) ∧ busyFlag 0x00 = false)
      ∧ (let L := { blank with busy := .polls 3 };
        let s := { facing true L [.polls 1, .forever] with calls := [.op (.clearCell 2 16)] };
        (pacedWrites (.clearCell 2 16)).isSome = true ∧ s.CleanEntry ∧ s.ConfiguredWith pins
          ∧ s.lcd.model = .reference L ∧ s.calls = .op (.clearCell 2 16) :: []
          ∧ s.CountsFall (pollCount (.clearCell 2 16)))
      ∧ (facing false { blank with busy := .polls 2 } []).CountsFall (pollCount .waitNotBusy) :=
  ⟨⟨⟨rfl, trivial, fun _ => ⟨pins, rfl, rfl⟩, fun h => (by cases h), fun h => absurd rfl h, rfl⟩, readThenClear_falls⟩,
    ⟨⟨rfl, rfl⟩, ⟨rfl, rfl⟩, rfl, State.BusyFallsUntil.mono readThenClear_falls (Nat.zero_le _)⟩,
    ⟨_, rfl, rfl, ⟨rfl, rfl⟩, ⟨rfl, rfl⟩, rfl, (State.BusyFallsUntil.next readThenClear_falls rfl).next rfl⟩,
    ⟨by decide, ⟨rfl, rfl⟩, ⟨rfl, rfl⟩, rfl, rfl, two_polls_end⟩,
    ⟨by decide, ⟨rfl, rfl⟩, ⟨rfl, rfl⟩, rfl, rfl, rfl⟩,
    ⟨⟨rfl, rfl⟩, ⟨rfl, rfl⟩, rfl, ⟨rfl, rfl⟩, rfl, rfl, by decide, rfl⟩,
    ⟨by decide, ⟨rfl, rfl⟩, ⟨rfl, rfl⟩, rfl, rfl, fun _ h => (by cases h; decide)⟩, fun _ h => (by cases h; decide)⟩

/-- The round trip at 0x67 in phase 1: `SetDisplayDataAddress` and `WaitNotBusy` each wait at their poll. -/
def roundTrip : List (Seen × Transfer) :=
  [(seenAt true 0x00 0x20, .read .instruction 0x80), (seenAt false 0x05 0x20, .read .instruction 0x05),
   (seenAt false 0x05 0x20, .write .instruction 0xE7), (seenAt true 0x67 0x20, .read .instruction 0xE7),
   (seenAt false 0x67 0x20, .read .instruction 0x67), (seenAt false 0x67 0x20, .read .instruction 0x67)]

/-- It meets P1 to P4, and so does what phase 0 makes of it, with no poll before the write. -/
theorem roundTrip_meets (latched : Bool) :
    ∀ run ∈ [roundTrip, roundTrip.drop 2], ControllerPremises latched run (seenAt false 0x67 0x20) := by
  simp only [List.forall_mem_cons, List.not_mem_nil, false_implies, implies_true, and_true]
  refine ⟨⟨?_, ?_, ?_, ?_⟩, ⟨?_, ?_, ?_, ?_⟩⟩
  case refine_3 | refine_7 =>
    have key : ∀ a : Addr7, (0xE7 : Byte) = 1#1 ++ a → inLineRange a = true → 0x67 = a := by decide
    simpa [P3, EachAccess, Settled, roundTrip, seenAt, Transfer.isStatusRead] using key
  all_goals
    simp [P1, P2, P4, EachStatusRead, EachAccess, Settled, StaysFree, roundTrip, seenAt, nowSeen, busyFlag, counterField,
      Transfer.isStatusRead]

/-- One read under that oracle for each of the first two parts; the round trip; and the responder, busy at the start,
in a run with a wait of the host's. -/
theorem witness_ControllerPremisesAreMet :
    (let s := conforming true [0x85] [];
      s.CleanEntry ∧ s.ConfiguredWith pins ∧ s.P5
        ∧ (∃ t, exec .isBusy s = .next t
          ∧ [(seenAt true 0x05 0x20, Transfer.read .instruction 0x85)].map (·.2) = s.since t)
        ∧ P1 s.latched [(seenAt true 0x05 0x20, .read .instruction 0x85)] (seenAt false 0x05 0x20)
        ∧ P2 s.latched [(seenAt true 0x05 0x20, .read .instruction 0x85)])
      ∧ (let s := conforming true [0x80, 0x05, 0xE7, 0x67, 0x67]
            [.op (.setDisplayDataAddress 0x67), .op .waitNotBusy, .op .readAddressCounter];
        s.CleanEntry ∧ s.ConfiguredWith pins ∧ s.P5 ∧ inLineRange (BitVec.ofNat 7 0x67) = true
          ∧ (∃ t, Host.Core.run core 5 s = .next t ∧ t.calls = [] ∧ t.seq = .idle
            ∧ roundTrip.map (·.2) = s.since t)
          ∧ ControllerPremises s.latched roundTrip (seenAt false 0x67 0x20))
      ∧ (let s := conforming false [0xE7, 0x67, 0x67]
            [.op (.setDisplayDataAddress 0x67), .op .waitNotBusy, .op .readAddressCounter];
        s.CleanEntry ∧ s.ConfiguredWith pins ∧ s.P5
          ∧ (∃ t, Host.Core.run core 4 s = .next t ∧ t.calls = [] ∧ t.seq = .idle
            ∧ (roundTrip.drop 2).map (·.2) = s.since t)
          ∧ ControllerPremises s.latched (roundTrip.drop 2) (seenAt false 0x67 0x20)
          ∧ (nowSeen (roundTrip.drop 2) (seenAt false 0x67 0x20)).processing = false)
      ∧ (let s := { facing true { blank with busy := .polls 1 } [.forever] with
            calls := [.op (.clearCell 2 16), .hostDelay 1] };
        blank.ddram.wf ddramUnlisted = true ∧ blank.cgram.wf cgramUnlisted = true
          ∧ ∃ t, Host.Core.run core 4 s = .next t) :=
  ⟨⟨⟨rfl, rfl⟩, ⟨rfl, rfl⟩, rfl, ⟨_, rfl, rfl⟩, ⟨⟨fun _ => rfl, trivial⟩, by decide, trivial⟩,
      fun _ => rfl, trivial⟩,
    ⟨⟨rfl, rfl⟩, ⟨rfl, rfl⟩, rfl, by decide, ⟨_, rfl, rfl, rfl, rfl⟩, roundTrip_meets _ _ (by simp)⟩,
    ⟨⟨rfl, rfl⟩, ⟨rfl, rfl⟩, rfl, ⟨_, rfl, rfl, rfl, rfl⟩, roundTrip_meets _ _ (by simp), rfl⟩, rfl, rfl, _, rfl⟩

end Sys2Proof.Tests
end

section
/-! SUPPORT. The rules the statements about the state rest on: what one event records, what a block leaves, what a wait of
the host's leaves, what a property needs to be kept by an operation that is issued or going on. -/

namespace Sys2Proof.Machine

/-! ## What one event records -/

/-- The pins once an event has taken effect (10_state.md R22, R23). -/
def Pins.after (p : Pins) : Event → Pins
  | .rs v => { p with rs := v }
  | .rw v => { p with rw := v }
  | .e v => { p with e := v }
  | .dir d => { p with dir := d }
  | .out b => { p with dbOut := b }
  | .input _ | .delay _ => p

/-- From `s` to `t` one event is recorded, it begins at the clock's time, and the pins follow it. -/
structure Logs (ev : Event) (s t : State) : Prop where
  trace : t.trace = s.trace ++ [{ event := ev, start := s.now, stop := t.now }]
  now : s.now ≤ t.now
  pins : t.pins = s.pins.after ev

/-- From `s` to `t` nothing is recorded. -/
structure Quiet (s t : State) : Prop where
  trace : t.trace = s.trace
  now : t.now = s.now
  pins : t.pins = s.pins

theorem logs_elapse (d : Nat) (ev : Event) {s t : State} (htrace : t.trace = s.trace) (hnow : t.now = s.now)
    (hpins : t.pins = s.pins.after ev) : Logs ev s (t.elapse d ev) :=
  ⟨by simp [htrace, hnow], by simp only [elapse_now, hnow]; omega, hpins⟩

/-- The controller takes a byte without an event of its own. -/
theorem lcdTakes_quiet {rs : Bool} {v : Byte} {s t : State} (h : s.lcdTakes rs v = .next t) :
    Quiet s t ∧ t.ports = s.ports := by
  obtain ⟨-, rfl⟩ | ⟨L, L', -, -, rfl⟩ := lcdTakes_cases h <;> exact ⟨⟨rfl, rfl, rfl⟩, rfl⟩

/-- The controller supplies a byte without an event of its own. -/
theorem lcdSupplies_quiet {rs : Bool} {v : Byte} {s t : State} (h : s.lcdSupplies rs = .next (v, t)) :
    Quiet s t ∧ t.ports = s.ports := by
  obtain ⟨-, -, rfl⟩ | ⟨L, -, -, -, rfl⟩ | ⟨L, L', -, -, -, rfl⟩ := lcdSupplies_cases h <;>
    exact ⟨⟨rfl, rfl, rfl⟩, rfl⟩

/-- A micro-step records one event or, where it sets the phase flag, none. -/
theorem microStep_logs {b : Bindings} {m : Micro} {sb sb' : Byte} {s t : State}
    (h : microStep b m sb s = .next (sb', t)) : (∃ ev, Logs ev s t) ∨ Quiet s t := by
  obtain ⟨v, -, -, -, rfl⟩ | ⟨v, -, -, rfl⟩ | ⟨-, -, rfl⟩ | ⟨-, -, h⟩ | ⟨d, -, -, rfl⟩ | ⟨v, -, -, rfl⟩
    | ⟨-, u, hu, rfl⟩ | ⟨d, -, -, rfl⟩ | ⟨-, -, rfl⟩ := microStep_cases h
  · exact .inl ⟨.rs v, logs_elapse 0 (.rs v) rfl rfl rfl⟩
  · exact .inl ⟨.rw v, logs_elapse 0 (.rw v) rfl rfl rfl⟩
  · exact .inl ⟨.e true, logs_elapse 0 (.e true) rfl rfl rfl⟩
  · have hlow : Logs (.e false) s (s.driveE b false) := logs_elapse 0 (.e false) rfl rfl rfl
    obtain rfl | ⟨-, -, h⟩ := dropEnable_cases h
    · exact .inl ⟨_, hlow⟩
    · obtain ⟨⟨htrace, hnow, hpins⟩, -⟩ := lcdTakes_quiet h
      exact .inl ⟨.e false, by rw [htrace, hnow]; exact hlow.trace, hnow ▸ hlow.now, hpins.trans hlow.pins⟩
  · exact .inl ⟨.dir d, logs_elapse 0 (.dir d) rfl rfl rfl⟩
  · exact .inl ⟨.out v, logs_elapse 0 (.out v) rfl rfl rfl⟩
  · obtain ⟨⟨htrace, hnow, hpins⟩, -⟩ := lcdSupplies_quiet hu
    exact .inl ⟨.input sb', logs_elapse 0 (.input sb') htrace hnow hpins⟩
  · exact .inl ⟨.delay d, logs_elapse d (.delay d) rfl rfl rfl⟩
  · exact .inr ⟨rfl, rfl, rfl⟩

/-! ## The host's wait -/

/-- A wait is one delay event; besides it clears a responder's busy count (20_memory.md R50). -/
theorem hostWait_cases (d : Nat) (s : State) :
    (s.lcd.model = .oracle ∧ hostWait d s = s.elapse d (.delay d))
    ∨ ∃ L, s.lcd.model = .reference L
      ∧ hostWait d s = { s.elapse d (.delay d) with lcd := { s.lcd with model := .reference L.afterHostDelay } } := by
  unfold hostWait
  cases hm : s.lcd.model with
  | oracle => exact .inl ⟨rfl, by simp [hm]⟩
  | reference L => exact .inr ⟨L, rfl, by simp [hm]⟩

theorem hostWait_logs (d : Nat) (s : State) : Logs (.delay d) s (hostWait d s) := by
  have h : Logs (.delay d) s (s.elapse d (.delay d)) := logs_elapse d (.delay d) rfl rfl rfl
  obtain ⟨-, hw⟩ | ⟨L, -, hw⟩ := hostWait_cases d s <;> rw [hw]
  · exact h
  · exact ⟨h.trace, h.now, h.pins⟩

@[simp] theorem hostWait_handle (d : Nat) (s : State) : (hostWait d s).handle = s.handle := by
  obtain ⟨-, hw⟩ | ⟨L, -, hw⟩ := hostWait_cases d s <;> simp [hw]

@[simp] theorem hostWait_seq (d : Nat) (s : State) : (hostWait d s).seq = s.seq := by
  obtain ⟨-, hw⟩ | ⟨L, -, hw⟩ := hostWait_cases d s <;> simp [hw]

@[simp] theorem hostWait_ports (d : Nat) (s : State) : (hostWait d s).ports = s.ports := by
  obtain ⟨-, hw⟩ | ⟨L, -, hw⟩ := hostWait_cases d s <;> simp [hw]

@[simp] theorem hostWait_width (d : Nat) (s : State) : (hostWait d s).lcd.width = s.lcd.width := by
  obtain ⟨-, hw⟩ | ⟨L, -, hw⟩ := hostWait_cases d s <;> simp [hw]

theorem hostWait_lcd_wf {d : Nat} {s : State} (h : s.lcd.model.wf) : (hostWait d s).lcd.model.wf := by
  obtain ⟨-, hw⟩ | ⟨L, hm, hw⟩ := hostWait_cases d s <;> rw [hw]
  · exact h
  · rw [hm] at h
    exact h

/-! ## What is kept by every step, event by event -/

/-- A property that depends on the trace, the clock and the pins alone is kept by every step if every event keeps
it. -/
theorem step_keeps_of_logs {P : State → Prop} (hquiet : ∀ s t, P s → Quiet s t → P t)
    (hlogs : ∀ ev s t, P s → Logs ev s t → P t) {s t : State} (hs : P s) (h : step s = .next t) : P t := by
  have hmicro : ∀ b m sb sb' s t, P s → microStep b m sb s = .next (sb', t) → P t := by
    intro b m sb sb' s t hs h
    obtain ⟨ev, hl⟩ | hq := microStep_logs h
    · exact hlogs ev s t hs hl
    · exact hquiet s t hs hq
  exact step_keeps (fun s r hs => hquiet s _ hs ⟨rfl, rfl, rfl⟩) (fun s c hs => hquiet s _ hs ⟨rfl, rfl, rfl⟩)
    (fun s d hs => hlogs (.delay d) s _ hs (hostWait_logs d s)) (fun s b hs _ _ => hquiet s _ hs ⟨rfl, rfl, rfl⟩)
    (fun s q hs _ => hquiet s _ hs ⟨rfl, rfl, rfl⟩)
    (fun bl b sb sb' s t hs _ _ h => microSteps_keeps (hmicro b) _ sb sb' s t hs h) hs h

/-- A row of micro-steps only adds to the trace. -/
theorem microSteps_trace {b : Bindings} {ms : List Micro} {sb sb' : Byte} {s t : State}
    (h : microSteps b ms sb s = .next (sb', t)) : ∃ l, t.trace = s.trace ++ l := by
  refine microSteps_keeps (P := fun u => ∃ l, u.trace = s.trace ++ l) ?_ ms sb sb' s t ⟨[], by simp⟩ h
  rintro m sb sb' u v ⟨l, hl⟩ hv
  obtain ⟨ev, hv⟩ | hv := microStep_logs hv
  · exact ⟨l ++ [{ event := ev, start := u.now, stop := v.now }], by rw [hv.trace, hl, List.append_assoc]⟩
  · exact ⟨l, hv.trace.trans hl⟩

/-! ## Blocks -/

/-- Everything a block can do: one write, one status or data read, or setting the phase flag. -/
theorem block_cases {b : Bindings} {bl : Block} {sb sb' : Byte} {s t : State}
    (h : microSteps b (bl.micros s.timing) sb s = .next (sb', t)) :
    (∃ r v, bl = .write r v ∧ WriteDone b r v s t)
    ∨ (∃ r, (bl = .read r ∨ bl = .poll ∧ r = .instruction) ∧ ReadDone b r sb' s t)
    ∨ (bl = .setStartup ∧ t = { s with handle := { s.handle with startupComplete := true } }) := by
  cases bl with
  | write r v => exact .inl ⟨r, v, rfl, (write_done (block_found_low (by simp) h) h).2⟩
  | read r => exact .inr (.inl ⟨r, .inl rfl, read_done (block_found_low (by simp) h) h⟩)
  | poll => exact .inr (.inl ⟨.instruction, .inr ⟨rfl, rfl⟩, read_done (block_found_low (by simp) h) h⟩)
  | setStartup =>
    injection h with h
    injection h with _ h
    exact .inr (.inr ⟨rfl, h.symm⟩)

/-- Enable is low after every block that found it low (10_state.md R24). -/
theorem block_leaves_low {b : Bindings} {bl : Block} {sb sb' : Byte} {s t : State} (he : s.pins.e = false)
    (h : microSteps b (bl.micros s.timing) sb s = .next (sb', t)) : t.pins.e = false := by
  obtain ⟨r, v, -, hd⟩ | ⟨r, -, hd⟩ | ⟨-, rfl⟩ := block_cases h
  · rw [hd.pins]; rfl
  · rw [hd.pins]; rfl
  · exact he

/-- Only the block that sets the phase flag changes the handle. -/
theorem block_handle {b : Bindings} {bl : Block} {sb sb' : Byte} {s t : State}
    (h : microSteps b (bl.micros s.timing) sb s = .next (sb', t)) :
    (bl ≠ .setStartup ∧ t.handle = s.handle)
      ∨ (bl = .setStartup ∧ t.handle = { s.handle with startupComplete := true }) := by
  obtain ⟨r, v, rfl, hd⟩ | ⟨r, hr, hd⟩ | ⟨rfl, rfl⟩ := block_cases h
  · exact .inl ⟨by simp, hd.handle⟩
  · exact .inl ⟨by rintro rfl; simp at hr, hd.handle⟩
  · exact .inr ⟨rfl, rfl⟩

/-- No block turns an oracle into something else. -/
theorem block_oracle {b : Bindings} {bl : Block} {sb sb' : Byte} {s t : State} (ho : s.UnderOracle)
    (h : microSteps b (bl.micros s.timing) sb s = .next (sb', t)) : t.UnderOracle := by
  obtain ⟨r, v, -, hd⟩ | ⟨r, -, hd⟩ | ⟨-, rfl⟩ := block_cases h
  · exact (hd.oracle ho).1
  · exact (hd.oracle ho).1
  · exact ho

/-- The clock does not go back. -/
theorem block_now {b : Bindings} {bl : Block} {sb sb' : Byte} {s t : State}
    (h : microSteps b (bl.micros s.timing) sb s = .next (sb', t)) : s.now ≤ t.now := by
  obtain ⟨r, v, -, hd⟩ | ⟨r, -, hd⟩ | ⟨-, rfl⟩ := block_cases h
  · exact (Nat.le_add_right _ _).trans hd.now
  · exact (Nat.le_add_right _ _).trans hd.now
  · exact Nat.le_refl _

/-- Only a write changes the data latch. -/
theorem block_dbOut {b : Bindings} {bl : Block} {sb sb' : Byte} {s t : State} (hw : ∀ r v, bl ≠ .write r v)
    (h : microSteps b (bl.micros s.timing) sb s = .next (sb', t)) : t.pins.dbOut = s.pins.dbOut := by
  obtain ⟨r, v, hbl, -⟩ | ⟨r, -, hd⟩ | ⟨-, rfl⟩ := block_cases h
  · exact absurd hbl (hw r v)
  · rw [hd.pins]; rfl
  · rfl

/-! ## An operation, issued or going on -/

/-- A property is kept by an operation, issued or going on, if the reply, the position, the blocks of its plan and, for
`Configure`, the binding keep it. -/
theorem running_keeps {P : State → Prop} {i : Instr} {s t : State}
    (hreply : ∀ s r, P s → P { s with reply := r }) (hseq : ∀ s q, P s → P { s with seq := q })
    (hconfigure : ∀ d dir l, i = .configure d dir l → P s → P { s with
      handle := { configured := true, startupComplete := false, bindings := some (boundBy d dir l) } })
    (hblock : ∀ bl ∈ (planOf i s.handle.startupComplete).blocks, ∀ b sb sb' u v, P u →
      microSteps b (bl.micros u.timing) sb u = .next (sb', v) → P v)
    (hs : P s) (h : exec i s = .next t ∨ ∃ k, s.seq = .at i k ∧ step s = .next t) : P t := by
  obtain ⟨q, r, rfl⟩ | ⟨d, dir, l, hi, -, rfl⟩ | ⟨-, b, k, -, hr⟩ := running_cases h
  · exact hreply _ (some r) (hseq s q hs)
  · exact hreply _ (some { status := .ok, value := .nothing }) (hconfigure d dir l hi hs)
  · exact runBlocks_keeps (fun s v hs => hreply _ (some { status := .ok, value := v }) (hseq s .idle hs))
      (fun s k hs => hseq s (.at i k) hs) _ (fun bl hbl => hblock bl (List.mem_of_mem_drop hbl) b)
      k 0 _ t (hreply s none hs) hr

/-- On a configured handle an operation its plan does not reject is the run of its blocks. -/
theorem exec_runs {i : Instr} {s t : State} (hi : ReachesBus i = true) (hc : s.handle.configured = true)
    (hp : (planOf i s.handle.startupComplete).rejected = none) (h : exec i s = .next t) :
    ∃ b, s.handle.bindings = some b ∧ runBlocks b i (planOf i s.handle.startupComplete).returns 0
      (planOf i s.handle.startupComplete).blocks 0 { s with reply := none } = .next t := by
  rw [exec_eq_operate hi] at h
  obtain ⟨-, ⟨hn, -⟩ | ⟨-, st, hst, -⟩ | ⟨-, -, hr⟩⟩ := operate_cases h
  · rw [hc] at hn
    cases hn
  · rw [hp] at hst
    cases hst
  · exact hr

/-- A run of one block that is no poll ends. -/
theorem runBlocks_single {b : Bindings} {i : Instr} {x : Extract} {k : Nat} {bl : Block} {sb : Byte} {s t : State}
    (hp : bl ≠ .poll) (h : runBlocks b i x k [bl] sb s = .next t) :
    ∃ sb' u, microSteps b (bl.micros s.timing) sb s = .next (sb', u) ∧ t = u.finish (x.value sb') := by
  obtain ⟨sb', u, hu, ⟨hpoll, -⟩ | ⟨-, hend⟩⟩ := runBlocks_cons_cases h
  · exact absurd hpoll hp
  · injection hend with hend
    exact ⟨sb', u, hu, hend.symm⟩

/-! ## The raw transfers, as operations -/

/-- `WriteLcd` on a configured handle is one write transfer. -/
theorem exec_writeLcd_runs {r : Register} {v : Byte} {s t : State} (hc : s.handle.configured = true)
    (h : exec (.writeLcd r v) s = .next t) :
    ∃ b sb u, s.handle.bindings = some b
      ∧ microSteps b (writeMicros s.timing r v) 0 { s with reply := none } = .next (sb, u)
      ∧ t = u.finish .nothing := by
  obtain ⟨b, hb, hr⟩ := exec_runs rfl hc rfl h
  obtain ⟨sb, u, hu, ht⟩ := runBlocks_single (by simp) hr
  exact ⟨b, sb, u, hb, hu, ht⟩

/-- `ReadLcd` on a configured handle is one read transfer. -/
theorem exec_readLcd_runs {r : Register} {s t : State} (hc : s.handle.configured = true)
    (h : exec (.readLcd r) s = .next t) :
    ∃ b sb u, s.handle.bindings = some b
      ∧ microSteps b (readMicros s.timing r) 0 { s with reply := none } = .next (sb, u)
      ∧ t = u.finish (.byte sb) := by
  obtain ⟨b, hb, hr⟩ := exec_runs rfl hc rfl h
  obtain ⟨sb, u, hu, ht⟩ := runBlocks_single (by simp) hr
  exact ⟨b, sb, u, hb, hu, ht⟩

end Sys2Proof.Machine
end

section
/-! SUPPORT. The plans: which blocks an operation runs, and what they make of the controller's bus width. -/

namespace Sys2Proof.Machine

/-! ## The blocks of a plan -/

theorem mem_issueInstruction {phase : Bool} {ib : Byte} {bl : Block} (h : bl ∈ issueInstruction phase ib) :
    bl = .poll ∨ bl = .write .instruction ib := by
  cases phase with
  | false => exact .inr (by simpa [issueInstruction, pace] using h)
  | true => simpa [issueInstruction, pace] using h

theorem mem_issueData {phase : Bool} {byte : Byte} {bl : Block} (h : bl ∈ issueData phase byte) :
    bl = .poll ∨ bl = .write .data byte := by
  cases phase with
  | false => exact .inr (by simpa [issueData, pace] using h)
  | true => simpa [issueData, pace] using h

/-- The byte has the Function Set format: its top three bits are 001 (30_encoding.md R53). -/
def IsFunctionSetByte (v : Byte) : Prop := v.extractLsb' 5 3 = 0b001#3

/-- A block that neither sets the phase flag nor sends a Function Set: all that any operation runs but `FunctionSet` and
the raw instruction write. -/
inductive Block.Common : Block → Prop where
  | poll : Common .poll
  | read (r : Register) : Common (.read r)
  | writeData (v : Byte) : Common (.write .data v)
  | writeInstruction (v : Byte) (h : ¬IsFunctionSetByte v) : Common (.write .instruction v)

theorem common_of_mem_issueInstruction {phase : Bool} {ib : Byte} (hib : ¬IsFunctionSetByte ib) {bl : Block}
    (h : bl ∈ issueInstruction phase ib) : bl.Common := by
  obtain rfl | rfl := mem_issueInstruction h
  · exact .poll
  · exact .writeInstruction ib hib

theorem common_of_mem_issueData {phase : Bool} {byte : Byte} {bl : Block} (h : bl ∈ issueData phase byte) :
    bl.Common := by
  obtain rfl | rfl := mem_issueData h
  · exact .poll
  · exact .writeData byte

theorem setDisplayDataAddressByte_format (a : Nat) : ¬IsFunctionSetByte (setDisplayDataAddressByte a) := by
  have key : ∀ x : Byte, ¬IsFunctionSetByte (0x80 ||| x) := by unfold IsFunctionSetByte; decide
  exact key _

theorem setCGRAMAddressByte_format (a : Nat) : ¬IsFunctionSetByte (setCGRAMAddressByte a) := by
  have key : ∀ x : Byte, ¬IsFunctionSetByte (0x40 ||| x) := by unfold IsFunctionSetByte; decide
  exact key _

theorem setEntryModeByte_format (i d : Bool) : ¬IsFunctionSetByte (setEntryModeByte i d) := by
  revert i d; unfold IsFunctionSetByte; decide

theorem displayControlByte_format (d c b : Bool) : ¬IsFunctionSetByte (displayControlByte d c b) := by
  revert d c b; unfold IsFunctionSetByte; decide

theorem cursorDisplayShiftByte_format (d c : Bool) : ¬IsFunctionSetByte (cursorDisplayShiftByte d c) := by
  revert d c; unfold IsFunctionSetByte; decide

theorem common_of_mem_clearBlocks {phase : Bool} {a : Addr7} {bl : Block} (h : bl ∈ clearBlocks phase a) :
    bl.Common := by
  obtain h | h := List.mem_append.1 h
  · exact common_of_mem_issueInstruction (setDisplayDataAddressByte_format _) h
  · exact common_of_mem_issueData h

theorem common_of_mem_clearRange {phase : Bool} {line pos cells : Nat} {bl : Block}
    (h : bl ∈ clearRange phase line pos cells) : bl.Common := by
  obtain ⟨i, -, h⟩ := List.mem_flatMap.1 h
  split at h
  · exact common_of_mem_clearBlocks h
  · cases h

theorem common_of_mem_textBlocks {phase : Bool} {text : List Byte} {bl : Block} (h : bl ∈ textBlocks phase text) :
    bl.Common := by
  obtain ⟨c, -, h⟩ := List.mem_flatMap.1 h
  exact common_of_mem_issueData h

theorem common_of_mem_planWriteAt {text : List Byte} {line pos cells : Nat} {phase : Bool} {bl : Block}
    (h : bl ∈ (planWriteAt text line pos cells phase).blocks) : bl.Common := by
  unfold planWriteAt at h
  split at h
  · cases h
  split at h
  · cases h
  simp only [List.mem_append] at h
  obtain (h | h) | h := h
  · exact common_of_mem_clearRange h
  · exact common_of_mem_issueInstruction (setDisplayDataAddressByte_format _) h
  · exact common_of_mem_textBlocks h

theorem common_of_mem_planClearCell {line pos : Nat} {phase : Bool} {bl : Block}
    (h : bl ∈ (planClearCell line pos phase).blocks) : bl.Common := by
  unfold planClearCell at h
  split at h
  · cases h
  · exact common_of_mem_clearBlocks h

/-- Only `FunctionSet` sets the phase flag, and only it and the raw instruction write send a Function Set. -/
theorem common_of_mem_planOf {i : Instr} {phase : Bool} {bl : Block} (h : bl ∈ (planOf i phase).blocks)
    (hf : ∀ l n f, i ≠ .functionSet l n f) :
    bl.Common ∨ ∃ v, i = .writeLcd .instruction v ∧ bl = .write .instruction v := by
  cases i with
  | functionSet l n f => exact absurd rfl (hf l n f)
  | clearDisplay => exact .inl (common_of_mem_issueInstruction (by unfold IsFunctionSetByte; decide) h)
  | returnHome => exact .inl (common_of_mem_issueInstruction (by unfold IsFunctionSetByte; decide) h)
  | setEntryMode i d => exact .inl (common_of_mem_issueInstruction (setEntryModeByte_format i d) h)
  | displayControl d c b => exact .inl (common_of_mem_issueInstruction (displayControlByte_format d c b) h)
  | cursorDisplayShift d c => exact .inl (common_of_mem_issueInstruction (cursorDisplayShiftByte_format d c) h)
  | setCGRAMAddress a => exact .inl (common_of_mem_issueInstruction (setCGRAMAddressByte_format a) h)
  | setDisplayDataAddress a => exact .inl (common_of_mem_issueInstruction (setDisplayDataAddressByte_format a) h)
  | writeDataReg v => exact .inl (common_of_mem_issueData h)
  | readDataReg =>
    obtain h | h := List.mem_append.1 h
    · cases phase with
      | false => cases h
      | true => exact .inl (List.mem_singleton.1 h ▸ .poll)
    · exact .inl (List.mem_singleton.1 h ▸ .read _)
  | isBusy => exact .inl (List.mem_singleton.1 h ▸ .read _)
  | readAddressCounter => exact .inl (List.mem_singleton.1 h ▸ .read _)
  | readLcd r => exact .inl (List.mem_singleton.1 h ▸ .read _)
  | waitNotBusy => exact .inl (List.mem_singleton.1 h ▸ .poll)
  | writeLcd r v =>
    obtain rfl := List.mem_singleton.1 h
    cases r with
    | data => exact .inl (.writeData v)
    | instruction => exact .inr ⟨v, rfl, rfl⟩
  | configure d dir l => cases h
  | mapAddress line col => cases h
  | clearCell line pos => exact .inl (common_of_mem_planClearCell h)
  | writeAt text line pos cells => exact .inl (common_of_mem_planWriteAt h)
  | writeLine text line => exact .inl (common_of_mem_planWriteAt h)

theorem setStartup_not_mem_planOf {i : Instr} {phase : Bool} (hf : ∀ l n f, i ≠ .functionSet l n f) :
    Block.setStartup ∉ (planOf i phase).blocks := by
  intro h
  obtain h | ⟨v, -, h⟩ := common_of_mem_planOf h hf <;> cases h

/-- Operations that write no register: those that read one, wait, bind, or compute. -/
def WritesNothing (i : Instr) : Prop :=
  i = .isBusy ∨ i = .readAddressCounter ∨ i = .waitNotBusy ∨ i = .readDataReg ∨ (∃ r, i = .readLcd r)
    ∨ (∃ d dir l, i = .configure d dir l) ∨ ∃ l c, i = .mapAddress l c

theorem write_not_mem_planOf {i : Instr} {phase : Bool} (hi : WritesNothing i) (r : Register) (v : Byte) :
    Block.write r v ∉ (planOf i phase).blocks := by
  obtain rfl | rfl | rfl | rfl | ⟨q, rfl⟩ | ⟨d, dir, l, rfl⟩ | ⟨l, c, rfl⟩ := hi
  · simp [planOf, planIsBusy]
  · simp [planOf, planReadAddressCounter]
  · simp [planOf, planWaitNotBusy]
  · cases phase <;> simp [planOf, planReadDataReg, pace]
  · simp [planOf, planReadLcd]
  · simp [planOf]
  · simp [planOf]

/-! ## The controller's bus width -/

@[simp] theorem latchWidth_some (l : BusLength) (rs : Bool) (v : Byte) : latchWidth (some l) rs v = some l := rfl

@[simp] theorem latchWidth_data (w : Option BusLength) (v : Byte) : latchWidth w true v = w := by
  cases w <;> rfl

theorem latchWidth_of_not_functionSet (w : Option BusLength) {v : Byte} (h : ¬IsFunctionSetByte v) :
    latchWidth w false v = w := by
  cases w with
  | some l => rfl
  | none => exact if_neg fun hv => h hv.2

theorem latchWidth_functionSetByte (l : BusLength) (n : LineCount) (f : Font) :
    latchWidth none false (functionSetByte l n f) = some l := by
  cases l <;> cases n <;> cases f <;> decide

/-- What a block makes of the controller's record of its bus width (10_state.md R29 (c)). -/
def Block.latch (w : Option BusLength) : Block → Option BusLength
  | .write r v => latchWidth w (rsLevel r) v
  | .poll | .read _ | .setStartup => w

theorem block_latch {b : Bindings} {bl : Block} {sb sb' : Byte} {s t : State}
    (h : microSteps b (bl.micros s.timing) sb s = .next (sb', t)) : t.lcd.width = bl.latch s.lcd.width := by
  rw [block_width h]
  cases bl <;> rfl

@[simp] theorem Block.latch_some (l : BusLength) (bl : Block) : bl.latch (some l) = some l := by
  cases bl <;> rfl

theorem Block.Common.latch {bl : Block} (h : bl.Common) (w : Option BusLength) : bl.latch w = w := by
  cases h with
  | poll => rfl
  | read r => rfl
  | writeData v => exact latchWidth_data w v
  | writeInstruction v hv => exact latchWidth_of_not_functionSet w hv

/-- A run that ends leaves the width that its blocks latch one after the other. -/
theorem runBlocks_width {b : Bindings} {i : Instr} {x : Extract} :
    ∀ (bls : List Block) (k : Nat) (sb : Byte) (s t : State), runBlocks b i x k bls sb s = .next t → t.seq = .idle →
      t.lcd.width = bls.foldl Block.latch s.lcd.width
  | [], _, _, _, _, h, _ => by
    injection h with h
    exact h ▸ rfl
  | bl :: bls, k, sb, s, t, h, hq => by
    obtain ⟨sb', u, hu, ⟨-, -, rfl⟩ | ⟨-, hrest⟩⟩ := runBlocks_cons_cases h
    · cases hq
    · rw [runBlocks_width bls (k + 1) sb' u t hrest hq, block_latch hu, List.foldl_cons]

end Sys2Proof.Machine
end

section
/-! SUPPORT. The bound port bits: what the port registers show of the lines after each port operation. -/

namespace Sys2Proof.Machine

/-! ## One bit of a byte -/

theorem getLsbD_putBit_self (v : Byte) (i : Fin 8) (level : Bool) :
    (putBit v i level).getLsbD i.val = level := by
  cases level <;> simp [putBit]

theorem getLsbD_putBit_other (v : Byte) {i j : Fin 8} (level : Bool) (hij : j ≠ i) :
    (putBit v i level).getLsbD j.val = v.getLsbD j.val := by
  have hbit : ((1 : Byte) <<< i.val).getLsbD j.val = false := by
    revert i j
    decide
  cases level with
  | true => simp only [putBit, if_true, BitVec.getLsbD_or, hbit, Bool.or_false]
  | false =>
    simp only [putBit, Bool.false_eq_true, if_false, BitVec.getLsbD_and, BitVec.getLsbD_not, hbit, j.isLt,
      decide_true, Bool.not_false, Bool.and_true]

/-! ## A bound line after a port operation -/

theorem readBit_putPin_self (p : PinHandle) (level : Bool) {s : State} (hs : s.ports.wf portUnlisted = true) :
    (s.putPin p level).readBit p = level := by
  rw [State.readBit, putPin_ports, Memory.read_write_self _ _ _ _ 0 hs, getLsbD_putBit_self]

theorem readBit_putPin_other {p q : PinHandle} (level : Bool) {s : State} (hpq : q.port = p.port → q.bit ≠ p.bit)
    (hs : s.ports.wf portUnlisted = true) : (s.putPin p level).readBit q = s.readBit q := by
  simp only [State.readBit, putPin_ports]
  by_cases hport : q.port = p.port
  · rw [hport, Memory.read_write_self _ _ _ _ 0 hs, getLsbD_putBit_other _ _ (hpq hport)]
  · rw [Memory.read_write_other _ _ _ _ hport]

theorem readBit_writePort_other {p : PortName} {q : PinHandle} (v : Byte) (s : State) (hq : q.port ≠ p) :
    (s.writePort p v).readBit q = s.readBit q := by
  simp only [State.readBit, writePort_ports, Memory.read_write_other _ _ _ _ hq]

theorem distinct_iff {p q : PinHandle} : p.distinct q = true ↔ (p.port = q.port → p.bit ≠ q.bit) := by
  simp [PinHandle.distinct, imp_iff_not_or]

theorem outside_iff {p : PinHandle} {bus : BusHandle} :
    p.outside bus = true ↔ p.port ≠ bus.out ∧ p.port ≠ bus.inp ∧ p.port ≠ bus.dir := by
  simp [PinHandle.outside, and_assoc]

/-- What well-formed bindings say of the lines the block writes; the input register is only read. -/
structure Apart (b : Bindings) : Prop where
  rsRw : b.rs.port = b.rw.port → b.rs.bit ≠ b.rw.bit
  rsEn : b.rs.port = b.en.port → b.rs.bit ≠ b.en.bit
  rwEn : b.rw.port = b.en.port → b.rw.bit ≠ b.en.bit
  rsOut : b.rs.port ≠ b.bus.out
  rwOut : b.rw.port ≠ b.bus.out
  enOut : b.en.port ≠ b.bus.out
  rsDir : b.rs.port ≠ b.bus.dir
  rwDir : b.rw.port ≠ b.bus.dir
  enDir : b.en.port ≠ b.bus.dir
  dirOut : b.bus.dir ≠ b.bus.out

theorem apart_of_wellFormed {b : Bindings} (h : b.wellFormed = true) : Apart b := by
  simp only [Bindings.wellFormed, Bool.and_eq_true, distinct_iff, outside_iff, bne_iff_ne] at h
  obtain ⟨⟨⟨⟨⟨⟨⟨h1, h2⟩, h3⟩, h4, -, h5⟩, h6, -, h7⟩, h8, -, h9⟩, h10⟩, -⟩ := h
  exact ⟨h1, h2, h3, h4, h6, h8, h5, h7, h9, h10⟩

/-- What the ports show of the bound lines. -/
structure Lines where
  rs : Bool
  rw : Bool
  e : Bool
  dir : Byte
  out : Byte

/-- The ports, in canonical form, show `L` at the bits and registers `b` names (10_state.md R22, R23). -/
structure Shows (b : Bindings) (L : Lines) (s : State) : Prop where
  wf : s.ports.wf portUnlisted = true
  rs : s.readBit b.rs = L.rs
  rw : s.readBit b.rw = L.rw
  e : s.readBit b.en = L.e
  dir : s.ports.read portUnlisted b.bus.dir = L.dir
  out : s.ports.read portUnlisted b.bus.out = L.out

/-- The lines as the ports of `s` show them. -/
def State.lines (b : Bindings) (s : State) : Lines where
  rs := s.readBit b.rs
  rw := s.readBit b.rw
  e := s.readBit b.en
  dir := s.ports.read portUnlisted b.bus.dir
  out := s.ports.read portUnlisted b.bus.out

theorem shows_lines {b : Bindings} {s : State} (h : s.ports.wf portUnlisted = true) : Shows b (s.lines b) s :=
  ⟨h, rfl, rfl, rfl, rfl, rfl⟩

/-- What the ports show depends on them alone. -/
theorem Shows.of_ports {b : Bindings} {L : Lines} {s t : State} (hs : Shows b L s) (h : t.ports = s.ports) :
    Shows b L t := by
  obtain ⟨hwf, hrs, hrw, he, hdir, hout⟩ := hs
  constructor <;> simpa only [State.readBit, h]

section
variable {b : Bindings} (hb : Apart b) {L : Lines} {s : State} (hs : Shows b L s)
include hb hs

theorem Shows.driveRs (v : Bool) : Shows b { L with rs := v } (s.driveRs b v) :=
  Shows.of_ports (s := s.putPin b.rs v)
    { wf := Memory.write_wf _ _ _ _ hs.wf
      rs := readBit_putPin_self b.rs v hs.wf
      rw := (readBit_putPin_other v (fun h => (hb.rsRw h.symm).symm) hs.wf).trans hs.rw
      e := (readBit_putPin_other v (fun h => (hb.rsEn h.symm).symm) hs.wf).trans hs.e
      dir := (Memory.read_write_other _ _ _ _ hb.rsDir.symm _).trans hs.dir
      out := (Memory.read_write_other _ _ _ _ hb.rsOut.symm _).trans hs.out } rfl

theorem Shows.driveRw (v : Bool) : Shows b { L with rw := v } (s.driveRw b v) :=
  Shows.of_ports (s := s.putPin b.rw v)
    { wf := Memory.write_wf _ _ _ _ hs.wf
      rs := (readBit_putPin_other v hb.rsRw hs.wf).trans hs.rs
      rw := readBit_putPin_self b.rw v hs.wf
      e := (readBit_putPin_other v (fun h => (hb.rwEn h.symm).symm) hs.wf).trans hs.e
      dir := (Memory.read_write_other _ _ _ _ hb.rwDir.symm _).trans hs.dir
      out := (Memory.read_write_other _ _ _ _ hb.rwOut.symm _).trans hs.out } rfl

theorem Shows.driveE (v : Bool) : Shows b { L with e := v } (s.driveE b v) :=
  Shows.of_ports (s := s.putPin b.en v)
    { wf := Memory.write_wf _ _ _ _ hs.wf
      rs := (readBit_putPin_other v hb.rsEn hs.wf).trans hs.rs
      rw := (readBit_putPin_other v hb.rwEn hs.wf).trans hs.rw
      e := readBit_putPin_self b.en v hs.wf
      dir := (Memory.read_write_other _ _ _ _ hb.enDir.symm _).trans hs.dir
      out := (Memory.read_write_other _ _ _ _ hb.enOut.symm _).trans hs.out } rfl

theorem Shows.driveDir (d : Dir) : Shows b { L with dir := Config.directionValue d } (s.driveDir b d) :=
  Shows.of_ports (s := s.writePort b.bus.dir (Config.directionValue d))
    { wf := Memory.write_wf _ _ _ _ hs.wf
      rs := (readBit_writePort_other _ s hb.rsDir).trans hs.rs
      rw := (readBit_writePort_other _ s hb.rwDir).trans hs.rw
      e := (readBit_writePort_other _ s hb.enDir).trans hs.e
      dir := Memory.read_write_self _ _ _ _ 0 hs.wf
      out := (Memory.read_write_other _ _ _ _ hb.dirOut.symm _).trans hs.out } rfl

theorem Shows.driveOut (v : Byte) : Shows b { L with out := v } (s.driveOut b v) :=
  Shows.of_ports (s := s.writePort b.bus.out v)
    { wf := Memory.write_wf _ _ _ _ hs.wf
      rs := (readBit_writePort_other _ s hb.rsOut).trans hs.rs
      rw := (readBit_writePort_other _ s hb.rwOut).trans hs.rw
      e := (readBit_writePort_other _ s hb.enOut).trans hs.e
      dir := (Memory.read_write_other _ _ _ _ hb.dirOut _).trans hs.dir
      out := Memory.read_write_self _ _ _ _ 0 hs.wf } rfl

/-! ## A transfer -/

/-- After a write the ports show the idle lines and the byte (40_bus_transport.md R64, R71). -/
theorem Shows.write {r : Register} {v sb sb' : Byte} {t : State} (he : s.pins.e = false)
    (h : microSteps b (writeMicros s.timing r v) sb s = .next (sb', t)) :
    Shows b { rs := rsLevel r, rw := true, e := false, dir := Config.directionValue .drive, out := v } t := by
  rw [microSteps_write _ _ _ _ he] at h
  split at h
  · next u hu =>
    injection h with h
    injection h with _ h
    subst h
    have h1 := (hs.driveRs hb (rsLevel r)).driveRw hb false
    have h2 := (((h1.of_ports (t := State.elapse s.timing.tAS (.delay s.timing.tAS) _) rfl).driveDir hb
      .drive).driveOut hb v).driveE hb true
    have h3 := (h2.of_ports (t := s.raisedForWrite b s.timing r v) rfl).driveE hb false
    have h4 := h3.of_ports (lcdTakes_quiet hu).2
    exact (h4.of_ports (t := u.elapse s.timing.tH (.delay s.timing.tH)) rfl).driveRw hb true
  · cases h
  · cases h

/-- After a read the ports show the idle lines and the byte they showed before (40_bus_transport.md R66, R71). -/
theorem Shows.read {r : Register} {sb sb' : Byte} {t : State} (he : s.pins.e = false)
    (h : microSteps b (readMicros s.timing r) sb s = .next (sb', t)) :
    Shows b { rs := rsLevel r, rw := true, e := false, dir := Config.directionValue .sense, out := L.out } t := by
  rw [microSteps_read _ _ _ he] at h
  split at h
  · next v u hu =>
    injection h with h
    injection h with _ h
    subst h
    have h1 := (hs.driveRs hb (rsLevel r)).driveRw hb true
    have h2 := ((h1.of_ports (t := State.elapse s.timing.tAS (.delay s.timing.tAS) _) rfl).driveDir hb
      .sense).driveE hb true
    have h3 := h2.of_ports (t := s.raisedForRead b s.timing r) rfl
    have h4 := (h3.of_ports (lcdSupplies_quiet hu).2).of_ports
      (t := (u.elapse 0 (.input v)).stretched s.timing) (by simp)
    exact (h4.driveE hb false).of_ports rfl
  · cases h
  · cases h

end

end Sys2Proof.Machine
end

section
/-! PROOF. The statements about the state: invariants of every step, frames of every operation, the bound port bits and
the controller's bus width. -/

namespace Sys2Proof.Machine

/-! ## The state's own invariant -/

/-- `Configure` accepts exactly the well-formed bindings. -/
theorem bindingsDistinct_eq_wellFormed (b : Bindings) : bindingsDistinct b = b.wellFormed := rfl

theorem inv_block {b : Bindings} {bl : Block} {sb sb' : Byte} {s t : State} (hs : s.Inv)
    (hc : s.handle.configured = true) (h : microSteps b (bl.micros s.timing) sb s = .next (sb', t)) : t.Inv := by
  obtain ⟨hconf, hbind, -, -, -, -⟩ := microSteps_holds h
  have hmem := microSteps_keep_memories h
  have hct : t.handle.configured = true := hconf.trans hc
  exact
    { ports := hmem.ports hs.ports
      lcd := hmem.lcd hs.lcd
      bound := fun _ => hbind ▸ hs.bound hc
      unbound := fun hn => by rw [hct] at hn; cases hn
      progress := fun _ => hct
      enableLow := block_leaves_low hs.enableLow h }

/-- Settles O50: each part of a step keeps the invariant, `Configure` because it accepts well-formed bindings alone. -/
theorem stepKeepsTheInvariant : Obligations.StepKeepsTheInvariant := by
  intro s t hs h
  refine step_keeps (P := State.Inv) ?reply ?calls ?wait ?configure ?seq ?block hs h
  case reply => exact fun s r hs => { hs with }
  case calls => exact fun s c hs => { hs with }
  case wait =>
    intro s d hs
    exact
      { ports := by simpa using hs.ports
        lcd := hostWait_lcd_wf hs.lcd
        bound := by simpa using hs.bound
        unbound := by simpa using hs.unbound
        progress := by simpa using hs.progress
        enableLow := (congrArg Pins.e (hostWait_logs d s).pins).trans hs.enableLow }
  case configure =>
    intro s b hs _ hd
    exact { hs with
      bound := fun _ => ⟨b, rfl, hd⟩
      unbound := fun hn => by cases hn
      progress := fun _ => rfl }
  case seq => exact fun s q hs hq => { hs with progress := hq.resolve_left }
  case block => exact fun bl b sb sb' s t hs hc _ h => inv_block hs hc h

/-! ## Time -/

theorem stampsFrom_append {x : Stamped} (hx : x.start ≤ x.stop) :
    ∀ {lo : Nat} {l : List Stamped}, StampsFrom lo l → lo ≤ x.start → (∀ y ∈ l, y.stop ≤ x.start) →
      StampsFrom lo (l ++ [x])
  | _, [], _, hlo, _ => ⟨hlo, hx, trivial⟩
  | _, y :: _, ⟨h1, h2, h3⟩, _, hl =>
    ⟨h1, h2, stampsFrom_append hx h3 (hl y (List.mem_cons_self ..)) fun z hz => hl z (List.mem_cons_of_mem _ hz)⟩

theorem Logs.ordered {ev : Event} {s t : State} (h : Logs ev s t) (hs : s.Ordered) : t.Ordered := by
  obtain ⟨hrise, hpast⟩ := hs
  rw [State.Ordered, h.trace]
  refine ⟨stampsFrom_append h.now hrise (Nat.zero_le _) hpast, ?_⟩
  simp only [List.mem_append, List.mem_singleton]
  rintro x (hx | rfl)
  · exact (hpast x hx).trans h.now
  · exact Nat.le_refl _

theorem Quiet.ordered {s t : State} (h : Quiet s t) (hs : s.Ordered) : t.Ordered := by
  rw [State.Ordered, h.trace, h.now]
  exact hs

/-- Settles O52: each event begins at the clock's time, when all before it are over, and ends at the new one. -/
theorem stepKeepsTimeRising : Obligations.StepKeepsTimeRising := fun _ _ hs h =>
  step_keeps_of_logs (fun _ _ hs hq => hq.ordered hs) (fun _ _ _ hs hl => hl.ordered hs) hs h

/-! ## The pins and the trace -/

theorem lastOf_append_singleton {α : Type} (f : Event → Option α) (es : List Event) (ev : Event) :
    lastOf f (es ++ [ev]) = (f ev).or (lastOf f es) := by
  cases hf : f ev <;> simp [lastOf, List.filterMap_append, hf]

/-- The pins' component `g` is what the last event of the kind `f` wrote. -/
def Follows {α : Type} (f : Event → Option α) (g : Pins → α) (s : State) : Prop :=
  ∀ v, lastOf f s.events = some v → g s.pins = v

/-- An event keeps a component in step if it writes it exactly when it is of its kind. -/
theorem Logs.follows {α : Type} {f : Event → Option α} {g : Pins → α} {ev : Event} {s t : State}
    (hfg : g (s.pins.after ev) = (f ev).getD (g s.pins)) (h : Logs ev s t) (hs : Follows f g s) : Follows f g t := by
  intro v hv
  rw [events_append h.trace, List.map_singleton, lastOf_append_singleton] at hv
  rw [h.pins, hfg]
  cases hf : f ev with
  | none => exact hs v (by simpa [hf] using hv)
  | some w => simpa [hf] using hv

theorem Logs.pinsFollowTrace {ev : Event} {s t : State} (h : Logs ev s t) (hs : s.PinsFollowTrace) :
    t.PinsFollowTrace where
  rs := h.follows (by cases ev <;> rfl) hs.rs
  rw := h.follows (by cases ev <;> rfl) hs.rw
  e := h.follows (by cases ev <;> rfl) hs.e
  dir := h.follows (by cases ev <;> rfl) hs.dir
  out := h.follows (by cases ev <;> rfl) hs.out

theorem Quiet.pinsFollowTrace {s t : State} (h : Quiet s t) (hs : s.PinsFollowTrace) : t.PinsFollowTrace := by
  obtain ⟨hrs, hrw, he, hdir, hout⟩ := hs
  constructor <;> simpa only [State.events, h.trace, h.pins]

/-- Settles O54: every event writes the pins' component of its own kind and no other. -/
theorem stepKeepsPinsAsWritten : Obligations.StepKeepsPinsAsWritten := fun _ _ hs h =>
  step_keeps_of_logs (fun _ _ hs hq => hq.pinsFollowTrace hs) (fun _ _ _ hs hl => hl.pinsFollowTrace hs) hs h

/-! ## The handle -/

/-- Settles O34: on an unconfigured handle an operation only replies, or binds the handle in phase 0. -/
theorem unconfiguredHandleTouchesNothing : Obligations.UnconfiguredHandleTouchesNothing := by
  intro i s t hc h
  obtain ⟨q, r, rfl⟩ | ⟨d, dir, l, -, -, rfl⟩ | ⟨hc', -⟩ := running_cases h
  · exact ⟨rfl, rfl, rfl, rfl, rfl, id⟩
  · exact ⟨rfl, rfl, rfl, rfl, rfl, fun _ => rfl⟩
  · rw [hc] at hc'
    cases hc'

/-- Settles O37: on a configured handle `Configure` does nothing, and a block at most sets the flag. -/
theorem handleChangesOnlyByThePhaseFlag : Obligations.HandleChangesOnlyByThePhaseFlag := by
  intro s t hc h
  refine step_keeps (P := fun u => u.handle = s.handle ∨ u.handle = { s.handle with startupComplete := true })
    (fun _ _ hu => hu) (fun _ _ hu => hu) (fun u d hu => by simpa using hu) ?configure (fun _ _ hu _ => hu) ?block
    (.inl rfl) h
  case configure =>
    intro u b hu hcu _
    obtain hu | hu := hu <;> simp [hu, hc] at hcu
  case block =>
    intro bl b sb sb' u v hu _ _ hv
    obtain ⟨-, hv⟩ | ⟨-, hv⟩ := block_handle hv
    · rw [hv]
      exact hu
    · obtain hu | hu := hu <;> exact .inr (by rw [hv, hu])

/-! ## The frame of every operation -/

/-- From `s` to `t` the run goes on: nothing of the past, the parameters or the host's stream changes, and an oracle
stays one. -/
structure Continues (s t : State) : Prop where
  timing : t.timing = s.timing
  calls : t.calls = s.calls
  trace : ∃ l, t.trace = s.trace ++ l
  now : s.now ≤ t.now
  oracle : s.UnderOracle → t.UnderOracle

theorem continues_refl (s : State) : Continues s s :=
  ⟨rfl, rfl, ⟨[], by simp⟩, Nat.le_refl _, id⟩

theorem Continues.trans {s t u : State} (hst : Continues s t) (htu : Continues t u) : Continues s u := by
  obtain ⟨l, hl⟩ := hst.trace
  obtain ⟨m, hm⟩ := htu.trace
  exact ⟨htu.timing.trans hst.timing, htu.calls.trans hst.calls, ⟨l ++ m, by rw [hm, hl, List.append_assoc]⟩,
    hst.now.trans htu.now, htu.oracle ∘ hst.oracle⟩

theorem block_continues {b : Bindings} {bl : Block} {sb sb' : Byte} {s t : State}
    (h : microSteps b (bl.micros s.timing) sb s = .next (sb', t)) : Continues s t := by
  obtain ⟨-, -, htiming, -, -, hcalls⟩ := microSteps_holds h
  exact ⟨htiming, hcalls, microSteps_trace h, block_now h, fun ho => block_oracle ho h⟩

section
variable {i : Instr} {s t : State} (h : exec i s = .next t ∨ ∃ k, s.seq = .at i k ∧ step s = .next t)
include h

theorem running_continues : Continues s t :=
  running_keeps (P := Continues s) (fun _ _ hu => { hu with }) (fun _ _ hu => { hu with })
    (fun _ _ _ _ hu => { hu with }) (fun _ _ _ _ _ _ _ hu hv => hu.trans (block_continues hv)) (continues_refl s) h

theorem running_handle (hf : ∀ l n f, i ≠ .functionSet l n f) (hc : ∀ d dir l, i ≠ .configure d dir l) :
    t.handle = s.handle := by
  refine running_keeps (P := fun u => u.handle = s.handle) (fun _ _ hu => hu) (fun _ _ hu => hu)
    (fun d dir l hi _ => absurd hi (hc d dir l)) ?block rfl h
  intro bl hbl b sb sb' u v hu hv
  obtain ⟨-, hv⟩ | ⟨rfl, -⟩ := block_handle hv
  · exact hv.trans hu
  · exact absurd hbl (setStartup_not_mem_planOf hf)

theorem running_dbOut (hi : WritesNothing i) : t.pins.dbOut = s.pins.dbOut := by
  refine running_keeps (P := fun u => u.pins.dbOut = s.pins.dbOut) (fun _ _ hu => hu) (fun _ _ hu => hu)
    (fun _ _ _ _ hu => hu) ?block rfl h
  intro bl hbl b sb sb' u v hu hv
  exact (block_dbOut (fun r w hw => write_not_mem_planOf hi r w (hw ▸ hbl)) hv).trans hu

/-- The controller's width stays if no block of the plan can latch one. -/
theorem running_width (hlatch : ∀ bl ∈ (planOf i s.handle.startupComplete).blocks, ∀ w, bl.latch w = w) :
    t.lcd.width = s.lcd.width := by
  refine running_keeps (P := fun u => u.lcd.width = s.lcd.width) (fun _ _ hu => hu) (fun _ _ hu => hu)
    (fun _ _ _ _ hu => hu) ?block rfl h
  intro bl hbl b sb sb' u v hu hv
  rw [block_latch hv, hlatch bl hbl, hu]

end

theorem latch_of_writesNothing {i : Instr} (hi : WritesNothing i) {phase : Bool} {bl : Block}
    (h : bl ∈ (planOf i phase).blocks) (w : Option BusLength) : bl.latch w = w := by
  cases bl with
  | write r v => exact absurd h (write_not_mem_planOf hi r v)
  | poll => rfl
  | read r => rfl
  | setStartup => rfl

/-- Settles O39: each clause is kept by every block the operation's plan has. -/
theorem frameOfEveryOperation : Obligations.FrameOfEveryOperation := by
  intro i s t h
  obtain ⟨htiming, hcalls, htrace, hnow, horacle⟩ := running_continues h
  exact ⟨htiming, hcalls, htrace, hnow, horacle, running_handle h, fun hi =>
    ⟨running_dbOut h hi, running_width h fun _ hbl => latch_of_writesNothing hi hbl⟩⟩

/-! ## The bound port bits -/

/-- Settles O41: the lines the ports show are followed from port operation to port operation, whatever they showed
before. -/
theorem boundBitsCarryThePins : Obligations.BoundBitsCarryThePins := by
  constructor
  · intro r v b s t hclean hconf hb hwf h
    obtain ⟨b', sb, u, hb', hu, rfl⟩ := exec_writeLcd_runs hconf.1 h
    obtain rfl : b' = b := Option.some.inj (hb'.symm.trans hconf.2)
    have hpins := (write_done (s := { s with reply := none }) hclean.2 hu).2.pins
    obtain ⟨-, hrs, hrw, he, hdir, hout⟩ :=
      Shows.write (s := { s with reply := none }) (apart_of_wellFormed hb) (shows_lines hwf) hclean.2 hu
    rw [finish_pins, finish_ports, hpins]
    exact ⟨hrs.trans (rsLevel_eq r), hrw, he, hout, hdir⟩
  · intro r b s t hclean hconf hb hwf h
    obtain ⟨b', sb, u, hb', hu, rfl⟩ := exec_readLcd_runs hconf.1 h
    obtain rfl : b' = b := Option.some.inj (hb'.symm.trans hconf.2)
    have hpins := (read_done (s := { s with reply := none }) hclean.2 hu).pins
    obtain ⟨-, hrs, hrw, he, hdir, hout⟩ :=
      Shows.read (s := { s with reply := none }) (apart_of_wellFormed hb) (shows_lines hwf) hclean.2 hu
    rw [finish_pins, finish_ports, hpins]
    exact ⟨hrs.trans (rsLevel_eq r), hrw, he, hdir, hout⟩

/-! ## The controller's bus width -/

theorem step_keeps_latched {s t : State} {l : BusLength} (hw : s.lcd.width = some l)
    (h : step s = .next t ∨ ∃ i, exec i s = .next t) : t.lcd.width = some l := by
  have hblock : ∀ (bl : Block) (b : Bindings) (sb sb' : Byte) (u v : State), u.lcd.width = some l →
      u.handle.configured = true → u.handle.bindings = some b →
      microSteps b (bl.micros u.timing) sb u = .next (sb', v) → v.lcd.width = some l := by
    intro bl b sb sb' u v hu _ _ hv
    rw [block_latch hv, hu, Block.latch_some]
  obtain h | ⟨i, h⟩ := h
  · exact step_keeps (P := fun u => u.lcd.width = some l) (fun _ _ hu => hu) (fun _ _ hu => hu)
      (fun u d hu => (hostWait_width d u).trans hu) (fun _ _ hu _ _ => hu) (fun _ _ hu _ => hu) hblock hw h
  · exact exec_keeps (P := fun u => u.lcd.width = some l) (fun _ _ hu => hu) (fun _ _ hu _ _ => hu)
      (fun _ _ hu _ => hu) (fun bl _ => hblock bl) hw h

theorem functionSet_latches {l : BusLength} {n : LineCount} {f : Font} {s t : State}
    (hc : s.handle.configured = true) (hw : s.lcd.width = none) (h : exec (.functionSet l n f) s = .next t)
    (hq : t.seq = .idle) : t.lcd.width = some l := by
  obtain ⟨b, -, hr⟩ := exec_runs rfl hc rfl h
  have hfold := runBlocks_width _ _ _ _ _ hr hq
  have hbyte := latchWidth_functionSetByte l n f
  cases hp : s.handle.startupComplete <;>
    simpa [planOf, planFunctionSet, issueInstruction, pace, hp, Block.latch, rsLevel, hw, hbyte] using hfold

theorem writeLcd_latches {v : Byte} {s t : State} (hc : s.handle.configured = true) (hw : s.lcd.width = none)
    (h : exec (.writeLcd .instruction v) s = .next t) :
    t.lcd.width = if v.extractLsb' 5 3 = 0b001#3 then some (.ofBit (v.getLsbD 4)) else none := by
  obtain ⟨b, sb, u, -, hu, rfl⟩ := exec_writeLcd_runs hc h
  rw [finish_lcd, block_latch (bl := .write .instruction v) hu]
  simp [Block.latch, hw, latchWidth, rsLevel, BusLength.ofBit]

/-- Settles O47: a latched width is never changed, and only the two operations that can send a Function Set latch
one. -/
theorem controllerLatchesItsWidthOnce : Obligations.ControllerLatchesItsWidthOnce := by
  refine ⟨fun s t l hw h => step_keeps_latched hw h, fun l n f s t hc hw h hq => functionSet_latches hc hw h hq,
    fun v s t hc hw h => writeLcd_latches hc hw h, fun i s t hf hraw h => running_width h fun bl hbl w => ?_⟩
  obtain hcommon | ⟨v, hi, -⟩ := common_of_mem_planOf hbl hf
  · exact hcommon.latch w
  · exact absurd hi (hraw v)

/-! ## Reset -/

theorem reset_inv : State.reset.Inv where
  ports := reset_ports_wf
  lcd := trivial
  bound := fun h => by cases h
  unbound := fun _ => ⟨rfl, rfl⟩
  progress := fun h => absurd rfl h
  enableLow := rfl

theorem pinsFollowTrace_of_no_events {s : State} (h : s.trace = []) : s.PinsFollowTrace := by
  constructor <;> simp [State.events, h, lastOf]

/-- Settles O49: at reset the trace is empty, the memories unlisted, the handle unconfigured and Enable low. -/
theorem resetMeetsTheInvariants : Obligations.ResetMeetsTheInvariants :=
  ⟨reset_inv, ⟨trivial, by simp [State.reset]⟩, ⟨rfl, rfl, fun f h => by cases h⟩, pinsFollowTrace_of_no_events rfl,
    ⟨rfl, rfl⟩, ⟨rfl, rfl⟩⟩

end Sys2Proof.Machine
end

section
/-! PROOF. The bus rules: what the monitor of a trace makes of a transfer, from one point of it to the next
(40_bus_transport.md R65, R67). -/

namespace Sys2Proof.Machine

/-! ## What the monitor asks of a remembered time -/

theorem sinceAtLeast_true_iff {since : Option Nat} {d stop : Nat} :
    sinceAtLeast true since d stop = true ↔ ∀ a, since = some a → a + d ≤ stop := by
  cases since <;> simp [sinceAtLeast]

theorem sinceAtLeast_false_iff {since : Option Nat} {d stop : Nat} :
    sinceAtLeast false since d stop = true ↔ ∃ a, since = some a ∧ a + d ≤ stop := by
  cases since <;> simp [sinceAtLeast]

theorem sinceAtLeast_mono {missing : Bool} {since : Option Nat} {d e now stop : Nat}
    (h : sinceAtLeast missing since d now = true) (hstop : now + e ≤ stop + d) :
    sinceAtLeast missing since e stop = true := by
  cases since with
  | none => exact h
  | some a =>
    simp only [sinceAtLeast, decide_eq_true_eq] at h ⊢
    omega

/-- What the monitor may count on stays so at the next event, and so does less of it. -/
theorem Logs.sinceAtLeast {ev : Event} {s t : State} (hl : Logs ev s t) {missing : Bool} {since : Option Nat}
    {d e : Nat} (h : sinceAtLeast missing since d s.now = true) (he : e ≤ d) :
    sinceAtLeast missing since e t.now = true :=
  sinceAtLeast_mono h (Nat.add_le_add hl.now he)

/-! ## One event, seen by the monitor -/

theorem Logs.monitor {ev : Event} {s t : State} (h : Logs ev s t) (ht : t.timing = s.timing) :
    t.monitor = s.monitor.see s.timing { event := ev, start := s.now, stop := t.now } := by
  simp [State.monitor, h.trace, ht]

theorem Quiet.monitor {s t : State} (h : Quiet s t) (ht : t.timing = s.timing) : t.monitor = s.monitor := by
  simp only [State.monitor, h.trace, ht]

theorem elapse_logs (d : Nat) (s : State) : Logs (.delay d) s (s.elapse d (.delay d)) :=
  logs_elapse d (.delay d) rfl rfl rfl

theorem driveRs_logs (b : Bindings) (v : Bool) (s : State) : Logs (.rs v) s (s.driveRs b v) :=
  logs_elapse 0 (.rs v) rfl rfl rfl

theorem driveRw_logs (b : Bindings) (v : Bool) (s : State) : Logs (.rw v) s (s.driveRw b v) :=
  logs_elapse 0 (.rw v) rfl rfl rfl

theorem driveE_logs (b : Bindings) (v : Bool) (s : State) : Logs (.e v) s (s.driveE b v) :=
  logs_elapse 0 (.e v) rfl rfl rfl

theorem driveDir_logs (b : Bindings) (d : Dir) (s : State) : Logs (.dir d) s (s.driveDir b d) :=
  logs_elapse 0 (.dir d) rfl rfl rfl

theorem driveOut_logs (b : Bindings) (v : Byte) (s : State) : Logs (.out v) s (s.driveOut b v) :=
  logs_elapse 0 (.out v) rfl rfl rfl

theorem rested_iff {s : State} : s.Rested ↔
    s.monitor.good = true ∧ s.monitor.up = none ∧ sinceAtLeast true s.monitor.fellAt s.timing.tH s.now = true := by
  simp only [State.Rested, sinceAtLeast_true_iff]

/-- With the bus at rest every event but an edge of Enable and a sample leaves it at rest. -/
theorem State.Rested.logs {ev : Event} {s t : State} (hs : s.Rested) (hl : Logs ev s t) (ht : t.timing = s.timing)
    (he : ∀ v, ev ≠ .e v) (hi : ∀ v, ev ≠ .input v) : t.Rested := by
  rw [rested_iff] at hs ⊢
  obtain ⟨hgood, hup, hfell⟩ := hs
  have hstop := hl.sinceAtLeast hfell (Nat.le_refl _)
  rw [hl.monitor ht, ht]
  cases ev with
  | e v => exact absurd rfl (he v)
  | input v => exact absurd rfl (hi v)
  | delay d => exact ⟨hgood, hup, hstop⟩
  | _ => exact ⟨by simp [Monitor.see, hgood, hup, hstop], hup, hstop⟩

/-! ## From rest to Enable high -/

/-- The bus is at rest and set up for a transfer whose RW level is `rw`, so that Enable may rise. -/
structure State.Ready (rw : Bool) (s : State) : Prop where
  rested : s.Rested
  rsAt : sinceAtLeast false s.monitor.rsAt s.timing.tAS s.now = true
  rwAt : sinceAtLeast false s.monitor.rwAt s.timing.tAS s.now = true
  level : s.monitor.rw = rw
  dir : s.monitor.dir = some (if rw then .sense else .drive)

/-- RS, RW, the set-up time and the direction (W1 to W3, Rd1 to Rd3). -/
theorem State.Rested.ready {s : State} (hs : s.Rested) (b : Bindings) (rs rw : Bool) :
    State.Ready rw ((((s.driveRs b rs).driveRw b rw).elapse s.timing.tAS (.delay s.timing.tAS)).driveDir b
      (if rw then .sense else .drive)) where
  rested := by
    have h1 := hs.logs (driveRs_logs b rs s) rfl (by simp) (by simp)
    have h2 := h1.logs (driveRw_logs b rw _) rfl (by simp) (by simp)
    have h3 := h2.logs (elapse_logs s.timing.tAS _) rfl (by simp) (by simp)
    exact h3.logs (driveDir_logs b _ _) rfl (by simp) (by simp)
  rsAt := by
    simp only [sinceAtLeast_false_iff, State.monitor]
    simp [Monitor.see]
    omega
  rwAt := by
    simp only [sinceAtLeast_false_iff, State.monitor]
    simp [Monitor.see]
    omega
  level := by simp [State.monitor, Monitor.see]
  dir := by simp [State.monitor, Monitor.see]

theorem State.Ready.driveOut {rw : Bool} {s : State} (hs : s.Ready rw) (b : Bindings) (v : Byte) :
    (s.driveOut b v).Ready rw := by
  have hl := driveOut_logs b v s
  have hm := hl.monitor rfl
  exact
    { rested := hs.rested.logs hl rfl (by simp) (by simp)
      rsAt := by rw [hm]; exact hl.sinceAtLeast hs.rsAt (Nat.le_refl _)
      rwAt := by rw [hm]; exact hl.sinceAtLeast hs.rwAt (Nat.le_refl _)
      level := by rw [hm]; exact hs.level
      dir := by rw [hm]; exact hs.dir }

/-! ## While Enable is high -/

/-- Every rule has been kept so far, and in a transfer whose RW level is `rw` Enable has been high for `d`. -/
structure State.Raised (rw : Bool) (d : Nat) (s : State) : Prop where
  good : s.monitor.good = true
  up : sinceAtLeast false s.monitor.up d s.now = true
  level : s.monitor.rw = rw
  dir : s.monitor.dir = some (if rw then .sense else .drive)

theorem State.Ready.raise {rw : Bool} {s : State} (hs : s.Ready rw) (b : Bindings) :
    (s.driveE b true).Raised rw 0 := by
  obtain ⟨hrested, hrs, hrw, hlevel, hdir⟩ := hs
  obtain ⟨hgood, hup, -⟩ := hrested
  have hl := driveE_logs b true s
  have hm := hl.monitor rfl
  have hrs' := hl.sinceAtLeast hrs (Nat.le_refl _)
  have hrw' := hl.sinceAtLeast hrw (Nat.le_refl _)
  constructor <;> rw [hm]
  · simp only [Monitor.see, hgood, hup, hrs', hrw', hlevel, hdir, Option.isNone_none, decide_true, Bool.and_self]
  · simp [Monitor.see, sinceAtLeast]
  · exact hlevel
  · exact hdir

theorem State.Raised.wait {rw : Bool} {d : Nat} {s : State} (hs : s.Raised rw d) (w : Nat) :
    (s.elapse w (.delay w)).Raised rw (d + w) := by
  have hm := (elapse_logs w s).monitor rfl
  constructor <;> rw [hm]
  · exact hs.good
  · exact sinceAtLeast_mono hs.up (by simp only [elapse_now]; omega)
  · exact hs.level
  · exact hs.dir

/-- A sample in a read, taken `T_DDR` after Enable rose (Rd5b). -/
theorem State.Raised.sample {d : Nat} {v : Byte} {s t : State} (hs : s.Raised true d) (hd : s.timing.tDDR ≤ d)
    (hl : Logs (.input v) s t) (ht : t.timing = s.timing) : t.Raised true d := by
  have hup := hl.sinceAtLeast hs.up hd
  have hm := hl.monitor ht
  constructor <;> rw [hm]
  · simp [Monitor.see, hs.good, hs.level, hs.dir, hup]
  · exact hl.sinceAtLeast hs.up (Nat.le_refl _)
  · exact hs.level
  · exact hs.dir

/-- Enable falls after the time it owes, and the hold time passes: the bus is at rest, whatever the controller does at
the edge. -/
theorem State.Raised.rested {rw : Bool} {d : Nat} {T : Timing} {s u : State} (hs : s.Raised rw d)
    (hT : s.timing = T) (hd : (if rw then T.tEHRD else T.tPW) ≤ d) (b : Bindings) (hu : Quiet (s.driveE b false) u)
    (ht : u.timing = s.timing) : (u.elapse T.tH (.delay T.tH)).Rested := by
  subst hT
  have hl := driveE_logs b false s
  have hup := hl.sinceAtLeast hs.up hd
  have hm : (u.elapse s.timing.tH (.delay s.timing.tH)).monitor = s.monitor.see s.timing _ :=
    ((elapse_logs s.timing.tH u).monitor rfl).trans ((hu.monitor ht).trans (hl.monitor rfl))
  rw [rested_iff, hm]
  refine ⟨?_, rfl, ?_⟩
  · simp only [Monitor.see, hs.good, hs.level, hup, Bool.and_self]
  · simp only [Monitor.see, sinceAtLeast, elapse_now, elapse_timing, hu.now, ht, decide_eq_true_eq]
    omega

/-! ## The two transfers -/

theorem lcdTakes_timing {rs : Bool} {v : Byte} {s t : State} (h : s.lcdTakes rs v = .next t) :
    t.timing = s.timing := by
  obtain ⟨-, rfl⟩ | ⟨L, L', -, -, rfl⟩ := lcdTakes_cases h <;> rfl

theorem lcdSupplies_timing {rs : Bool} {v : Byte} {s t : State} (h : s.lcdSupplies rs = .next (v, t)) :
    t.timing = s.timing := by
  obtain ⟨-, -, rfl⟩ | ⟨L, -, -, -, rfl⟩ | ⟨L, L', -, -, -, rfl⟩ := lcdSupplies_cases h <;> rfl

/-- A write keeps the rules of 40_bus_transport.md R65. -/
theorem write_rested {b : Bindings} {r : Register} {v sb sb' : Byte} {s t : State} (hs : s.Rested)
    (he : s.pins.e = false) (h : microSteps b (writeMicros s.timing r v) sb s = .next (sb', t)) : t.Rested := by
  rw [microSteps_write _ _ _ _ he] at h
  split at h
  · next u hu =>
    injection h with h
    injection h with _ h
    subst h
    have hhigh : (s.raisedForWrite b s.timing r v).Raised false (0 + s.timing.tPW) :=
      (((hs.ready b (rsLevel r) false).driveOut b v).raise b).wait s.timing.tPW
    have htiming := lcdTakes_timing hu
    have hrest := hhigh.rested rfl (Nat.le_add_left ..) b (lcdTakes_quiet hu).1 htiming
    exact hrest.logs (driveRw_logs b true _) rfl (by simp) (by simp)
  · cases h
  · cases h

/-- Rd5c makes up for what `T_EH_RD` asks beyond `T_DDR`. -/
theorem State.Raised.stretched {T : Timing} {s : State} (hs : s.Raised true T.tDDR) :
    ∃ d, T.tEHRD ≤ d ∧ (s.stretched T).Raised true d := by
  unfold State.stretched
  split
  · exact ⟨_, by omega, hs.wait _⟩
  · exact ⟨_, by omega, hs⟩

/-- A read keeps the rules of 40_bus_transport.md R67. -/
theorem read_rested {b : Bindings} {r : Register} {sb sb' : Byte} {s t : State} (hs : s.Rested)
    (he : s.pins.e = false) (h : microSteps b (readMicros s.timing r) sb s = .next (sb', t)) : t.Rested := by
  rw [microSteps_read _ _ _ he] at h
  split at h
  · next v u hu =>
    injection h with h
    injection h with _ h
    subst h
    have hhigh : (s.raisedForRead b s.timing r).Raised true (0 + s.timing.tDDR) :=
      ((hs.ready b (rsLevel r) true).raise b).wait s.timing.tDDR
    obtain ⟨⟨htrace, hnow, hpins⟩, -⟩ := lcdSupplies_quiet hu
    have htiming := lcdSupplies_timing hu
    have hsampled := hhigh.sample (Nat.le_add_left ..) (logs_elapse 0 (.input v) htrace hnow hpins) htiming
    rw [Nat.zero_add] at hsampled
    obtain ⟨d, hd, hup⟩ := hsampled.stretched
    exact hup.rested ((stretched_timing ..).trans htiming) hd b ⟨rfl, rfl, rfl⟩ rfl
  · cases h
  · cases h

theorem block_rested {b : Bindings} {bl : Block} {sb sb' : Byte} {s t : State} (hs : s.Rested)
    (h : microSteps b (bl.micros s.timing) sb s = .next (sb', t)) : t.Rested := by
  cases bl with
  | write r v => exact write_rested hs (block_found_low (by simp) h) h
  | read r => exact read_rested hs (block_found_low (by simp) h) h
  | poll => exact read_rested (r := .instruction) hs (block_found_low (by simp) h) h
  | setStartup =>
    injection h with h
    injection h with _ h
    exact h ▸ hs

@[simp] theorem hostWait_timing (d : Nat) (s : State) : (hostWait d s).timing = s.timing := by
  obtain ⟨-, hw⟩ | ⟨L, -, hw⟩ := hostWait_cases d s <;> simp [hw]

/-- Settles O53: the bus is at rest between blocks, and each transfer that finds it at rest keeps every rule and leaves
it at rest. -/
theorem stepKeepsTheBusRules : Obligations.StepKeepsTheBusRules := by
  intro s t hs h
  exact step_keeps (P := State.Rested) (fun _ _ hs => hs) (fun _ _ hs => hs)
    (fun s d hs => hs.logs (hostWait_logs d s) (hostWait_timing d s) (by simp) (by simp))
    (fun _ _ hs _ _ => hs) (fun _ _ hs _ => hs) (fun _ _ _ _ _ _ hs _ _ h => block_rested hs h) hs h

end Sys2Proof.Machine
end

section
/-! PROOF. How the host's calls are taken, and what they leave of the port registers (20_memory.md R31, R42, R43). -/

namespace Sys2Proof.Machine

/-! ## Issuing and taking calls -/

/-- Settles O36: every operation looks at the sequencer first, `Configure` and `mapAddress` as those with a plan. -/
theorem interleavedOperationsAreRefused : Obligations.InterleavedOperationsAreRefused := by
  intro i j k s hq
  by_cases hi : ReachesBus i = true
  · simp only [exec_eq_operate hi, operate, hq]
  · cases i with
    | configure d dir l => simp only [exec, execConfigure, hq]
    | mapAddress line col => simp only [exec, execMapAddress, hq]
    | _ => exact absurd rfl hi

theorem decode_wide {w : Nat} (hw : 2 ^ 10 ≤ w) : decode w = .error .notABusWord := by
  rw [decode, if_neg (by omega)]

/-- Settles O56: each clause is one entry of the stream, or the position of an operation in progress. -/
theorem stepRunsTheNextCall : Obligations.StepRunsTheNextCall := by
  refine fun s calls => ⟨fun hq => ⟨fun i hc => ?_, fun w i hc hw => ?_, fun w hc hw => ?_, fun hc => ?_⟩,
    fun i k hq => ?_⟩
  · exact step_issues hq hc
  · simp only [step, hq, fetch, hc, hw]
  · simp only [step, hq, fetch, hc, decode_wide hw]
  · simp only [step, hq, fetch, hc]
  · simp only [step, hq]

/-! ## The bits that are not bound -/

/-- The bit `q` names is neither of the data output or direction register nor one of the three control lines. -/
structure Unbound (b : Bindings) (q : PinHandle) : Prop where
  out : q.port ≠ b.bus.out
  dir : q.port ≠ b.bus.dir
  rs : q.port = b.rs.port → q.bit ≠ b.rs.bit
  rw : q.port = b.rw.port → q.bit ≠ b.rw.bit
  en : q.port = b.en.port → q.bit ≠ b.en.bit

/-- From `s` to `t` the ports keep their canonical form and the bit `q` names reads as before. -/
structure Untouched (q : PinHandle) (s t : State) : Prop where
  wf : s.ports.wf portUnlisted = true → t.ports.wf portUnlisted = true
  bit : s.ports.wf portUnlisted = true → t.readBit q = s.readBit q

theorem untouched_of_ports {q : PinHandle} {s t : State} (h : t.ports = s.ports) : Untouched q s t :=
  ⟨fun hs => h ▸ hs, fun _ => by simp only [State.readBit, h]⟩

theorem Untouched.trans {q : PinHandle} {s t u : State} (hst : Untouched q s t) (htu : Untouched q t u) :
    Untouched q s u :=
  ⟨htu.wf ∘ hst.wf, fun hs => (htu.bit (hst.wf hs)).trans (hst.bit hs)⟩

theorem putPin_untouched {p q : PinHandle} (level : Bool) (s : State) (hq : q.port = p.port → q.bit ≠ p.bit) :
    Untouched q s (s.putPin p level) :=
  ⟨Memory.write_wf _ _ _ _, readBit_putPin_other level hq⟩

theorem writePort_untouched {p : PortName} {q : PinHandle} (v : Byte) (s : State) (hq : q.port ≠ p) :
    Untouched q s (s.writePort p v) :=
  ⟨Memory.write_wf _ _ _ _, fun _ => readBit_writePort_other v s hq⟩

/-- A micro-step writes bound registers and bits alone. -/
theorem microStep_untouched {b : Bindings} {q : PinHandle} (hb : Unbound b q) {m : Micro} {sb sb' : Byte}
    {s t : State} (h : microStep b m sb s = .next (sb', t)) : Untouched q s t := by
  obtain ⟨v, -, -, -, rfl⟩ | ⟨v, -, -, rfl⟩ | ⟨-, -, rfl⟩ | ⟨-, -, h⟩ | ⟨d, -, -, rfl⟩ | ⟨v, -, -, rfl⟩
    | ⟨-, u, hu, rfl⟩ | ⟨d, -, -, rfl⟩ | ⟨-, -, rfl⟩ := microStep_cases h
  · exact (putPin_untouched v s hb.rs).trans (untouched_of_ports rfl)
  · exact (putPin_untouched v s hb.rw).trans (untouched_of_ports rfl)
  · exact (putPin_untouched true s hb.en).trans (untouched_of_ports rfl)
  · have hlow : Untouched q s (s.driveE b false) :=
      (putPin_untouched false s hb.en).trans (untouched_of_ports rfl)
    obtain rfl | ⟨-, -, h⟩ := dropEnable_cases h
    · exact hlow
    · exact hlow.trans (untouched_of_ports (lcdTakes_quiet h).2)
  · exact (writePort_untouched _ s hb.dir).trans (untouched_of_ports rfl)
  · exact (writePort_untouched v s hb.out).trans (untouched_of_ports rfl)
  · exact untouched_of_ports (lcdSupplies_quiet hu).2
  · exact untouched_of_ports rfl
  · exact untouched_of_ports rfl

theorem microSteps_untouched {b : Bindings} {q : PinHandle} (hb : Unbound b q) {ms : List Micro} {sb sb' : Byte}
    {s t : State} (h : microSteps b ms sb s = .next (sb', t)) : Untouched q s t :=
  microSteps_keeps (P := Untouched q s) (fun _ _ _ _ _ hu h => hu.trans (microStep_untouched hb h)) ms sb sb' s t
    (untouched_of_ports rfl) h

/-- An operation on a handle bound to `b`, issued or going on, leaves what `b` does not bind. -/
theorem running_untouched {b : Bindings} {q : PinHandle} (hb : Unbound b q) {i : Instr} {s t : State}
    (hbind : s.handle.bindings = some b) (h : exec i s = .next t ∨ ∃ k, s.seq = .at i k ∧ step s = .next t) :
    Untouched q s t := by
  obtain ⟨_, r, rfl⟩ | ⟨d, dir, l, -, -, rfl⟩ | ⟨-, b', k, hb', hr⟩ := running_cases h
  · exact untouched_of_ports rfl
  · exact untouched_of_ports rfl
  · obtain rfl : b' = b := Option.some.inj (hb'.symm.trans hbind)
    have hstart : Untouched q s { s with reply := none } := untouched_of_ports rfl
    exact runBlocks_keeps (P := Untouched q s) (fun _ _ hu => hu.trans (untouched_of_ports rfl))
      (fun _ _ hu => hu.trans (untouched_of_ports rfl)) _
      (fun _ _ _ _ _ _ hu h => hu.trans (microSteps_untouched hb h)) k 0 _ t hstart hr

theorem step_untouched {b : Bindings} {q : PinHandle} (hb : Unbound b q) {s t : State}
    (hbind : s.handle.bindings = some b) (h : step s = .next t) : Untouched q s t := by
  obtain ⟨i, k, hq, -⟩ | ⟨-, rfl⟩ | ⟨-, d, c, -, rfl⟩ | ⟨-, i, c, hi⟩ := step_cases h
  · exact running_untouched hb hbind (.inr ⟨k, hq, h⟩)
  · exact untouched_of_ports rfl
  · exact untouched_of_ports (hostWait_ports d _)
  · have htaken : Untouched q s { s with calls := c } := untouched_of_ports rfl
    exact htaken.trans (running_untouched hb hbind (.inl hi))

/-- Settles O40: the bit asked of is unbound, and a step or an operation leaves it. -/
theorem portsChangeOnlyWhereBound : Obligations.PortsChangeOnlyWhereBound := by
  intro b s t a j hwf hbind h hout hdir hlines
  have hfree : ∀ p ∈ [b.rs, b.rw, b.en], a = p.port → j ≠ p.bit :=
    fun p hp ha hj => hlines p hp ⟨ha.symm, hj.symm⟩
  have hb : Unbound b { port := a, bit := j, inport := none } :=
    { out := hout
      dir := hdir
      rs := hfree _ (by simp)
      rw := hfree _ (by simp)
      en := hfree _ (by simp) }
  obtain h | ⟨i, h⟩ := h
  · exact (step_untouched hb hbind h).bit hwf
  · exact (running_untouched hb hbind (.inl h)).bit hwf

end Sys2Proof.Machine
end

section
/-! SUPPORT. The reference responder: what it makes of each byte, and a transfer in front of it that completes or stops
(20_memory.md R46 to R50). -/

namespace Sys2Proof.Machine

/-! ## Instruction bytes by their format (20_memory.md R47) -/

theorem instruct_setDdram (L : Responder) (a : BitVec 7) :
    L.instruct (1#1 ++ a) = .ok { L with ac := a, space := .ddram } := by
  have key : ∀ a : BitVec 7, (1#1 ++ a).getLsbD 7 = true ∧ (1#1 ++ a).extractLsb' 0 7 = a := by decide
  rw [Responder.instruct, if_pos (key a).1, (key a).2]

theorem instruct_setCgram (L : Responder) (a : BitVec 6) :
    L.instruct (0b01#2 ++ a) = .ok { L with ac := a.setWidth 7, space := .cgram } := by
  have key : ∀ a : BitVec 6, (0b01#2 ++ a).getLsbD 7 = false ∧ (0b01#2 ++ a).getLsbD 6 = true
      ∧ (0b01#2 ++ a).extractLsb' 0 6 = a := by decide
  obtain ⟨h7, h6, ha⟩ := key a
  simp only [Responder.instruct, h7, h6, ha, Bool.false_eq_true, if_false, if_true]

theorem instruct_functionSet (L : Responder) (x : BitVec 5) : L.instruct (0b001#3 ++ x) = .ok L := by
  have key : ∀ x : BitVec 5, (0b001#3 ++ x).getLsbD 7 = false ∧ (0b001#3 ++ x).getLsbD 6 = false
      ∧ (0b001#3 ++ x).getLsbD 5 = true := by decide
  obtain ⟨h7, h6, h5⟩ := key x
  simp only [Responder.instruct, h7, h6, h5, Bool.false_eq_true, if_false, if_true]

theorem instruct_shift (L : Responder) (x : BitVec 4) :
    L.instruct (0b0001#4 ++ x) = .error .responderHasNoMeaning := by
  have key : ∀ x : BitVec 4, (0b0001#4 ++ x).getLsbD 7 = false ∧ (0b0001#4 ++ x).getLsbD 6 = false
      ∧ (0b0001#4 ++ x).getLsbD 5 = false ∧ (0b0001#4 ++ x).getLsbD 4 = true := by decide
  obtain ⟨h7, h6, h5, h4⟩ := key x
  simp only [Responder.instruct, h7, h6, h5, h4, Bool.false_eq_true, if_false, if_true]

theorem instruct_displayControl (L : Responder) (x : BitVec 3) : L.instruct (0b00001#5 ++ x) = .ok L := by
  have key : ∀ x : BitVec 3, (0b00001#5 ++ x).getLsbD 7 = false ∧ (0b00001#5 ++ x).getLsbD 6 = false
      ∧ (0b00001#5 ++ x).getLsbD 5 = false ∧ (0b00001#5 ++ x).getLsbD 4 = false
      ∧ (0b00001#5 ++ x).getLsbD 3 = true := by decide
  obtain ⟨h7, h6, h5, h4, h3⟩ := key x
  simp only [Responder.instruct, h7, h6, h5, h4, h3, Bool.false_eq_true, if_false, if_true]

theorem instruct_entryMode (L : Responder) (i sh : Bool) :
    L.instruct (0b000001#6 ++ BitVec.ofBool i ++ BitVec.ofBool sh) = .ok { L with increment := i } := by
  cases i <;> cases sh <;> rfl

theorem instruct_returnHome (L : Responder) (x : BitVec 1) :
    L.instruct (0b0000001#7 ++ x) = .ok { L with ac := 0, space := .ddram } := by
  obtain rfl | rfl : x = 0#1 ∨ x = 1#1 := by revert x; decide
  · rfl
  · rfl

theorem instruct_clearDisplay (L : Responder) :
    L.instruct 0b00000001#8 = .ok { L with ddram := [], ac := 0, space := .ddram, increment := true } := rfl

theorem instruct_zero (L : Responder) : L.instruct 0x00 = .error .responderHasNoMeaning := rfl

/-! ## Write transfers -/

/-- A read after a write, in a memory in canonical form. -/
theorem Memory.read_write_eq {blank : Byte} {m : Memory} (hm : m.wf blank = true) (a : Nat) (v : Byte) (c : Nat) :
    (m.write blank a v).read blank c = if c = a then v else m.read blank c := by
  split
  · next h => rw [h]; exact Memory.read_write_self blank a v m 0 hm
  · next h => exact Memory.read_write_other blank a c v h m

theorem accept_instruction {L M : Responder} {v : Byte} (h : L.noteArrival.instruct v = .ok M) (d : Busy) :
    L.accept false v d = .ok { M with busy := d } := by
  simp only [Responder.accept, Bool.false_eq_true, if_false, h]

theorem accept_data {L M : Responder} {v : Byte} (h : L.noteArrival.store v = .ok M) (d : Busy) :
    L.accept true v d = .ok { M with busy := d } := by
  simp only [Responder.accept, if_true, h]

/-- At a cell there is, a data write is stored. -/
theorem store_ok {L : Responder} (h : L.space = .cgram ∨ inLineRange L.ac = true) (v : Byte) :
    ∃ M, L.store v = .ok M := by
  unfold Responder.store
  cases hs : L.space with
  | cgram => exact ⟨_, rfl⟩
  | ddram => exact ⟨_, if_pos (by simpa [hs] using h)⟩

theorem store_gap {L : Responder} (hs : L.space = .ddram) (hr : inLineRange L.ac = false) (v : Byte) :
    L.store v = .error .responderGapAddress := by
  simp [Responder.store, hs, hr]

/-- The Address Counter steps by one within 7 bits, but at the ends of the lines' ranges. -/
theorem nextCounter_ddram {ac : Addr7} (h : inLineRange ac = true) (inc : Bool) :
    (nextCounter .ddram inc ac).toNat = if inc then
        (if ac.toNat = 0x27 then 0x40 else if ac.toNat = 0x67 then 0x00 else ac.toNat + 1)
      else (if ac.toNat = 0x40 then 0x27 else if ac.toNat = 0x00 then 0x67 else ac.toNat - 1) := by
  revert ac inc
  decide

/-- In CGRAM it steps by one modulo 64. -/
theorem nextCounter_cgram (ac : Addr7) (inc : Bool) :
    (nextCounter .cgram inc ac).toNat % 64 = (if inc then ac.toNat + 1 else ac.toNat + 63) % 64 := by
  revert ac inc
  decide

theorem cgramCell_eq (ac : Addr7) : cgramCell ac = ac.toNat % 64 := by
  simp [cgramCell]

/-! ## Read transfers -/

/-- The cell a data read supplies is the one the Address Counter points at. -/
theorem cell_ok {L : Responder} (h : L.space = .cgram ∨ inLineRange L.ac = true) :
    L.cell = .ok (L.seen.cell L.space L.seen.place) := by
  cases hs : L.space with
  | cgram => simp [Responder.cell, Responder.seen, Seen.place, hs]
  | ddram =>
    have hr : inLineRange L.ac = true := by simpa [hs] using h
    simp [Responder.cell, Responder.seen, Seen.place, hs, hr]

theorem cell_gap {L : Responder} (hs : L.space = .ddram) (hr : inLineRange L.ac = false) :
    L.cell = .error .responderGapAddress := by
  simp [Responder.cell, hs, hr]

theorem statusByte_busyFlag (L : Responder) : busyFlag L.statusByte = busyNow L.busy := by
  have key : ∀ (p : Bool) (a : Addr7), busyFlag (BitVec.ofBool p ++ a) = p := by decide
  exact key _ _

theorem statusByte_counterField (L : Responder) : counterField L.statusByte = L.ac := by
  have key : ∀ (p : Bool) (a : Addr7), counterField (BitVec.ofBool p ++ a) = a := by decide
  exact key _ _

/-! ## Transfers in front of the responder -/

section
variable {b : Bindings} {s : State} {L : Responder} (he : s.pins.e = false) (hm : s.lcd.model = .reference L)
include he hm

/-- A write whose byte the responder takes completes. -/
theorem write_taken {r : Register} {v : Byte} (ha : ∀ d, ∃ L', L.accept (rsLevel r) v d = .ok L') (sb : Byte) :
    ∃ t, microSteps b (writeMicros s.timing r v) sb s = .next (sb, t) ∧ WriteDone b r v s t := by
  obtain ⟨L', hL'⟩ := ha ((s.raisedForWrite b s.timing r v).driveE b false).draws.nextBusy
  have hmodel : ((s.raisedForWrite b s.timing r v).driveE b false).lcd.model = .reference L := hm
  have h := microSteps_write (b := b) s.timing r v sb he
  simp only [State.lcdTakes, hmodel, hL'] at h
  exact ⟨_, h, (write_done he h).2⟩

/-- A write whose byte the responder stops on is refused. -/
theorem write_refused {r : Register} {v : Byte} {e : Refusal} (ha : ∀ d, L.accept (rsLevel r) v d = .error e)
    (sb : Byte) : microSteps b (writeMicros s.timing r v) sb s = .refused e := by
  have hmodel : ((s.raisedForWrite b s.timing r v).driveE b false).lcd.model = .reference L := hm
  rw [microSteps_write _ _ _ _ he]
  simp only [State.lcdTakes, hmodel, ha]

/-- A data read the responder stops on is refused. -/
theorem readData_refused {e : Refusal} (ha : L.cell = .error e) (sb : Byte) :
    microSteps b (readMicros s.timing .data) sb s = .refused e := by
  have hmodel : (s.raisedForRead b s.timing .data).lcd.model = .reference L := hm
  rw [microSteps_read _ _ _ he]
  simp only [State.lcdSupplies, rsLevel, if_true, hmodel, Responder.supply, ha]

end

/-! ## The raw transfers as operations -/

theorem runBlocks_refused {b : Bindings} {i : Instr} {x : Extract} {k : Nat} {bl : Block} {bls : List Block}
    {sb : Byte} {s : State} {e : Refusal} (h : microSteps b (bl.micros s.timing) sb s = .refused e) :
    runBlocks b i x k (bl :: bls) sb s = .refused e := by
  simp only [runBlocks, h]

theorem runBlocks_last {b : Bindings} {i : Instr} {x : Extract} {k : Nat} {bl : Block} {sb sb' : Byte} {s t : State}
    (h : microSteps b (bl.micros s.timing) sb s = .next (sb', t)) (hp : bl ≠ .poll) :
    runBlocks b i x k [bl] sb s = .next (t.finish (x.value sb')) := by
  rw [runBlocks_cons_next h (fun hbl => absurd hbl hp)]
  rfl

section
variable {b : Bindings} {s : State} (hclean : s.CleanEntry) (hconf : s.ConfiguredWith b)
include hclean hconf

theorem exec_writeLcd_eq (r : Register) (v : Byte) :
    exec (.writeLcd r v) s = runBlocks b (.writeLcd r v) .nothing 0 [.write r v] 0 { s with reply := none } :=
  operate_runs hclean.1 hconf rfl

theorem exec_readLcd_eq (r : Register) :
    exec (.readLcd r) s = runBlocks b (.readLcd r) .byte 0 [.read r] 0 { s with reply := none } :=
  operate_runs hclean.1 hconf rfl

variable {L : Responder} (hm : s.lcd.model = .reference L)
include hm

theorem exec_writeLcd_taken {r : Register} {v : Byte} (ha : ∀ d, ∃ L', L.accept (rsLevel r) v d = .ok L') :
    ∃ t L' d, exec (.writeLcd r v) s = .next t ∧ t.lcd.model = .reference L' ∧ L.accept (rsLevel r) v d = .ok L'
      ∧ ∀ x xs, s.draws.busy = x :: xs → d = x := by
  obtain ⟨t, ht, hd⟩ := write_taken (b := b) (s := { s with reply := none }) hclean.2 hm ha 0
  obtain ⟨L', d, hL', hacc, hdraw⟩ := hd.responder L hm
  rw [exec_writeLcd_eq hclean hconf, runBlocks_last (bl := .write r v) ht (by simp)]
  exact ⟨_, L', d, rfl, hL', hacc, fun x xs hx => (hdraw x xs hx).1⟩

theorem exec_writeLcd_refused {r : Register} {v : Byte} {e : Refusal}
    (ha : ∀ d, L.accept (rsLevel r) v d = .error e) : exec (.writeLcd r v) s = .refused e := by
  rw [exec_writeLcd_eq hclean hconf]
  exact runBlocks_refused (write_refused (s := { s with reply := none }) hclean.2 hm ha 0)

/-- An instruction byte whose effect is `f` is obeyed. -/
theorem obeys_of_instruct {v : Byte} {f : Responder → Responder} (hv : ∀ M : Responder, M.instruct v = .ok (f M))
    (hf : ∀ d, { f L.noteArrival with busy := d }
      = { f L with busy := d, violated := L.violated || busyNow L.busy }) : Obeys s L v f := by
  have hacc := accept_instruction (hv L.noteArrival)
  obtain ⟨t, L', d, ht, hL', ha, hdraw⟩ :=
    exec_writeLcd_taken (r := .instruction) hclean hconf hm (fun d => ⟨_, hacc d⟩)
  obtain rfl : _ = L' := Except.ok.inj ((hacc d).symm.trans ha)
  exact ⟨t, d, ht, hL'.trans (by rw [hf]), hdraw⟩

theorem writeLcd_refused_of_instruct {v : Byte} {e : Refusal} (hv : ∀ M : Responder, M.instruct v = .error e) :
    exec (.writeLcd .instruction v) s = .refused e :=
  exec_writeLcd_refused hclean hconf hm fun d => by
    simp only [Responder.accept, rsLevel, Bool.false_eq_true, if_false, hv]

end

end Sys2Proof.Machine
end

section
/-! PROOF. The statements about the reference responder: instruction bytes, data writes, reads, and an address read
back. -/

namespace Sys2Proof.Machine

/-- Settles O42: each clause is the responder's answer to one format of R47, issued as a raw write. -/
theorem responderObeysInstructions : Obligations.ResponderObeysInstructions := by
  intro b s L hclean hconf hm
  refine ⟨fun a => ?_, fun a => ?_, fun x => ?_, fun x => ?_, fun i sh => ?_, fun x => ?_, ?_, fun x => ?_, ?_⟩
  · exact obeys_of_instruct hclean hconf hm (instruct_setDdram · a) fun _ => rfl
  · exact obeys_of_instruct hclean hconf hm (instruct_setCgram · a) fun _ => rfl
  · exact obeys_of_instruct hclean hconf hm (instruct_functionSet · x) fun _ => rfl
  · exact obeys_of_instruct hclean hconf hm (instruct_displayControl · x) fun _ => rfl
  · exact obeys_of_instruct hclean hconf hm (instruct_entryMode · i sh) fun _ => rfl
  · exact obeys_of_instruct hclean hconf hm (instruct_returnHome · x) fun _ => rfl
  · exact obeys_of_instruct hclean hconf hm instruct_clearDisplay fun _ => rfl
  · exact writeLcd_refused_of_instruct hclean hconf hm (instruct_shift · x)
  · exact writeLcd_refused_of_instruct hclean hconf hm instruct_zero

/-- Settles O43: the data write is the responder's store, with the draw and the record of R50. -/
theorem responderStoresData : Obligations.ResponderStoresData := by
  intro v b s L hclean hconf hm hddram hcgram
  constructor
  · intro hs hr
    refine exec_writeLcd_refused (r := .data) hclean hconf hm fun d => ?_
    simp only [Responder.accept, rsLevel, if_true, store_gap (L := L.noteArrival) hs hr]
  · intro hcell
    obtain ⟨M, hM⟩ := store_ok (L := L.noteArrival) hcell v
    obtain ⟨t, L', d, ht, hL', ha, hdraw⟩ :=
      exec_writeLcd_taken (r := .data) hclean hconf hm (fun d => ⟨_, accept_data hM d⟩)
    obtain rfl : _ = L' := Except.ok.inj ((accept_data hM d).symm.trans ha)
    obtain ⟨hs, hr, rfl⟩ | ⟨hs, rfl⟩ := store_cases hM
    · have hs : L.space = .ddram := hs
      refine ⟨t, _, ht, hL', rfl, rfl, rfl, hdraw,
        fun _ => ⟨Memory.read_write_eq hddram _ v, rfl, ?_⟩, fun hc => ?_⟩
      · have hnext := nextCounter_ddram (ac := L.ac) hr L.increment
        rw [← hs] at hnext
        exact hnext
      · rw [hs] at hc
        cases hc
    · have hs : L.space = .cgram := hs
      refine ⟨t, _, ht, hL', rfl, rfl, rfl, hdraw, fun hc => ?_,
        fun _ => ⟨cgramCell_eq L.ac ▸ Memory.read_write_eq hcgram _ v, rfl, ?_⟩⟩
      · rw [hs] at hc
        cases hc
      · have hnext := nextCounter_cgram L.ac L.increment
        rw [← hs] at hnext
        exact hnext

/-- Settles O44: the status read is the responder's status byte, the data read its cell. -/
theorem responderAnswersReads : Obligations.ResponderAnswersReads := by
  intro b s L hclean hconf hm
  refine ⟨?_, fun hs hr => ?_, fun hcell => ?_⟩
  · obtain ⟨sb, t, ht, hd⟩ := read_completes (b := b) (s := { s with reply := none }) 0 hclean.2 (answers_status _)
    obtain ⟨hsb, hL', -, -⟩ := hd.status L hm rfl
    rw [exec_readLcd_eq hclean hconf, runBlocks_last (bl := .read .instruction) ht (by simp), hsb]
    exact ⟨_, rfl, rfl, hL'⟩
  · rw [exec_readLcd_eq hclean hconf]
    exact runBlocks_refused (readData_refused (s := { s with reply := none }) hclean.2 hm (cell_gap hs hr) 0)
  · have hanswers : s.LcdAnswers .data := fun M hM _ => by
      obtain rfl : L = M := by simpa [hm] using hM
      exact hcell
    obtain ⟨v, t, ht, hd⟩ := read_completes (b := b) (s := { s with reply := none }) 0 hclean.2 hanswers
    obtain ⟨L', d, hL', hsupply, hdraw⟩ := hd.data L hm rfl
    obtain ⟨hv, rfl⟩ := supply_cases hsupply
    obtain rfl : L.seen.cell L.space L.seen.place = v := Except.ok.inj ((cell_ok hcell).symm.trans hv)
    rw [exec_readLcd_eq hclean hconf, runBlocks_last (bl := .read .data) ht (by simp)]
    refine ⟨_, d, rfl, ?_, hL', fun x xs hx => (hdraw x xs hx).1⟩
    cases hs : L.space <;> simp [Extract.value, Responder.seen, Seen.place, hs, cgramCell_eq]

end Sys2Proof.Machine
end

section
/-! SUPPORT. Paced operations: the bytes they send as their bus words give them, and their polls in front of the
reference responder (41_busy_sync.md R74, R75). -/

namespace Sys2Proof.Machine

/-! ## The plan of a paced write, read off its bus word -/

theorem busWord_rs (rs rw : Bool) (v : Byte) : (busWord rs rw v).getLsbD 9 = rs := by
  revert rs rw v
  decide

theorem busWord_rw (rs rw : Bool) (v : Byte) : (busWord rs rw v).getLsbD 8 = rw := by
  revert rs rw v
  decide

theorem busWord_byte (rs rw : Bool) (v : Byte) : (busWord rs rw v).extractLsb' 0 8 = v := by
  revert rs rw v
  decide

theorem setEntryModeByte_eq (i d : Bool) :
    setEntryModeByte i d = 0b000001#6 ++ BitVec.ofBool i ++ BitVec.ofBool d := by
  revert i d
  decide

theorem displayControlByte_eq (d c b : Bool) :
    displayControlByte d c b = 0b00001#5 ++ BitVec.ofBool d ++ BitVec.ofBool c ++ BitVec.ofBool b := by
  revert d c b
  decide

theorem cursorDisplayShiftByte_eq (d c : Bool) :
    cursorDisplayShiftByte d c = 0b0001#4 ++ BitVec.ofBool d ++ BitVec.ofBool c ++ 0b00#2 := by
  revert d c
  decide

theorem functionSetByte_eq (l : BusLength) (n : LineCount) (f : Font) :
    functionSetByte l n f
      = 0b001#3 ++ BitVec.ofBool l.bit ++ BitVec.ofBool n.bit ++ BitVec.ofBool (f.bit && !n.bit) ++ 0b00#2 := by
  cases l <;> cases n <;> cases f <;> decide

theorem setCGRAMAddressByte_eq (a : Nat) : setCGRAMAddressByte a = 0b01#2 ++ BitVec.ofNat 6 a := by
  have key : ∀ x : BitVec 6, 0x40 ||| BitVec.ofNat 8 x.toNat = 0b01#2 ++ x := by decide
  rw [← key, BitVec.toNat_ofNat, setCGRAMAddressByte, Nat.and_two_pow_sub_one_eq_mod a 6]

theorem setDisplayDataAddressByte_eq (a : Nat) : setDisplayDataAddressByte a = 1#1 ++ BitVec.ofNat 7 a := by
  have key : ∀ x : BitVec 7, 0x80 ||| BitVec.ofNat 8 x.toNat = 1#1 ++ x := by decide
  rw [← key, BitVec.toNat_ofNat, setDisplayDataAddressByte, Nat.and_two_pow_sub_one_eq_mod a 7]

/-- The plan is one write behind the gate; `FunctionSet` sets the phase flag after it (42_instruction_encoder.md R79,
R85; 43_register_access.md R88). -/
def Plan.Issues (p : Plan) (phase : Bool) (r : Register) (v : Byte) : Prop :=
  p.rejected = none ∧ p.returns = .nothing
    ∧ ∃ tail, (tail = [] ∨ tail = [.setStartup]) ∧ p.blocks = pace phase ++ .write r v :: tail

theorem issuePlan_issues {phase : Bool} {v w : Byte} (h : v = w) : (issuePlan phase v).Issues phase .instruction w :=
  ⟨rfl, rfl, [], .inl rfl, h ▸ rfl⟩

/-- An encoder operation issues its instruction byte. -/
theorem planOf_issues_instruction {i : Instr} {v : Byte} (h : encodeInstructionByte i = some v) (phase : Bool) :
    (planOf i phase).Issues phase .instruction v := by
  cases i with
  | clearDisplay => exact issuePlan_issues (Option.some.inj h)
  | returnHome => exact issuePlan_issues (Option.some.inj h)
  | setEntryMode i d => exact issuePlan_issues ((setEntryModeByte_eq i d).trans (Option.some.inj h))
  | displayControl d c b => exact issuePlan_issues ((displayControlByte_eq d c b).trans (Option.some.inj h))
  | cursorDisplayShift d c => exact issuePlan_issues ((cursorDisplayShiftByte_eq d c).trans (Option.some.inj h))
  | setCGRAMAddress a => exact issuePlan_issues ((setCGRAMAddressByte_eq a).trans (Option.some.inj h))
  | setDisplayDataAddress a => exact issuePlan_issues ((setDisplayDataAddressByte_eq a).trans (Option.some.inj h))
  | functionSet l n f =>
    refine ⟨rfl, rfl, [.setStartup], .inr rfl, ?_⟩
    rw [← (functionSetByte_eq l n f).trans (Option.some.inj h)]
    simp [planOf, planFunctionSet, issueInstruction]
  | _ => cases h

/-- A paced operation whose bus word is a write issues that word's byte to its register. -/
theorem planOf_issues {i : Instr} {w : BusWord} (hi : Paced i = true) (hw : encode i = some w)
    (hrw : w.getLsbD 8 = false) (phase : Bool) :
    (planOf i phase).Issues phase (if w.getLsbD 9 then .data else .instruction) (w.extractLsb' 0 8) := by
  have hinstruction : ∀ v, encodeInstructionByte i = some v → w = busWord false false v →
      (planOf i phase).Issues phase (if w.getLsbD 9 then .data else .instruction) (w.extractLsb' 0 8) := by
    rintro v hv rfl
    simpa only [busWord_rs, busWord_byte, Bool.false_eq_true, if_false] using planOf_issues_instruction hv phase
  cases i with
  | writeDataReg v =>
    obtain rfl : busWord true false v = w := Option.some.inj hw
    simp only [busWord_rs, busWord_byte, if_true]
    exact ⟨rfl, rfl, [], .inl rfl, rfl⟩
  | readDataReg =>
    obtain rfl : busWord true true 0 = w := Option.some.inj hw
    rw [busWord_rw] at hrw
    cases hrw
  | clearDisplay => exact hinstruction _ rfl (Option.some.inj hw).symm
  | returnHome => exact hinstruction _ rfl (Option.some.inj hw).symm
  | setEntryMode i d => exact hinstruction _ rfl (Option.some.inj hw).symm
  | displayControl d c b => exact hinstruction _ rfl (Option.some.inj hw).symm
  | cursorDisplayShift d c => exact hinstruction _ rfl (Option.some.inj hw).symm
  | functionSet l n f => exact hinstruction _ rfl (Option.some.inj hw).symm
  | setCGRAMAddress a => exact hinstruction _ rfl (Option.some.inj hw).symm
  | setDisplayDataAddress a => exact hinstruction _ rfl (Option.some.inj hw).symm
  | _ => cases hi

/-! ## One poll in front of the responder -/

/-- A status read in front of the responder senses its status byte. -/
theorem status_read {b : Bindings} {s : State} {L : Responder} (he : s.pins.e = false)
    (hm : s.lcd.model = .reference L) (sb : Byte) :
    ∃ t, microSteps b (readMicros s.timing .instruction) sb s = .next (L.statusByte, t)
      ∧ ReadDone b .instruction L.statusByte s t ∧ t.lcd.model = .reference L.afterStatus := by
  obtain ⟨sb', t, ht, hd⟩ := read_completes (b := b) sb he (answers_status s)
  obtain ⟨rfl, hmodel, -, -⟩ := hd.status L hm rfl
  exact ⟨t, ht, hd, hmodel⟩

theorem statusByte_of_busy {L : Responder} {p : Bool} (h : busyNow L.busy = p) :
    L.statusByte = BitVec.ofBool p ++ L.ac := by rw [Responder.statusByte, h]

section
variable {b : Bindings} {i : Instr} {x : Extract} {k : Nat} {s : State} {L : Responder} (he : s.pins.e = false)
  (hm : s.lcd.model = .reference L)
include he hm

/-- A poll that finds the responder free goes on. -/
theorem runBlocks_poll_free (hfree : busyNow L.busy = false) (bls : List Block) (sb : Byte) :
    ∃ t, runBlocks b i x k (.poll :: bls) sb s = runBlocks b i x (k + 1) bls L.statusByte t
      ∧ ReadDone b .instruction (0#1 ++ L.ac) s t ∧ t.lcd.model = .reference L.afterStatus := by
  obtain ⟨t, ht, hd, hmodel⟩ := status_read (b := b) he hm sb
  refine ⟨t, runBlocks_cons_next ht (fun _ => by rw [statusByte_busyFlag, hfree]), ?_, hmodel⟩
  rw [statusByte_of_busy hfree] at hd
  exact hd

/-- A poll that finds the responder busy waits. -/
theorem runBlocks_poll_waits (hbusy : busyNow L.busy = true) (bls : List Block) (sb : Byte) :
    ∃ t, runBlocks b i x k (.poll :: bls) sb s = .next { t with seq := .at i k }
      ∧ ReadDone b .instruction (1#1 ++ L.ac) s t ∧ t.lcd.model = .reference L.afterStatus := by
  obtain ⟨t, ht, hd, hmodel⟩ := status_read (b := b) he hm sb
  refine ⟨t, runBlocks_poll_busy ht (by rw [statusByte_busyFlag, hbusy]), ?_, hmodel⟩
  rw [statusByte_of_busy hbusy] at hd
  exact hd

end

/-- The responder but for its busy count, which polls, draws and waits change. -/
def Responder.withBusy (L : Responder) (d : Busy) : Responder := { L with busy := d }

theorem afterStatus_polls {L : Responder} {n : Nat} (h : L.busy = .polls n) :
    L.afterStatus = L.withBusy (.polls (n - 1)) := by
  simp [Responder.afterStatus, Responder.withBusy, h, afterPoll]

/-! ## A poll loop -/

/-- What a poll that sees the responder `L` busy `n` times and then free leaves. -/
structure PollsDone (L : Responder) (n : Nat) (s t : State) : Prop where
  events : t.events = s.events ++ (List.replicate n (readEvents s.timing .instruction (1#1 ++ L.ac))).flatten
    ++ readEvents s.timing .instruction (0#1 ++ L.ac)
  enableLow : t.pins.e = false
  handle : t.handle = s.handle
  timing : t.timing = s.timing
  calls : t.calls = s.calls
  model : t.lcd.model = .reference (L.withBusy (.polls 0))

/-- An operation that begins with a poll: `n` steps wait at it, and the step after them runs the rest. -/
theorem run_polls {b : Bindings} {i : Instr} {rest : List Block} (hplan : (planOf i true).blocks = .poll :: rest) :
    ∀ (n : Nat) (L : Responder) (s u : State),
      step s = runBlocks b i (planOf i true).returns 0 (.poll :: rest) 0 u →
      u.pins.e = false → u.ConfiguredWith b → u.handle.startupComplete = true → u.lcd.model = .reference L →
      L.busy = .polls n →
      ∃ sb v, PollsDone L n u v
        ∧ ∀ t, runBlocks b i (planOf i true).returns 1 rest sb v = .next t → Host.Core.run core (n + 1) s = .next t
  | 0, L, s, u, hstep, he, hc, hp, hm, hL => by
    obtain ⟨v, hv, hd, hmodel⟩ :=
      runBlocks_poll_free (b := b) (i := i) (x := (planOf i true).returns) (k := 0) he hm (by rw [hL]; rfl) rest 0
    rw [afterStatus_polls hL] at hmodel
    refine ⟨_, v, ⟨by simpa using hd.events, by rw [hd.pins]; rfl, hd.handle, hd.timing, hd.calls, hmodel⟩,
      fun t ht => run_next (hstep.trans (hv.trans ht))⟩
  | n + 1, L, s, u, hstep, he, hc, hp, hm, hL => by
    obtain ⟨v, hv, hd, hmodel⟩ :=
      runBlocks_poll_waits (b := b) (i := i) (x := (planOf i true).returns) (k := 0) he hm (by rw [hL]; rfl) rest 0
    rw [afterStatus_polls hL] at hmodel
    have hph : v.handle.startupComplete = true := by rw [hd.handle, hp]
    have hcv : State.ConfiguredWith { v with seq := .at i 0 } b := by
      simpa only [State.ConfiguredWith, hd.handle] using hc
    have hnext := step_goes_on (s := { v with seq := .at i 0 }) rfl hcv
    simp only [hph, hplan, List.drop_zero] at hnext
    obtain ⟨sb, w, hw, hrun⟩ := run_polls hplan n (L.withBusy (.polls n)) _ _ hnext (by rw [hd.pins]; rfl) hcv hph
      hmodel rfl
    refine ⟨sb, w, ?_, fun t ht => (run_next (hstep.trans hv)).trans (hrun t ht)⟩
    obtain ⟨hevents, hlow, hhandle, htiming, hcalls, hmodel'⟩ := hw
    refine ⟨?_, hlow, hhandle.trans hd.handle, htiming.trans hd.timing, hcalls.trans hd.calls, hmodel'⟩
    have hev : w.events = v.events ++ _ ++ _ := hevents
    rw [hev, hd.events, List.replicate_succ]
    simp [Responder.withBusy, hd.timing]

/-! ## After the poll -/

@[simp] theorem finish_events (v : Value) (s : State) : (s.finish v).events = s.events := rfl

/-- The end of an operation after its transfer: it leaves the events and the controller. -/
theorem runBlocks_tail {b : Bindings} {i : Instr} {x : Extract} {tail : List Block}
    (htail : tail = [] ∨ tail = [.setStartup]) (k : Nat) (sb : Byte) (s : State) :
    ∃ t, runBlocks b i x k tail sb s = .next t ∧ t.seq = .idle
      ∧ t.reply = some { status := .ok, value := x.value sb } ∧ t.calls = s.calls ∧ t.events = s.events
      ∧ t.pins = s.pins ∧ t.handle.configured = s.handle.configured ∧ t.handle.bindings = s.handle.bindings
      ∧ t.lcd = s.lcd := by
  obtain rfl | rfl := htail
  · exact ⟨_, rfl, rfl, rfl, rfl, rfl, rfl, rfl, rfl, rfl⟩
  · exact ⟨_, rfl, rfl, rfl, rfl, rfl, rfl, rfl, rfl, rfl⟩

/-- What the responder takes and answers does not depend on whether it is busy. -/
theorem accepts_withBusy {s t : State} {L : Responder} {d : Busy} {r : Register} {v : Byte} (h : s.LcdAccepts r v)
    (hs : s.lcd.model = .reference L) (ht : t.lcd.model = .reference (L.withBusy d)) : t.LcdAccepts r v := by
  intro M hM
  obtain rfl : L.withBusy d = M := LcdModel.reference.inj (ht.symm.trans hM)
  cases r <;> exact h L hs

theorem answers_withBusy {s t : State} {L : Responder} {d : Busy} {r : Register} (h : s.LcdAnswers r)
    (hs : s.lcd.model = .reference L) (ht : t.lcd.model = .reference (L.withBusy d)) : t.LcdAnswers r := by
  intro M hM
  obtain rfl : L.withBusy d = M := LcdModel.reference.inj (ht.symm.trans hM)
  exact h L hs

end Sys2Proof.Machine
end

section
/-! PROOF. The statements about a poll that ends and an address read back, in front of the reference responder. -/

namespace Sys2Proof.Machine

/-- The step that takes a call with an accepted plan runs its blocks. -/
theorem step_runs {b : Bindings} {i : Instr} {calls : List Call} {s : State} (hq : s.seq = .idle)
    (hconf : s.ConfiguredWith b) (hi : ReachesBus i = true)
    (hp : (planOf i s.handle.startupComplete).rejected = none) (hc : s.calls = .op i :: calls) :
    step s = runBlocks b i (planOf i s.handle.startupComplete).returns 0
      (planOf i s.handle.startupComplete).blocks 0 { s with calls := calls, reply := none } := by
  rw [step_issues hq hc, exec_eq_operate hi]
  exact operate_runs (s := { s with calls := calls }) hq hconf hp

theorem reachesBus_of_paced {i : Instr} (h : Paced i = true) : ReachesBus i = true := by
  cases i with
  | configure d dir l => cases h
  | mapAddress line col => cases h
  | _ => rfl

/-- Settles O18: the poll loop ends with the responder free, and the transfer is then no violation. -/
theorem fallingBusyFlagEndsThePoll : Obligations.FallingBusyFlagEndsThePoll := by
  intro b s L calls n hclean hconf hphase hm hL
  refine ⟨fun i w hi hw hrw haccepts hcalls => ?_, fun hanswers hcalls => ?_⟩
  · obtain ⟨hrej, hret, tail, htail, hblocks⟩ := planOf_issues hi hw hrw true
    have hstep := step_runs hclean.1 hconf (reachesBus_of_paced hi) (by rw [hphase]; exact hrej) hcalls
    rw [hphase, hblocks] at hstep
    obtain ⟨sb, v, hv, hrun⟩ := run_polls hblocks n L s _ hstep hclean.2 hconf hphase hm hL
    obtain ⟨u, hu, hd⟩ := write_completes (b := b) sb hv.enableLow (accepts_withBusy haccepts hm hv.model)
    obtain ⟨L', d, hL', hacc, -⟩ := hd.responder _ hv.model
    obtain ⟨t, ht, hq, hreply, htcalls, hevents, -, -, -, hlcd⟩ :=
      runBlocks_tail (b := b) (i := i) (x := (planOf i true).returns) htail 2 sb u
    refine ⟨t, L', hrun t ((runBlocks_cons_next hu (by simp)).trans ht), hq, ?_, ?_, ?_, ?_, ?_⟩
    · rw [hreply, hret]; rfl
    · rw [htcalls, hd.calls, hv.calls]
    · rw [hevents, hd.events, hv.events, hv.timing]; rfl
    · rw [hlcd, hL']
    · rw [(accept_keeps hacc).2.2]; simp [Responder.withBusy, busyNow]
  · have hblocks : (planOf .readDataReg true).blocks = [.poll, .read .data] := rfl
    have hstep := step_runs (i := .readDataReg) hclean.1 hconf rfl rfl hcalls
    rw [hphase, hblocks] at hstep
    obtain ⟨sb, v, hv, hrun⟩ := run_polls hblocks n L s _ hstep hclean.2 hconf hphase hm hL
    obtain ⟨byte, u, hu, hd⟩ := read_completes (b := b) sb hv.enableLow (answers_withBusy hanswers hm hv.model)
    obtain ⟨L', d, hL', hsupply, -⟩ := hd.data _ hv.model rfl
    obtain ⟨hcell, rfl⟩ := supply_cases hsupply
    have hbyte := Except.ok.inj ((cell_ok (L := L.withBusy (.polls 0)) (hanswers L hm rfl)).symm.trans hcell)
    refine ⟨_, _, byte, hrun _ (runBlocks_last (bl := .read .data) hu (by simp)), rfl, rfl, ?_, ?_, ?_, hL', ?_⟩
    · rw [finish_calls, hd.calls, hv.calls]
    · rw [← hbyte]
      cases hs : L.space <;> simp [Responder.withBusy, Responder.seen, Seen.place, hs, cgramCell_eq]
    · rw [finish_events, hd.events, hv.events, hv.timing]; rfl
    · simp [Responder.withBusy, busyNow]

/-- A free responder lets the gate pass and is as it was. -/
theorem runBlocks_gate {b : Bindings} {i : Instr} {x : Extract} {L : Responder} {s : State} (he : s.pins.e = false)
    (hm : s.lcd.model = .reference L) (phase : Bool) (hfree : phase = true → L.busy = .polls 0) (k : Nat)
    (bls : List Block) (sb : Byte) :
    ∃ k' sb' t, runBlocks b i x k (pace phase ++ bls) sb s = runBlocks b i x k' bls sb' t
      ∧ t.pins.e = false ∧ t.handle = s.handle ∧ t.lcd.model = .reference L := by
  cases phase with
  | false => exact ⟨k, sb, s, rfl, he, rfl, hm⟩
  | true =>
    have hL := hfree rfl
    obtain ⟨t, ht, hd, hmodel⟩ :=
      runBlocks_poll_free (b := b) (i := i) (x := x) (k := k) he hm (by rw [hL]; rfl) bls sb
    have hsame : L.withBusy (.polls 0) = L := by rw [← hL]; rfl
    rw [afterStatus_polls hL, hsame] at hmodel
    exact ⟨k + 1, _, t, ht, by rw [hd.pins]; rfl, hd.handle, hmodel⟩

/-- Settles O45: the responder takes the address, and its status byte gives it back. -/
theorem ddramAddressRoundTrip : Obligations.DdramAddressRoundTrip := by
  intro a b s L _ hclean hconf hm hfree
  have hacc := accept_instruction (instruct_setDdram L.noteArrival (BitVec.ofNat 7 a))
  obtain ⟨k, sb, u, hgate, heu, hhu, hmu⟩ :=
    runBlocks_gate (b := b) (i := .setDisplayDataAddress a) (x := .nothing) (s := { s with reply := none }) hclean.2 hm
      s.handle.startupComplete hfree 0 [.write .instruction (1#1 ++ BitVec.ofNat 7 a)] 0
  obtain ⟨v, hv, hd⟩ := write_taken (b := b) (r := .instruction) heu hmu (fun d => ⟨_, hacc d⟩) sb
  obtain ⟨L', d, hL', ha, -⟩ := hd.responder L hmu
  obtain rfl : _ = L' := Except.ok.inj ((hacc d).symm.trans ha)
  have hset : exec (.setDisplayDataAddress a) s = .next (v.finish .nothing) := by
    have hruns : exec (.setDisplayDataAddress a) s = runBlocks b (.setDisplayDataAddress a) .nothing 0
        (pace s.handle.startupComplete ++ [.write .instruction (setDisplayDataAddressByte a)]) 0
        { s with reply := none } := operate_runs hclean.1 hconf rfl
    rw [hruns, setDisplayDataAddressByte_eq, hgate]
    exact runBlocks_last (bl := .write .instruction _) hv (by simp)
  have hconf' : (v.finish .nothing).ConfiguredWith b := by
    simpa only [State.ConfiguredWith, finish_handle, hd.handle, hhu] using hconf
  obtain ⟨w, hw, -, -⟩ := status_read (b := b) (s := { v.finish .nothing with reply := none })
    (by simp [hd.pins, idleAfterWrite]) hL' 0
  have hget : exec .readAddressCounter (v.finish .nothing) = runBlocks b .readAddressCounter .counter 0
      [.read .instruction] 0 { v.finish .nothing with reply := none } := operate_runs rfl hconf' rfl
  rw [runBlocks_last (bl := .read .instruction) hw (by simp)] at hget
  exact ⟨_, _, hset, hget, by rw [finish_reply, Extract.value, statusByte_counterField]⟩

end Sys2Proof.Machine
end

section
/-! SUPPORT. The transfers a run has made, and what the premises P1 to P3 tell of a row of them (20_memory.md R45). -/

namespace Sys2Proof.Machine

/-- A property every step keeps holds of every state of a run. -/
theorem run_keeps {P : State → Prop} (hstep : ∀ s t, P s → step s = .next t → P t) :
    ∀ (n : Nat) (s t : State), P s → Host.Core.run core n s = .next t → P t
  | 0, _, _, hs, h => by
    injection h with h
    exact h ▸ hs
  | n + 1, s, t, hs, h => by
    cases hu : step s with
    | next u =>
      rw [run_next hu] at h
      exact run_keeps hstep n u t (hstep s u hs hu) h
    | fault f =>
      have hu' : core.step s = .fault f := hu
      simp only [Host.Core.run, hu'] at h
      cases h
    | refused r =>
      have hu' : core.step s = .refused r := hu
      simp only [Host.Core.run, hu'] at h
      cases h

/-! ## The transfers made -/

/-- From `s` to `t` the run has made the transfers `trs`. -/
def State.Made (s : State) (trs : List Transfer) (t : State) : Prop :=
  ∃ es, t.events = s.events ++ es ∧ transfersOf false es = trs

theorem made_nil (s : State) : s.Made [] s := ⟨[], by simp, rfl⟩

theorem State.Made.since {s t : State} {trs : List Transfer} (h : s.Made trs t) : s.since t = trs := by
  obtain ⟨es, hes, htrs⟩ := h
  rw [State.since, hes, List.drop_left, htrs]

theorem State.Made.write {b : Bindings} {r : Register} {v : Byte} {s t u : State} {trs : List Transfer}
    (h : s.Made trs t) (hd : WriteDone b r v t u) : s.Made (trs ++ [.write r v]) u := by
  obtain ⟨es, hes, htrs⟩ := h
  exact ⟨es ++ writeEvents t.timing r v, by rw [hd.events, hes, List.append_assoc],
    by rw [transfersOf_append_write, htrs]⟩

theorem State.Made.read {b : Bindings} {r : Register} {sb : Byte} {s t u : State} {trs : List Transfer}
    (h : s.Made trs t) (hd : ReadDone b r sb t u) : s.Made (trs ++ [.read r sb]) u := by
  obtain ⟨es, hes, htrs⟩ := h
  exact ⟨es ++ readEvents t.timing r sb, by rw [hd.events, hes, List.append_assoc],
    by rw [transfersOf_append_read, htrs]⟩

theorem State.Made.hostWait {s t : State} {trs : List Transfer} (h : s.Made trs t) (d : Nat) :
    s.Made trs (hostWait d t) := by
  obtain ⟨es, hes, htrs⟩ := h
  refine ⟨es ++ [.delay d], ?_, by rw [transfersOf_append_delay, htrs]⟩
  rw [events_append (hostWait_logs d t).trace, hes, List.append_assoc]
  rfl

/-! ## What the premises tell -/

/-- P1 to P3, of a row of transfers with a bus width latched before it. -/
structure Premises (run : List (Seen × Transfer)) (last : Seen) : Prop where
  p1 : P1 true run last
  p2 : P2 true run
  p3 : P3 run last

theorem eachStatusRead_tail {tells : Seen → Byte → Prop} {x : Seen} {tr : Transfer} {rest : List (Seen × Transfer)}
    (h : EachStatusRead tells true ((x, tr) :: rest)) : EachStatusRead tells true rest := by
  cases tr with
  | write r v => exact h
  | read r sb =>
    cases r with
    | instruction => exact h.2
    | data => exact h

theorem Premises.tail {x : Seen} {tr : Transfer} {rest : List (Seen × Transfer)} {last : Seen}
    (h : Premises ((x, tr) :: rest) last) : Premises rest last :=
  ⟨⟨eachStatusRead_tail h.p1.1, h.p1.2.2⟩, eachStatusRead_tail h.p2, h.p3.2⟩

/-- The status reads of a poll. -/
def statusReads (bytes : List Byte) : List Transfer := bytes.map (.read .instruction)

/-- The status reads of a poll that has seen bit 7 = 0. -/
def PollOver (trs : List Transfer) : Prop := ∃ bytes sb, trs = statusReads (bytes ++ [sb]) ∧ busyFlag sb = false

/-- After a poll that is over the controller is not processing, and what had settled stays so. -/
theorem Premises.after_poll {last : Seen} {more : List Transfer} {sb : Byte} (hsb : busyFlag sb = false) :
    ∀ {bytes : List Byte} {run : List (Seen × Transfer)}, Premises run last →
      run.map (·.2) = statusReads (bytes ++ [sb]) ++ more →
      ∃ rest, rest.map (·.2) = more ∧ Premises rest last ∧ (nowSeen rest last).processing = false
        ∧ ∀ Q, Settled Q run last → Settled Q rest last
  | [], run, h, hrun => by
    obtain ⟨⟨x, tr⟩, rest, rfl, rfl, hrest⟩ := List.map_eq_cons_iff.1 hrun
    have hfree : x.processing = false := (h.p1.1.1 rfl).symm.trans hsb
    exact ⟨rest, hrest, h.tail, h.p1.2.1 rfl hfree, fun Q hQ => hQ.2 rfl⟩
  | c :: bytes, run, h, hrun => by
    obtain ⟨⟨x, tr⟩, rest, rfl, rfl, hrest⟩ := List.map_eq_cons_iff.1 hrun
    obtain ⟨rest', hrest', hp, hfree, hsettled⟩ := h.tail.after_poll hsb hrest
    exact ⟨rest', hrest', hp, hfree, fun Q hQ => hsettled Q (hQ.2 rfl)⟩

/-- An address is set while the controller is not processing, a poll ends, and the next status read gives it back. -/
theorem Premises.reads_back {run : List (Seen × Transfer)} {last : Seen} {a : Addr7} {sb : Byte} {mid : List Transfer}
    (h : Premises run last) (hrun : run.map (·.2) = .write .instruction (1#1 ++ a) :: (mid ++ [.read .instruction sb]))
    (hmid : PollOver mid) (ha : inLineRange a = true) (hfree : (nowSeen run last).processing = false) :
    counterField sb = a := by
  obtain ⟨⟨x, tr⟩, rest, rfl, rfl, hrest⟩ := List.map_eq_cons_iff.1 hrun
  have hset := h.p3.1 rfl hfree
  obtain ⟨bytes, c, rfl, hc⟩ := hmid
  obtain ⟨rest', hrest', hp, hfree', hsettled⟩ := h.tail.after_poll hc hrest
  obtain ⟨⟨y, tr⟩, tail, rfl, rfl, -⟩ := List.map_eq_cons_iff.1 hrest'
  exact (hp.p2.1 rfl).trans ((hsettled _ hset).1 hfree' a rfl ha).1

end Sys2Proof.Machine
end

section
/-! SUPPORT. The program that sets an address, waits and reads the Address Counter: where its run can stand. -/

namespace Sys2Proof.Machine

/-- A run from `s` stands between two blocks of a call, `calls` to come, the transfers `trs` made. -/
structure Stands (b : Bindings) (phase : Bool) (s : State) (calls : List Call) (trs : List Transfer) (u : State) :
    Prop where
  configured : u.ConfiguredWith b
  phase : u.handle.startupComplete = phase
  enableLow : u.pins.e = false
  calls : u.calls = calls
  made : s.Made trs u

section
variable {b : Bindings} {phase : Bool} {s u v : State} {calls : List Call} {trs : List Transfer} {i : Instr}
  {x : Extract} {k : Nat} {sb₀ : Byte} (h : Stands b phase s calls trs u)
include h

theorem Stands.write_done {r : Register} {byte : Byte} (hd : WriteDone b r byte u v) :
    Stands b phase s calls (trs ++ [.write r byte]) v where
  configured := by simpa only [State.ConfiguredWith, hd.handle] using h.configured
  phase := by rw [hd.handle, h.phase]
  enableLow := by rw [hd.pins]; rfl
  calls := hd.calls.trans h.calls
  made := h.made.write hd

theorem Stands.read_done {r : Register} {sb : Byte} (hd : ReadDone b r sb u v) :
    Stands b phase s calls (trs ++ [.read r sb]) v where
  configured := by simpa only [State.ConfiguredWith, hd.handle] using h.configured
  phase := by rw [hd.handle, h.phase]
  enableLow := by rw [hd.pins]; rfl
  calls := hd.calls.trans h.calls
  made := h.made.read hd

/-- The run of a poll waits at it or goes on. -/
theorem Stands.poll {bls : List Block} (hr : runBlocks b i x k (.poll :: bls) sb₀ u = .next v) :
    ∃ sb w, Stands b phase s calls (trs ++ [.read .instruction sb]) w
      ∧ ((v = { w with seq := .at i k })
        ∨ (busyFlag sb = false ∧ runBlocks b i x (k + 1) bls sb w = .next v)) := by
  obtain ⟨sb, w, hd, hrun⟩ := runBlocks_poll (b := b) (i := i) (x := x) (k := k) (bls := bls) h.enableLow
  refine ⟨sb, w, h.read_done hd, ?_⟩
  rw [hrun] at hr
  split at hr
  · injection hr with hr
    exact .inl hr.symm
  · next hbusy => exact .inr ⟨by simpa using hbusy, hr⟩

theorem Stands.last_write {r : Register} {byte : Byte} (hr : runBlocks b i x k [.write r byte] sb₀ u = .next v) :
    Stands b phase s calls (trs ++ [.write r byte]) v ∧ v.seq = .idle := by
  obtain ⟨sb, w, hw, rfl⟩ := runBlocks_single (by simp) hr
  obtain ⟨-, hd⟩ := Machine.write_done h.enableLow hw
  exact ⟨{ h.write_done hd with }, rfl⟩

theorem Stands.last_read {r : Register} (hr : runBlocks b i x k [.read r] sb₀ u = .next v) :
    ∃ sb, Stands b phase s calls (trs ++ [.read r sb]) v ∧ v.seq = .idle
      ∧ v.reply = some { status := .ok, value := x.value sb } := by
  obtain ⟨sb, w, hw, rfl⟩ := runBlocks_single (by simp) hr
  have hd := Machine.read_done h.enableLow hw
  exact ⟨sb, { h.read_done hd with }, rfl, rfl⟩

/-- The step that takes the next call runs its blocks. -/
theorem Stands.takes {rest : List Call} (hq : u.seq = .idle) (hc : calls = .op i :: rest) (hi : ReachesBus i = true)
    (hp : (planOf i phase).rejected = none) (hs : step u = .next v) :
    ∃ w, Stands b phase s rest trs w
      ∧ runBlocks b i (planOf i phase).returns 0 (planOf i phase).blocks 0 w = .next v := by
  have hstep := step_runs hq h.configured hi (by rw [h.phase]; exact hp) (h.calls.trans hc)
  rw [h.phase, hs] at hstep
  have hw : Stands b phase s rest trs { u with calls := rest, reply := none } :=
    ⟨h.configured, h.phase, h.enableLow, rfl, h.made⟩
  exact ⟨_, hw, hstep.symm⟩

/-- The step that goes on with an operation at its first block runs all of them. -/
theorem Stands.resumes (hq : u.seq = .at i 0) (hs : step u = .next v) :
    ∃ w, Stands b phase s calls trs w
      ∧ runBlocks b i (planOf i phase).returns 0 (planOf i phase).blocks 0 w = .next v := by
  have hstep := step_goes_on hq h.configured
  rw [h.phase, hs] at hstep
  have hw : Stands b phase s calls trs { u with reply := none } :=
    ⟨h.configured, h.phase, h.enableLow, h.calls, h.made⟩
  exact ⟨_, hw, hstep.symm⟩

end

/-- What the gate's poll has made of transfers: none in phase 0 (41_busy_sync.md R75). -/
def GateOver (phase : Bool) (trs : List Transfer) : Prop :=
  if phase then PollOver trs else trs = []

theorem statusReads_snoc (bytes : List Byte) (sb : Byte) :
    statusReads bytes ++ [.read .instruction sb] = statusReads (bytes ++ [sb]) := by
  simp [statusReads]

/-- Where a run of the three calls can stand: before the first, at its poll, after it, at the wait's poll, after the
wait, and at the end, with the transfers it has made by then. -/
inductive RoundTrip (b : Bindings) (phase : Bool) (n : Nat) (s : State) : State → Prop where
  | start {u : State} (hq : u.seq = .idle)
      (h : Stands b phase s [.op (.setDisplayDataAddress n), .op .waitNotBusy, .op .readAddressCounter] [] u) :
      RoundTrip b phase n s u
  | setting {u : State} {bytes : List Byte} (hphase : phase = true) (hq : u.seq = .at (.setDisplayDataAddress n) 0)
      (h : Stands b phase s [.op .waitNotBusy, .op .readAddressCounter] (statusReads bytes) u) :
      RoundTrip b phase n s u
  | set {u : State} {gate : List Transfer} (hgate : GateOver phase gate) (hq : u.seq = .idle)
      (h : Stands b phase s [.op .waitNotBusy, .op .readAddressCounter]
        (gate ++ [.write .instruction (1#1 ++ BitVec.ofNat 7 n)]) u) :
      RoundTrip b phase n s u
  | waiting {u : State} {gate : List Transfer} {bytes : List Byte} (hgate : GateOver phase gate)
      (hq : u.seq = .at .waitNotBusy 0)
      (h : Stands b phase s [.op .readAddressCounter]
        (gate ++ [.write .instruction (1#1 ++ BitVec.ofNat 7 n)] ++ statusReads bytes) u) :
      RoundTrip b phase n s u
  | waited {u : State} {gate mid : List Transfer} (hgate : GateOver phase gate) (hmid : PollOver mid)
      (hq : u.seq = .idle)
      (h : Stands b phase s [.op .readAddressCounter]
        (gate ++ [.write .instruction (1#1 ++ BitVec.ofNat 7 n)] ++ mid) u) :
      RoundTrip b phase n s u
  | done {u : State} {gate mid : List Transfer} {sb : Byte} (hgate : GateOver phase gate) (hmid : PollOver mid)
      (hq : u.seq = .idle) (hreply : u.reply = some { status := .ok, value := .address (counterField sb) })
      (h : Stands b phase s []
        (gate ++ [.write .instruction (1#1 ++ BitVec.ofNat 7 n)] ++ mid ++ [.read .instruction sb]) u) :
      RoundTrip b phase n s u

section
variable {b : Bindings} {phase : Bool} {n : Nat} {s u v : State}

theorem planOf_setDisplayDataAddress_blocks (n : Nat) (phase : Bool) : (planOf (.setDisplayDataAddress n) phase).blocks
    = pace phase ++ [.write .instruction (1#1 ++ BitVec.ofNat 7 n)] := by
  rw [← setDisplayDataAddressByte_eq]
  rfl

/-- The blocks of the first call, after `bytes` have been read at its poll. -/
theorem roundTrip_sets {bytes : List Byte} (hbytes : phase = false → bytes = [])
    (h : Stands b phase s [.op .waitNotBusy, .op .readAddressCounter] (statusReads bytes) u)
    (hr : runBlocks b (.setDisplayDataAddress n) .nothing 0 (planOf (.setDisplayDataAddress n) phase).blocks 0 u
      = .next v) : RoundTrip b phase n s v := by
  rw [planOf_setDisplayDataAddress_blocks] at hr
  cases phase with
  | false =>
    obtain rfl := hbytes rfl
    obtain ⟨hv, hq⟩ := h.last_write hr
    exact .set (gate := []) rfl hq hv
  | true =>
    obtain ⟨sb, w, hw, rfl | ⟨hfree, hrest⟩⟩ := h.poll hr
    · rw [statusReads_snoc] at hw
      exact .setting rfl rfl { hw with }
    · rw [statusReads_snoc] at hw
      obtain ⟨hv, hq⟩ := hw.last_write hrest
      exact .set ⟨bytes, sb, rfl, hfree⟩ hq hv

/-- The block of the wait, after `bytes` have been read at it. -/
theorem roundTrip_waits {gate : List Transfer} {bytes : List Byte} (hgate : GateOver phase gate)
    (h : Stands b phase s [.op .readAddressCounter]
      (gate ++ [.write .instruction (1#1 ++ BitVec.ofNat 7 n)] ++ statusReads bytes) u)
    (hr : runBlocks b .waitNotBusy .nothing 0 [.poll] 0 u = .next v) : RoundTrip b phase n s v := by
  obtain ⟨sb, w, hw, rfl | ⟨hfree, hrest⟩⟩ := h.poll hr
  all_goals rw [List.append_assoc _ (statusReads bytes), statusReads_snoc] at hw
  · exact .waiting hgate rfl { hw with }
  · injection hrest with hrest
    subst hrest
    exact .waited hgate ⟨bytes, sb, rfl, hfree⟩ rfl { hw with }

/-- Every step of the program leads from one such place to one. -/
theorem step_keeps_roundTrip (hu : RoundTrip b phase n s u) (hs : step u = .next v) : RoundTrip b phase n s v := by
  cases hu with
  | start hq h =>
    obtain ⟨w, hw, hr⟩ := h.takes hq rfl rfl rfl hs
    exact roundTrip_sets (bytes := []) (fun _ => rfl) hw hr
  | setting hphase hq h =>
    obtain ⟨w, hw, hr⟩ := h.resumes hq hs
    exact roundTrip_sets (fun hf => by rw [hphase] at hf; cases hf) hw hr
  | set hgate hq h =>
    obtain ⟨w, hw, hr⟩ := h.takes hq rfl rfl rfl hs
    exact roundTrip_waits (bytes := []) hgate (by simpa [statusReads] using hw) hr
  | waiting hgate hq h =>
    obtain ⟨w, hw, hr⟩ := h.resumes hq hs
    exact roundTrip_waits hgate hw hr
  | waited hgate hmid hq h =>
    obtain ⟨w, hw, hr⟩ := h.takes hq rfl rfl rfl hs
    obtain ⟨sb, hv, hqv, hreply⟩ := hw.last_read hr
    exact .done hgate hmid hqv hreply hv
  | done hgate hmid hq hreply h =>
    have hidle : step u = .next u := by simp only [step, hq, fetch, h.calls]
    rw [hidle] at hs
    injection hs with hs
    exact hs ▸ .done hgate hmid hq hreply h

end

end Sys2Proof.Machine
end

section
/-! SUPPORT. The reference responder meets the premises P1 to P4 on every trail of transfers (20_memory.md R46 to
R50). -/

namespace Sys2Proof.Machine

/-- The account of the controller a trail gives: the responder at each transfer, as it is seen. -/
def seenTrail (trail : List (Responder × Transfer)) : List (Seen × Transfer) :=
  trail.map fun p => (p.1.seen, p.2)

theorem seenTrail_cons (M : Responder) (tr : Transfer) (rest : List (Responder × Transfer)) :
    seenTrail ((M, tr) :: rest) = (M.seen, tr) :: seenTrail rest := rfl

/-! ## One transfer -/

/-- A data write changes the cell the Address Counter points at and steps the counter. -/
theorem store_seen {L M : Responder} {v : Byte} (hwf : (LcdModel.reference L).wf) (h : L.store v = .ok M) :
    (∀ sp n, M.seen.cell sp n = if sp = L.space ∧ n = L.seen.place then v else L.seen.cell sp n)
      ∧ M.ac = nextCounter L.space L.increment L.ac ∧ M.space = L.space := by
  obtain ⟨hs, -, rfl⟩ | ⟨hs, rfl⟩ := store_cases h
  · have hplace : L.seen.place = L.ac.toNat := by simp [Seen.place, Responder.seen, hs]
    refine ⟨fun sp n => ?_, rfl, rfl⟩
    cases sp with
    | ddram =>
      simp only [hs, hplace, true_and]
      exact Memory.read_write_eq hwf.1 _ _ _
    | cgram => exact (if_neg (by simp [hs])).symm
  · have hplace : L.seen.place = cgramCell L.ac := by simp [Seen.place, Responder.seen, hs]
    refine ⟨fun sp n => ?_, rfl, rfl⟩
    cases sp with
    | ddram => exact (if_neg (by simp [hs])).symm
    | cgram =>
      simp only [hs, hplace, true_and]
      exact Memory.read_write_eq hwf.2 _ _ _

theorem accept_data_seen {L N : Responder} {v : Byte} {d : Busy} (hwf : (LcdModel.reference L).wf)
    (h : L.accept true v d = .ok N) :
    (∀ sp n, N.seen.cell sp n = if sp = L.space ∧ n = L.seen.place then v else L.seen.cell sp n)
      ∧ N.ac = nextCounter L.space L.increment L.ac ∧ N.space = L.space := by
  cases hM : L.noteArrival.store v with
  | error e => simp [Responder.accept, hM] at h
  | ok M =>
    obtain rfl : _ = N := Except.ok.inj ((accept_data hM d).symm.trans h)
    have hseen := store_seen (L := L.noteArrival) hwf hM
    exact hseen

theorem accept_setDdram {L N : Responder} {a : Addr7} {d : Busy} (h : L.accept false (1#1 ++ a) d = .ok N) :
    N.ac = a ∧ N.space = .ddram ∧ N.seen.cell = L.seen.cell := by
  obtain rfl : _ = N := Except.ok.inj ((accept_instruction (instruct_setDdram _ a) d).symm.trans h)
  exact ⟨rfl, rfl, rfl⟩

/-- Away from the ends of the ranges the next address is one more. -/
theorem nextCounter_of_hasNext {x : Seen} (h : x.HasNext) : nextCounter x.space true x.ac = x.ac + 1 := by
  have key : ∀ ac : Addr7, ac.extractLsb' 0 6 ≠ 0x3F → nextCounter .cgram true ac = ac + 1 := by decide
  unfold Seen.HasNext at h
  split at h
  · next hs =>
    obtain ⟨-, h27, h67⟩ := h
    rw [hs, nextCounter, if_neg h27, if_neg h67]
  · next hs =>
    rw [hs]
    exact key x.ac h

theorem makes_wf {L N : Responder} {tr : Transfer} (hwf : (LcdModel.reference L).wf) (h : L.Makes tr N) :
    (LcdModel.reference N).wf := by
  cases tr with
  | write r v =>
    obtain ⟨d, h⟩ := h
    exact (accept_keeps h).1 hwf
  | read r sb =>
    cases r with
    | instruction =>
      obtain ⟨-, rfl⟩ := h
      exact hwf
    | data =>
      obtain ⟨d, h⟩ := h
      obtain ⟨-, rfl⟩ := supply_cases h
      exact hwf

theorem busyNow_eq_false {d : Busy} : busyNow d = false ↔ d = .polls 0 := by
  cases d with
  | forever => simp [busyNow]
  | polls n => cases n <;> simp [busyNow]

theorem Responder.Rests.withBusy {L M : Responder} (h : L.Rests M) : ∃ d, M = L.withBusy d := by
  obtain rfl | rfl := h
  · exact ⟨M.busy, rfl⟩
  · exact ⟨.polls 0, rfl⟩

theorem Responder.Rests.free {L M : Responder} (h : L.Rests M) (hL : busyNow L.busy = false) :
    busyNow M.busy = false := by
  obtain rfl | rfl := h
  · exact hL
  · rfl

/-! ## A trail -/

theorem nowSeen_seenTrail {L L' : Responder} {trail : List (Responder × Transfer)} (h : Trail L trail L') :
    ∃ M, L.Rests M ∧ nowSeen (seenTrail trail) L'.seen = M.seen := by
  cases trail with
  | nil => exact ⟨L', h, rfl⟩
  | cons p rest => exact ⟨p.1, h.1, rfl⟩

theorem trail_snoc {M N : Responder} {tr : Transfer} (hN : M.Makes tr N) :
    ∀ {trail : List (Responder × Transfer)} {L : Responder}, Trail L trail M → Trail L (trail ++ [(M, tr)]) N
  | [], _, h => ⟨h, N, hN, .inl rfl⟩
  | _ :: _, _, ⟨hrests, K, hK, h⟩ => ⟨hrests, K, hK, trail_snoc hN h⟩

theorem trail_waits {M : Responder} :
    ∀ {trail : List (Responder × Transfer)} {L : Responder}, Trail L trail M → Trail L trail M.afterHostDelay
  | [], _, h => by
    obtain rfl | rfl := h
    · exact .inr rfl
    · exact .inr rfl
  | _ :: _, _, ⟨hrests, K, hK, h⟩ => ⟨hrests, K, hK, trail_waits h⟩

/-- What holds of the responder whatever its busy count has settled: status reads and waits change nothing else. -/
theorem settled_of_trail {Q : Seen → Prop} {L' : Responder} :
    ∀ {trail : List (Responder × Transfer)} {N : Responder}, Trail N trail L' → (∀ d, Q (N.withBusy d).seen) →
      Settled Q (seenTrail trail) L'.seen
  | [], N, h, hQ => by
    obtain ⟨d, rfl⟩ := h.withBusy
    exact fun _ => hQ d
  | (M, tr) :: rest, N, ⟨hrests, K, hK, h⟩, hQ => by
    obtain ⟨d, rfl⟩ := hrests.withBusy
    refine ⟨fun _ => hQ d, fun htr => ?_⟩
    cases tr with
    | write r v => cases htr
    | read r sb =>
      cases r with
      | data => cases htr
      | instruction =>
        obtain ⟨-, rfl⟩ := hK
        exact settled_of_trail h hQ

theorem eachStatusRead_of_trail {tells : Seen → Byte → Prop} (htells : ∀ M : Responder, tells M.seen M.statusByte)
    {L' : Responder} : ∀ {trail : List (Responder × Transfer)} {L : Responder} {latched : Bool}, Trail L trail L' →
      EachStatusRead tells latched (seenTrail trail)
  | [], _, _, _ => trivial
  | (M, tr) :: rest, _, _, ⟨_, K, hK, h⟩ => by
    rw [seenTrail_cons]
    cases tr with
    | write r v => exact eachStatusRead_of_trail htells h
    | read r sb =>
      cases r with
      | data => exact eachStatusRead_of_trail htells h
      | instruction =>
        obtain ⟨rfl, -⟩ := hK
        exact ⟨fun _ => htells M, eachStatusRead_of_trail htells h⟩

theorem staysFree_of_trail {L' : Responder} :
    ∀ {trail : List (Responder × Transfer)} {L : Responder}, Trail L trail L' → StaysFree (seenTrail trail) L'.seen
  | [], _, _ => trivial
  | (M, tr) :: rest, _, ⟨_, K, hK, h⟩ => by
    rw [seenTrail_cons]
    refine ⟨fun htr hfree => ?_, staysFree_of_trail h⟩
    obtain ⟨J, hJ, hnow⟩ := nowSeen_seenTrail h
    cases tr with
    | write r v => cases htr
    | read r sb =>
      cases r with
      | data => cases htr
      | instruction =>
        obtain ⟨-, rfl⟩ := hK
        have hM : M.busy = .polls 0 := busyNow_eq_false.1 hfree
        rw [hnow]
        exact hJ.free (by rw [afterStatus_polls hM]; rfl)

theorem eachAccess_of_trail {done : Seen → Transfer → Seen → Prop}
    (hdone : ∀ (M N : Responder) (tr : Transfer) (d : Busy), (LcdModel.reference M).wf → M.Makes tr N →
      done M.seen tr (N.withBusy d).seen) {L' : Responder} :
    ∀ {trail : List (Responder × Transfer)} {L : Responder}, (LcdModel.reference L).wf → Trail L trail L' →
      EachAccess done (seenTrail trail) L'.seen
  | [], _, _, _ => trivial
  | (M, tr) :: rest, L, hwf, ⟨hrests, K, hK, h⟩ => by
    have hwfM : (LcdModel.reference M).wf := by
      obtain ⟨d, rfl⟩ := hrests.withBusy
      exact hwf
    exact ⟨fun _ _ => settled_of_trail h fun d => hdone M K tr d hwfM hK,
      eachAccess_of_trail hdone (makes_wf hwfM hK) h⟩

/-- The premises of 20_memory.md R45, of every trail. -/
theorem controllerPremises_of_trail {L L' : Responder} {trail : List (Responder × Transfer)}
    (hwf : (LcdModel.reference L).wf) (h : Trail L trail L') (latched : Bool) :
    ControllerPremises latched (seenTrail trail) L'.seen where
  p1 := ⟨eachStatusRead_of_trail statusByte_busyFlag h, staysFree_of_trail h⟩
  p2 := eachStatusRead_of_trail statusByte_counterField h
  p3 := by
    refine eachAccess_of_trail (fun M N tr d _ hN a htr _ => ?_) hwf h
    subst htr
    obtain ⟨draw, hN⟩ := hN
    obtain ⟨hac, hspace, -⟩ := accept_setDdram hN
    exact ⟨hac, hspace⟩
  p4 := by
    refine eachAccess_of_trail (fun M N tr d hM hN v htr => ?_) hwf h
    subst htr
    obtain ⟨draw, hN⟩ := hN
    obtain ⟨hcell, hac, hspace⟩ := accept_data_seen hM hN
    refine ⟨fun _ => (hcell _ _).trans (if_pos ⟨rfl, rfl⟩), fun hinc hnext => ⟨?_, hspace⟩⟩
    have hinc : M.increment = true := hinc
    rw [hinc] at hac
    exact hac.trans (nextCounter_of_hasNext hnext)

theorem cellsStay_of_trail {L L' : Responder} {trail : List (Responder × Transfer)}
    (hwf : (LcdModel.reference L).wf) (h : Trail L trail L') : CellsStay (seenTrail trail) L'.seen := by
  refine eachAccess_of_trail (fun M N tr d hM hN sp n htr => ?_) hwf h
  obtain ⟨a, rfl⟩ | ⟨v, rfl, hn⟩ := htr
  · obtain ⟨draw, hN⟩ := hN
    obtain ⟨-, -, hcell⟩ := accept_setDdram hN
    exact congrFun (congrFun hcell sp) n
  · obtain ⟨draw, hN⟩ := hN
    exact ((accept_data_seen hM hN).1 sp n).trans (if_neg hn)

/-! ## The trail of a run -/

/-- A run from `s`, where the responder was `L`, has left a trail. -/
def LeavesTrail (s : State) (L : Responder) (t : State) : Prop :=
  ∃ trail L', s.Made (trail.map (·.2)) t ∧ t.lcd.model = .reference L' ∧ Trail L trail L'

theorem LeavesTrail.snoc {s u : State} {L M N : Responder} {trail : List (Responder × Transfer)} {tr : Transfer}
    (h : Trail L trail M) (hN : M.Makes tr N) (hmade : s.Made (trail.map (·.2) ++ [tr]) u)
    (hu : u.lcd.model = .reference N) : LeavesTrail s L u :=
  ⟨trail ++ [(M, tr)], N, by simpa using hmade, hu, trail_snoc hN h⟩

theorem block_leavesTrail {b : Bindings} {bl : Block} {sb sb' : Byte} {s t u : State} {L : Responder}
    (h : LeavesTrail s L t) (hb : microSteps b (bl.micros t.timing) sb t = .next (sb', u)) : LeavesTrail s L u := by
  obtain ⟨trail, M, hmade, hM, htrail⟩ := h
  obtain ⟨r, v, -, hd⟩ | ⟨r, -, hd⟩ | ⟨-, rfl⟩ := block_cases hb
  · obtain ⟨N, d, hN, hacc, -⟩ := hd.responder M hM
    exact .snoc htrail (tr := .write r v) ⟨d, hacc⟩ (hmade.write hd) hN
  · cases r with
    | instruction =>
      obtain ⟨hsb, hN, -, -⟩ := hd.status M hM rfl
      exact .snoc htrail (tr := .read .instruction sb') ⟨hsb, rfl⟩ (hmade.read hd) hN
    | data =>
      obtain ⟨N, d, hN, hsupply, -⟩ := hd.data M hM rfl
      exact .snoc htrail (tr := .read .data sb') ⟨d, hsupply⟩ (hmade.read hd) hN
  · exact ⟨trail, M, hmade, hM, htrail⟩

theorem hostWait_leavesTrail {s t : State} {L : Responder} (h : LeavesTrail s L t) (d : Nat) :
    LeavesTrail s L (hostWait d t) := by
  obtain ⟨trail, M, hmade, hM, htrail⟩ := h
  refine ⟨trail, M.afterHostDelay, hmade.hostWait d, ?_, trail_waits htrail⟩
  obtain ⟨ho, -⟩ | ⟨N, hN, hw⟩ := hostWait_cases d t
  · rw [hM] at ho
    cases ho
  · obtain rfl : M = N := LcdModel.reference.inj (hM.symm.trans hN)
    rw [hw]

theorem step_leavesTrail {s t u : State} {L : Responder} (h : LeavesTrail s L t) (hs : step t = .next u) :
    LeavesTrail s L u :=
  step_keeps (P := LeavesTrail s L) (fun _ _ h => h) (fun _ _ h => h) (fun _ d h => hostWait_leavesTrail h d)
    (fun _ _ h _ _ => h) (fun _ _ h _ => h) (fun _ _ _ _ _ _ h _ _ hb => block_leavesTrail h hb) h hs

theorem LeavesTrail.conforms {s t : State} {L : Responder} (h : LeavesTrail s L t) (hwf : (LcdModel.reference L).wf)
    (latched : Bool) : t.ConformsSince s.events.length L latched := by
  obtain ⟨trail, L', hmade, hL', htrail⟩ := h
  exact ⟨trail, L', hmade.since.symm, hL', htrail, controllerPremises_of_trail hwf htrail latched,
    cellsStay_of_trail hwf htrail⟩

end Sys2Proof.Machine
end

section
/-! PROOF. The statement about the premises P1 to P4: what they give a program, and that the responder meets them. -/

namespace Sys2Proof.Machine

/-- An operation whose plan is one status read makes that one transfer. -/
theorem exec_status {b : Bindings} {s : State} {i : Instr} {x : Extract} (hclean : s.CleanEntry)
    (hconf : s.ConfiguredWith b)
    (hi : exec i s = operate i { rejected := none, blocks := [.read .instruction], returns := x } s) :
    ∃ t sb, exec i s = .next t ∧ s.since t = [.read .instruction sb]
      ∧ t.reply = some { status := .ok, value := x.value sb } := by
  obtain ⟨sb, u, hu, hd⟩ := read_completes (b := b) (s := { s with reply := none }) 0 hclean.2 (answers_status _)
  rw [operate_runs hclean.1 hconf rfl] at hi
  have hstart : s.Made [] { s with reply := none } := made_nil s
  have hmade := hstart.read hd
  exact ⟨_, sb, hi.trans (runBlocks_last (bl := .read .instruction) hu (by simp)),
    State.Made.since (t := u.finish _) hmade, rfl⟩

/-- The program that sets an address, waits and reads the Address Counter ends with the address. -/
theorem roundTrip_reply {b : Bindings} {s t : State} {n : Nat} {run : List (Seen × Transfer)} {last : Seen}
    (ht : RoundTrip b s.handle.startupComplete n s t) (hend : t.calls = [])
    (hrange : inLineRange (BitVec.ofNat 7 n) = true) (hrun : run.map (·.2) = s.since t)
    (h : Premises run last) (hfree : s.handle.startupComplete = false → (nowSeen run last).processing = false) :
    t.reply = some { status := .ok, value := .address (BitVec.ofNat 7 n) } := by
  cases ht with
  | @done gate mid sb hgate hmid _ hreply hstands =>
    rw [hstands.made.since, List.append_assoc, List.append_assoc] at hrun
    have hback : counterField sb = BitVec.ofNat 7 n := by
      unfold GateOver at hgate
      split at hgate
      · obtain ⟨bytes, c, rfl, hc⟩ := hgate
        obtain ⟨rest, hrest, hp, hfree', -⟩ := h.after_poll hc hrun
        exact hp.reads_back hrest hmid hrange hfree'
      · next hphase =>
        subst hgate
        exact h.reads_back hrun hmid hrange (hfree (by simpa using hphase))
    rw [hreply, hback]
  | start _ h => rw [h.calls] at hend; cases hend
  | setting _ _ h => rw [h.calls] at hend; cases hend
  | set _ _ h => rw [h.calls] at hend; cases hend
  | waiting _ _ h => rw [h.calls] at hend; cases hend
  | waited _ _ _ h => rw [h.calls] at hend; cases hend

/-- Settles O60: P1 and P2 speak of the one status read of `IsBusy` and of `ReadAddressCounter`, P3 of the row of
transfers the program makes; the responder's own trail is the account of its run. -/
theorem controllerPremisesAreMet : Obligations.ControllerPremisesAreMet := by
  refine ⟨fun b s hclean hconf hp5 => ⟨?_, ?_, ?_⟩, ?_⟩
  · obtain ⟨t, sb, ht, hsince, hreply⟩ := exec_status (i := .isBusy) hclean hconf rfl
    refine ⟨t, ht, fun run last hrun h1 => ?_⟩
    rw [hsince] at hrun
    obtain ⟨⟨x, tr⟩, rest, rfl, rfl, -⟩ := List.map_eq_cons_iff.1 hrun
    rw [hreply, Extract.value, h1.1.1 hp5]
    rfl
  · obtain ⟨t, sb, ht, hsince, hreply⟩ := exec_status (i := .readAddressCounter) hclean hconf rfl
    refine ⟨t, ht, fun run last hrun h2 => ?_⟩
    rw [hsince] at hrun
    obtain ⟨⟨x, tr⟩, rest, rfl, rfl, -⟩ := List.map_eq_cons_iff.1 hrun
    rw [hreply, Extract.value, h2.1 hp5]
    rfl
  · intro n m t run last hrange hcalls hm hend _ hrun h1 h2 h3 hfree
    have hstart : RoundTrip b s.handle.startupComplete n s s :=
      .start hclean.1 ⟨hconf, rfl, hclean.2, hcalls, made_nil s⟩
    have ht := run_keeps (fun _ _ => step_keeps_roundTrip) m s t hstart hm
    rw [State.P5] at hp5
    rw [hp5] at h1 h2
    exact roundTrip_reply ht hend hrange hrun ⟨h1, h2, h3⟩ hfree
  · intro s t L n latched hL hddram hcgram hrun
    have hstart : LeavesTrail s L s := ⟨[], L, made_nil s, hL, .inl rfl⟩
    exact (run_keeps (fun _ _ => step_leavesTrail) n s t hstart hrun).conforms ⟨hddram, hcgram⟩ latched

end Sys2Proof.Machine
end

section
/-! SUPPORT. The encoding: what the decoder reads from each bus word, and which operations own their word (30_encoding.md
R51 to R59). -/

namespace Sys2Proof.Machine

/-! ## Bus words by RS and RW (30_encoding.md R51) -/

theorem decode_toNat (w : BusWord) : decode w.toNat = .ok (decodeBusWord w) := by
  rw [decode, if_pos w.isLt, BitVec.ofNat_toNat, BitVec.setWidth_eq]

theorem busWord_of_bits (w : BusWord) : busWord (w.getLsbD 9) (w.getLsbD 8) (w.extractLsb' 0 8) = w := by
  revert w
  decide

theorem busWord_and_read_mask (rs rw : Bool) (v : Byte) : busWord rs rw v &&& 0x300 = busWord rs rw 0 := by
  revert rs rw v
  decide

@[simp] theorem decodeBusWord_instruction_write (v : Byte) :
    decodeBusWord (busWord false false v) = decodeInstructionByte v := by
  simp only [decodeBusWord, busWord_rs, busWord_rw, busWord_byte]

@[simp] theorem decodeBusWord_status_read (v : Byte) : decodeBusWord (busWord false true v) = .isBusy := by
  simp only [decodeBusWord, busWord_rs, busWord_rw]

@[simp] theorem decodeBusWord_data_write (v : Byte) : decodeBusWord (busWord true false v) = .writeDataReg v := by
  simp only [decodeBusWord, busWord_rs, busWord_rw, busWord_byte]

@[simp] theorem decodeBusWord_data_read (v : Byte) : decodeBusWord (busWord true true v) = .readDataReg := by
  simp only [decodeBusWord, busWord_rs, busWord_rw]

/-! ## Instruction bytes (30_encoding.md R53, R59) -/

theorem decodeInstructionByte_setCgram (x : BitVec 6) :
    decodeInstructionByte (0b01#2 ++ x) = .setCGRAMAddress x.toNat := by
  revert x
  decide

theorem decodeInstructionByte_setDdram (x : BitVec 7) :
    decodeInstructionByte (0b1#1 ++ x) = .setDisplayDataAddress x.toNat := by
  revert x
  decide

/-- The decoder reads back each format of R53, with the operands its bits keep. -/
theorem decodeInstructionByte_of_encode {i : Instr} {v : Byte} (h : encodeInstructionByte i = some v) :
    decodeInstructionByte v = i.masked := by
  cases i with
  | clearDisplay => cases h; rfl
  | returnHome => cases h; rfl
  | setEntryMode i d => cases h; revert i d; decide
  | displayControl d c b => cases h; revert d c b; decide
  | cursorDisplayShift d c => cases h; revert d c; decide
  | functionSet l n f => cases h; cases l <;> cases n <;> cases f <;> rfl
  | setCGRAMAddress a =>
    cases h
    rw [decodeInstructionByte_setCgram, BitVec.toNat_ofNat]
    rfl
  | setDisplayDataAddress a =>
    cases h
    rw [decodeInstructionByte_setDdram, BitVec.toNat_ofNat]
    rfl
  | _ => cases h

/-- On a byte of R59's list the decoder finds an operation that produces it. -/
theorem encode_decodeInstructionByte {v : Byte} (h : producible v = true) :
    encodeInstructionByte (decodeInstructionByte v) = some v := by
  revert v
  decide

theorem decodeInstructionByte_of_not_producible {v : Byte} (h : producible v = false) :
    decodeInstructionByte v = .writeLcd .instruction v := by
  revert v
  decide

/-- A byte outside R59's list decodes to a raw write, and no encoder operation is one. -/
theorem producible_of_encode {i : Instr} {v : Byte} (h : encodeInstructionByte i = some v) : producible v = true := by
  by_contra hv
  have hraw := decodeInstructionByte_of_not_producible (Bool.eq_false_of_not_eq_true hv)
  rw [decodeInstructionByte_of_encode h] at hraw
  cases i <;> cases h <;> cases hraw

theorem producible_iff {v : Byte} : producible v = true ↔ ∃ i, encodeInstructionByte i = some v :=
  ⟨fun h => ⟨_, encode_decodeInstructionByte h⟩, fun ⟨_, h⟩ => producible_of_encode h⟩

/-! ## Operations and their words -/

/-- An encoder operation's word writes its byte to the Instruction register (30_encoding.md R52). -/
theorem encode_of_instructionByte {i : Instr} {v : Byte} (h : encodeInstructionByte i = some v) :
    encode i = some (busWord false false v) := by
  cases i <;> cases h <;> rfl

theorem ownsItsWord_of_instructionByte {i : Instr} {v : Byte} (h : encodeInstructionByte i = some v) :
    i.ownsItsWord = true := by
  cases i <;> cases h <;> rfl

/-- The operations that own their word (log entry 2). -/
theorem ownsItsWord_cases {i : Instr} (h : i.ownsItsWord = true) :
    (∃ v, encodeInstructionByte i = some v) ∨ (∃ v, i = .writeDataReg v) ∨ i = .readDataReg ∨ i = .isBusy
      ∨ ∃ v, i = .writeLcd .instruction v ∧ producible v = false := by
  cases i with
  | writeDataReg v => exact .inr (.inl ⟨v, rfl⟩)
  | readDataReg => exact .inr (.inr (.inl rfl))
  | isBusy => exact .inr (.inr (.inr (.inl rfl)))
  | writeLcd r v =>
    cases r with
    | instruction => exact .inr (.inr (.inr (.inr ⟨v, rfl, by simpa [Instr.ownsItsWord] using h⟩)))
    | data => cases h
  | readAddressCounter | waitNotBusy | readLcd | configure | mapAddress | clearCell | writeAt | writeLine => cases h
  | _ => exact .inl ⟨_, rfl⟩

theorem markerBit_masked (i : Instr) : markerBit i.masked = markerBit i := by cases i <;> rfl

/-- The highest set bit of an encoder operation's byte (30_encoding.md R58). -/
theorem markerBit_of_encode {i : Instr} {v : Byte} (h : encodeInstructionByte i = some v) :
    ∃ k, markerBit i = some k ∧ v.toNat >>> k = 1 := by
  cases i with
  | clearDisplay => cases h; exact ⟨0, rfl, rfl⟩
  | returnHome => cases h; exact ⟨1, rfl, rfl⟩
  | setEntryMode i d => cases h; exact ⟨2, rfl, by revert i d; decide⟩
  | displayControl d c b => cases h; exact ⟨3, rfl, by revert d c b; decide⟩
  | cursorDisplayShift d c => cases h; exact ⟨4, rfl, by revert d c; decide⟩
  | functionSet l n f => cases h; exact ⟨5, rfl, by cases l <;> cases n <;> cases f <;> rfl⟩
  | setCGRAMAddress a =>
    cases h
    have marked : ∀ x : BitVec 6, (0b01#2 ++ x).toNat >>> 6 = 1 := by decide
    exact ⟨6, rfl, marked _⟩
  | setDisplayDataAddress a =>
    cases h
    have marked : ∀ x : BitVec 7, (0b1#1 ++ x).toNat >>> 7 = 1 := by decide
    exact ⟨7, rfl, marked _⟩
  | _ => cases h

end Sys2Proof.Machine
end

section
/-! SUPPORT. An operation whose blocks are a row of paced writes, issued under the oracle with its polls clear, and the
bytes of the address commands. -/

namespace Sys2Proof.Machine

/-! ## A row of paced writes as an operation -/

theorem pacedBlocks_singleton (phase : Bool) (r : Register) (v : Byte) :
    pacedBlocks phase [(r, v)] = pace phase ++ [.write r v] := by
  simp [pacedBlocks]

section
variable {b : Bindings} {i : Instr} {s : State} (hi : ReachesBus i = true) (hclean : s.CleanEntry)
  (hconf : s.ConfiguredWith b) (ho : s.UnderOracle)
include hi hclean hconf ho

/-- Issued, such an operation runs through to what comes after its row. -/
theorem exec_paced {ws : List (Register × Byte)} {tail : List Block} (hc : s.PollsClear ws.length)
    (hrej : (planOf i s.handle.startupComplete).rejected = none)
    (hblocks : (planOf i s.handle.startupComplete).blocks = pacedBlocks s.handle.startupComplete ws ++ tail) :
    ∃ k sb t, exec i s = runBlocks b i (planOf i s.handle.startupComplete).returns k tail sb t
      ∧ PacedDone ws { s with reply := none } t := by
  obtain ⟨k, sb, t, ht, hd, -⟩ := runBlocks_paced (b := b) (i := i)
    (x := (planOf i s.handle.startupComplete).returns) tail ws 0 0 { s with reply := none } hclean.2 ho hc
  refine ⟨k, sb, t, ?_, hd⟩
  rw [exec_eq_operate hi, operate_runs hclean.1 hconf hrej, hblocks, ht]

/-- An operation that is the row alone does these writes and leaves the handle. -/
theorem writes_of_plan {ws : List (Register × Byte)} (hc : s.PollsClear ws.length)
    (hplan : planOf i s.handle.startupComplete
      = { rejected := none, blocks := pacedBlocks s.handle.startupComplete ws, returns := .nothing }) :
    Writes i ws s.handle s := by
  obtain ⟨k, sb, t, ht, hd⟩ :=
    exec_paced (tail := []) hi hclean hconf ho hc (by rw [hplan]) (by rw [hplan, List.append_nil])
  rw [hplan] at ht
  exact ⟨t.finish .nothing, ht, hd.events, hd.pins, hd.handle, rfl, rfl, hd.timing, hd.calls, hd.oracle⟩

/-- A command that only issues its byte (42_instruction_encoder.md R79). -/
theorem writes_of_issuePlan {v : Byte} (hc : s.PollsClear 1)
    (hplan : planOf i s.handle.startupComplete = issuePlan s.handle.startupComplete v) :
    Writes i [(.instruction, v)] s.handle s := by
  refine writes_of_plan hi hclean hconf ho hc ?_
  rw [hplan, pacedBlocks_singleton]
  rfl

end

/-! ## The bytes of the address commands as sums (30_encoding.md R55) -/

theorem setCGRAMAddressByte_eq_add (a : Nat) : setCGRAMAddressByte a = BitVec.ofNat 8 (0x40 + a % 64) := by
  have key : ∀ x : BitVec 6, 0b01#2 ++ x = BitVec.ofNat 8 (0x40 + x.toNat) := by decide
  rw [setCGRAMAddressByte_eq, key, BitVec.toNat_ofNat]

theorem setDisplayDataAddressByte_eq_add (a : Nat) :
    setDisplayDataAddressByte a = BitVec.ofNat 8 (0x80 + a % 128) := by
  have key : ∀ x : BitVec 7, 1#1 ++ x = BitVec.ofNat 8 (0x80 + x.toNat) := by decide
  rw [setDisplayDataAddressByte_eq, key, BitVec.toNat_ofNat]

end Sys2Proof.Machine
end

section
/-! PROOF. The statements about the encoding (30_encoding.md): decoding against encoding, the list of the bytes produced,
and the words the paced writes put on the bus. -/

namespace Sys2Proof.Machine

/-- Settles O1: each word is decoded by evaluation. -/
theorem sampleBusWordsDecode : Obligations.SampleBusWordsDecode := by
  unfold Obligations.SampleBusWordsDecode
  and_intros <;> rfl

/-- Settles O2: an encoder operation's byte decodes to it, and the other owners are read off RS and RW. -/
theorem decodeInvertsEncode : Obligations.DecodeInvertsEncode := by
  intro i w howns hw
  rw [decode_toNat]
  obtain ⟨v, hv⟩ | ⟨v, rfl⟩ | rfl | rfl | ⟨v, rfl, hv⟩ := ownsItsWord_cases howns
  · obtain rfl : busWord false false v = w := Option.some.inj ((encode_of_instructionByte hv).symm.trans hw)
    rw [decodeBusWord_instruction_write, decodeInstructionByte_of_encode hv]
  · obtain rfl : busWord true false v = w := Option.some.inj hw
    rw [decodeBusWord_data_write]
    rfl
  · obtain rfl : busWord true true 0 = w := Option.some.inj hw
    rfl
  · obtain rfl : busWord false true 0 = w := Option.some.inj hw
    rfl
  · obtain rfl : busWord false false v = w := Option.some.inj hw
    rw [decodeBusWord_instruction_write, decodeInstructionByte_of_not_producible hv]
    rfl

/-- Settles O3: the word is taken apart into RS, RW and its byte; an instruction byte is one an encoder operation
produces or a raw write's. -/
theorem encodeInvertsDecode : Obligations.EncodeInvertsDecode := by
  intro w
  obtain ⟨rs, rw, v, rfl⟩ : ∃ rs rw v, w = busWord rs rw v := ⟨_, _, _, (busWord_of_bits w).symm⟩
  refine ⟨_, decode_toNat _, ?_⟩
  rw [busWord_rw]
  cases rw with
  | true =>
    rw [if_pos rfl, busWord_and_read_mask]
    cases rs with
    | false => rw [decodeBusWord_status_read]; exact ⟨rfl, rfl⟩
    | true => rw [decodeBusWord_data_read]; exact ⟨rfl, rfl⟩
  | false =>
    rw [if_neg Bool.false_ne_true]
    cases rs with
    | true => rw [decodeBusWord_data_write]; exact ⟨rfl, rfl⟩
    | false =>
      rw [decodeBusWord_instruction_write]
      cases hv : producible v with
      | true =>
        have hbyte := encode_decodeInstructionByte hv
        exact ⟨ownsItsWord_of_instructionByte hbyte, encode_of_instructionByte hbyte⟩
      | false =>
        rw [decodeInstructionByte_of_not_producible hv]
        exact ⟨by rw [Instr.ownsItsWord, hv]; rfl, rfl⟩

/-- Settles O4: two operations that issue one byte are both what it decodes to, but for operands the byte does not
keep, and the marker bit is the format's. -/
theorem formatsDoNotOverlap : Obligations.FormatsDoNotOverlap := by
  refine ⟨fun _ _ => markerBit_of_encode, fun i j v hi hj => ?_⟩
  calc markerBit i = markerBit (decodeInstructionByte v) := by
        rw [decodeInstructionByte_of_encode hi, markerBit_masked]
    _ = markerBit j := by rw [decodeInstructionByte_of_encode hj, markerBit_masked]

/-- Settles O5: the bytes produced are those `producible` lists, and its list is that of R59. -/
theorem producibleInstructionBytes : Obligations.ProducibleInstructionBytes := by
  refine ⟨fun v => producible_iff.symm.trans ?_, by rfl, fun v => producible_iff, fun _ => rfl, fun _ => rfl⟩
  revert v
  decide

/-- Settles O6: the plan's one write is the word's byte to the register RS selects, and what comes after it leaves no
event. -/
theorem meaningsPutTheirEncodingOnTheBus : Obligations.MeaningsPutTheirEncodingOnTheBus := by
  intro i w b s hi hw hrw hclean hconf ho hc
  obtain ⟨hrej, -, tail, htail, hblocks⟩ := planOf_issues hi hw hrw s.handle.startupComplete
  obtain ⟨k, sb, u, hu, hd⟩ := exec_paced (ws := [_]) (reachesBus_of_paced hi) hclean hconf ho hc hrej
    (by rw [hblocks, pacedBlocks_singleton, List.append_assoc, List.singleton_append])
  obtain ⟨t, ht, -, -, -, hevents, -⟩ := runBlocks_tail htail k sb u
  exact ⟨t, hu.trans ht, hevents.trans hd.events⟩

/-- Settles O23: both commands only issue their byte, and the mask and OR of its rule are the remainder and sum. -/
theorem addressCommandsMaskTheirAddress : Obligations.AddressCommandsMaskTheirAddress := by
  intro a b s hclean hconf ho hc
  rw [← setCGRAMAddressByte_eq_add, ← setDisplayDataAddressByte_eq_add]
  exact ⟨writes_of_issuePlan rfl hclean hconf ho hc rfl, writes_of_issuePlan rfl hclean hconf ho hc rfl⟩

end Sys2Proof.Machine
end

section
/-! SUPPORT. The time a run takes: the events an operation adds to the trace follow one another without a gap, and a delay
lasts its time (40_bus_transport.md R63, R69). -/

namespace Sys2Proof.Machine

/-- The least time an event takes (40_bus_transport.md R69). -/
def Event.least : Event → Nat
  | .delay d => d
  | .rs _ | .rw _ | .e _ | .dir _ | .out _ | .input _ => 0

/-- The events fill the time from `lo` to `hi`: each begins when the one before it is over and takes at least its time. -/
def Elapses : Nat → List Stamped → Nat → Prop
  | lo, [], hi => lo = hi
  | lo, x :: xs, hi => x.start = lo ∧ lo + x.event.least ≤ x.stop ∧ Elapses x.stop xs hi

theorem elapses_append {lo hi : Nat} {l m : List Stamped} :
    Elapses lo (l ++ m) hi ↔ ∃ mid, Elapses lo l mid ∧ Elapses mid m hi := by
  induction l generalizing lo with
  | nil => simp [Elapses]
  | cons x xs ih => simp only [List.cons_append, Elapses, ih, exists_and_left, and_assoc]

/-- A row of events takes at least the sum of their times. -/
theorem Elapses.sum_least_le {lo hi : Nat} {l : List Stamped} (h : Elapses lo l hi) :
    lo + (l.map fun x => x.event.least).sum ≤ hi := by
  induction l generalizing lo with
  | nil => exact Nat.le_of_eq h
  | cons x xs ih =>
    obtain ⟨-, hx, hxs⟩ := h
    have := ih hxs
    simp only [List.map_cons, List.sum_cons]
    omega

/-- From `s` to `t` the trace only grows, by events that fill the time between. -/
def Passes (s t : State) : Prop := ∃ l, t.trace = s.trace ++ l ∧ Elapses s.now l t.now

theorem Passes.refl (s : State) : Passes s s := ⟨[], by simp, rfl⟩

theorem Passes.trans {s t u : State} (hst : Passes s t) (htu : Passes t u) : Passes s u := by
  obtain ⟨l, hl, hle⟩ := hst
  obtain ⟨m, hm, hme⟩ := htu
  exact ⟨l ++ m, by rw [hm, hl, List.append_assoc], elapses_append.2 ⟨t.now, hle, hme⟩⟩

theorem Quiet.passes {s t : State} (h : Quiet s t) : Passes s t := ⟨[], by simp [h.trace], h.now.symm⟩

theorem Logs.passes_of_least {ev : Event} {s t : State} (h : Logs ev s t) (hl : s.now + ev.least ≤ t.now) :
    Passes s t :=
  ⟨[_], h.trace, rfl, hl, rfl⟩

/-- An event other than a delay may take no time. -/
theorem Logs.passes {ev : Event} {s t : State} (h : Logs ev s t) (hev : ev.least = 0) : Passes s t :=
  h.passes_of_least (by rw [hev]; exact h.now)

theorem microStep_passes {b : Bindings} {m : Micro} {sb sb' : Byte} {s t : State}
    (h : microStep b m sb s = .next (sb', t)) : Passes s t := by
  obtain ⟨v, -, -, -, rfl⟩ | ⟨v, -, -, rfl⟩ | ⟨-, -, rfl⟩ | ⟨-, -, h⟩ | ⟨d, -, -, rfl⟩ | ⟨v, -, -, rfl⟩
    | ⟨-, u, hu, rfl⟩ | ⟨d, -, -, rfl⟩ | ⟨-, -, rfl⟩ := microStep_cases h
  · exact (driveRs_logs b v s).passes rfl
  · exact (driveRw_logs b v s).passes rfl
  · exact (driveE_logs b true s).passes rfl
  · have hlow := (driveE_logs b false s).passes rfl
    obtain rfl | ⟨-, -, h⟩ := dropEnable_cases h
    · exact hlow
    · exact hlow.trans (lcdTakes_quiet h).1.passes
  · exact (driveDir_logs b d s).passes rfl
  · exact (driveOut_logs b v s).passes rfl
  · have hinput : Logs (.input sb') u (u.elapse 0 (.input sb')) := logs_elapse 0 (.input sb') rfl rfl rfl
    exact (lcdSupplies_quiet hu).1.passes.trans (hinput.passes rfl)
  · exact (elapse_logs d s).passes_of_least (by simp only [Event.least, elapse_now]; omega)
  · exact Quiet.passes ⟨rfl, rfl, rfl⟩

/-- What an operation adds to the trace fills the time it takes. -/
theorem exec_passes {i : Instr} {s t : State} (h : exec i s = .next t) : Passes s t :=
  exec_keeps (P := Passes s) (fun _ _ hu => hu) (fun _ _ hu _ _ => hu) (fun _ _ hu _ => hu)
    (fun _ _ _ sb sb' u v hu _ _ hv =>
      microSteps_keeps (P := Passes s) (fun _ _ _ _ _ hu hv => hu.trans (microStep_passes hv)) _ sb sb' u v hu hv)
    (Passes.refl s) h

end Sys2Proof.Machine
end

section
/-! SUPPORT. Operations at their entry: what a rejected one replies, which block comes first, and the raw transfers that
complete. -/

namespace Sys2Proof.Machine

/-! ## On an unconfigured handle -/

theorem reject_of_idle {s : State} (hq : s.seq = .idle) (st : Status) (x : Extract) :
    s.reject st x = { s with reply := some { status := st, value := x.value 0 } } := by
  rw [State.reject, ← hq]

theorem planClearCell_returns (line pos : Nat) (phase : Bool) : (planClearCell line pos phase).returns = .nothing := by
  unfold planClearCell
  split <;> rfl

theorem planWriteAt_returns (text : List Byte) (line pos cells : Nat) (phase : Bool) :
    (planWriteAt text line pos cells phase).returns = .nothing := by
  unfold planWriteAt
  split
  · rfl
  · split <;> rfl

/-- The default value is what the plan makes of a byte 0 (60_exceptions.md R99). -/
theorem planOf_default (i : Instr) (phase : Bool) : (planOf i phase).returns.value 0 = defaultValue i := by
  cases i with
  | clearCell line pos => exact congrArg (Extract.value · 0) (planClearCell_returns line pos phase)
  | writeAt text line pos cells => exact congrArg (Extract.value · 0) (planWriteAt_returns text line pos cells phase)
  | writeLine text line => exact congrArg (Extract.value · 0) (planWriteAt_returns text line 0 Config.cols phase)
  | _ => rfl

theorem exec_unconfigured {i : Instr} {s : State} (hi : ReachesBus i = true) (hq : s.seq = .idle)
    (hc : s.handle.configured = false) :
    exec i s = .next { s with reply := some { status := .notConfigured, value := defaultValue i } } := by
  rw [← planOf_default i s.handle.startupComplete, ← reject_of_idle hq, exec_eq_operate hi]
  simp [operate, hq, hc]

/-! ## The first block -/

theorem mapAddress_of_ranged {line pos : Nat} (hline : line = 1 ∨ line = 2) (hpos : pos ≤ 16) :
    ∃ a, mapAddress line pos = some a := by
  have hl : ¬(line < 1 ∨ Config.lines < line) := by simp only [Config.lines]; omega
  have hp : ¬Config.colMax < pos := by simp only [Config.colMax]; omega
  exact ⟨_, by rw [mapAddress, if_neg hl, if_neg hp]⟩

/-- The plan is not rejected and has a block to run. -/
def Plan.Runs (p : Plan) : Prop := p.rejected = none ∧ p.blocks ≠ []

theorem planClearCell_runs {line pos : Nat} (hline : line = 1 ∨ line = 2) (hpos : pos ≤ 16) (phase : Bool) :
    (planClearCell line pos phase).Runs := by
  obtain ⟨a, ha⟩ := mapAddress_of_ranged hline hpos
  simp [planClearCell, ha, Plan.Runs, clearBlocks, issueInstruction]

theorem planWriteAt_runs {text : List Byte} {line pos : Nat} (hline : line = 1 ∨ line = 2) (hpos : pos ≤ 16)
    (htext : text.length ≤ 16 - pos) (cells : Nat) (phase : Bool) :
    (planWriteAt text line pos cells phase).Runs := by
  obtain ⟨a, ha⟩ := mapAddress_of_ranged hline hpos
  have hfits : ¬Config.cols - pos < text.length := by simp only [Config.cols]; omega
  simp [planWriteAt, ha, hfits, Plan.Runs, issueInstruction]

theorem reachesBus_of_starts {i : Instr} (hi : StartsATransfer i = true ∨ AcceptedText i = true) :
    ReachesBus i = true := by
  cases i with
  | configure d dir l => simp [StartsATransfer, Paced, IsTransfer, AcceptedText] at hi
  | mapAddress line col => simp [StartsATransfer, Paced, IsTransfer, AcceptedText] at hi
  | _ => rfl

theorem planOf_runs {i : Instr} (hi : StartsATransfer i = true ∨ AcceptedText i = true) (phase : Bool) :
    (planOf i phase).Runs := by
  cases i with
  | clearCell line pos =>
    obtain ⟨hline, hpos⟩ : (line = 1 ∨ line = 2) ∧ pos ≤ 16 := by
      simpa [StartsATransfer, Paced, IsTransfer, AcceptedText] using hi
    exact planClearCell_runs hline hpos phase
  | writeAt text line pos cells =>
    obtain ⟨⟨hline, hpos⟩, htext⟩ : ((line = 1 ∨ line = 2) ∧ pos ≤ 16) ∧ text.length ≤ 16 - pos := by
      simpa [StartsATransfer, Paced, IsTransfer, AcceptedText] using hi
    exact planWriteAt_runs hline hpos htext cells phase
  | writeLine text line =>
    obtain ⟨hline, htext⟩ : (line = 1 ∨ line = 2) ∧ text.length ≤ 16 := by
      simpa [StartsATransfer, Paced, IsTransfer, AcceptedText] using hi
    exact planWriteAt_runs hline (Nat.zero_le _) htext Config.cols phase
  | configure d dir l => cases reachesBus_of_starts hi
  | mapAddress line col => cases reachesBus_of_starts hi
  | _ => cases phase <;> exact ⟨rfl, List.cons_ne_nil _ _⟩

/-- The flag is set after a transfer, never first. -/
theorem planOf_head_ne_setStartup {i : Instr} {phase : Bool} {bl : Block} {bls : List Block}
    (h : (planOf i phase).blocks = bl :: bls) : bl ≠ .setStartup := by
  rintro rfl
  by_cases hf : ∀ l n f, i ≠ .functionSet l n f
  · exact setStartup_not_mem_planOf hf (h ▸ List.mem_cons_self ..)
  · push Not at hf
    obtain ⟨l, n, f, rfl⟩ := hf
    cases phase <;> cases h

/-- A block with a transfer in it is refused at its first micro-step if Enable is high (40_bus_transport.md R72). -/
theorem block_refused_of_high {b : Bindings} {bl : Block} (T : Timing) (sb : Byte) {s : State} (hbl : bl ≠ .setStartup)
    (he : s.pins.e = true) : microSteps b (bl.micros T) sb s = .refused .enableHigh := by
  have hfirst : ∀ v ms, microSteps b (.rs v :: ms) sb s = .refused .enableHigh := fun v ms => by
    simp only [microSteps, microStep, he, if_true]
  cases bl with
  | setStartup => exact absurd rfl hbl
  | poll => exact hfirst _ _
  | read r => exact hfirst _ _
  | write r v => exact hfirst _ _

/-! ## The raw transfers -/

section
variable {b : Bindings} {r : Register} {s : State} (hclean : s.CleanEntry) (hconf : s.ConfiguredWith b)
include hclean hconf

theorem exec_writeLcd_completes {v : Byte} (ha : s.LcdAccepts r v) :
    ∃ u, exec (.writeLcd r v) s = .next (u.finish .nothing) ∧ WriteDone b r v { s with reply := none } u := by
  obtain ⟨u, hu, hd⟩ := write_completes (b := b) (s := { s with reply := none }) 0 hclean.2 ha
  exact ⟨u, (exec_writeLcd_eq hclean hconf r v).trans (runBlocks_last hu (by simp)), hd⟩

theorem exec_readLcd_completes (ha : s.LcdAnswers r) :
    ∃ sb u, exec (.readLcd r) s = .next (u.finish (.byte sb)) ∧ ReadDone b r sb { s with reply := none } u := by
  obtain ⟨sb, u, hu, hd⟩ := read_completes (b := b) (s := { s with reply := none }) 0 hclean.2 ha
  exact ⟨sb, u, (exec_readLcd_eq hclean hconf r).trans (runBlocks_last hu (by simp)), hd⟩

variable {t : State}

theorem exec_writeLcd_done {v : Byte} (h : exec (.writeLcd r v) s = .next t) :
    ∃ u, t = u.finish .nothing ∧ WriteDone b r v { s with reply := none } u := by
  obtain ⟨b', sb, u, hb, hu, ht⟩ := exec_writeLcd_runs hconf.1 h
  obtain rfl := Option.some.inj (hb.symm.trans hconf.2)
  exact ⟨u, ht, (write_done (s := { s with reply := none }) hclean.2 hu).2⟩

theorem exec_readLcd_done (h : exec (.readLcd r) s = .next t) :
    ∃ sb u, t = u.finish (.byte sb) ∧ ReadDone b r sb { s with reply := none } u := by
  obtain ⟨b', sb, u, hb, hu, ht⟩ := exec_readLcd_runs hconf.1 h
  obtain rfl := Option.some.inj (hb.symm.trans hconf.2)
  exact ⟨sb, u, ht, read_done (s := { s with reply := none }) hclean.2 hu⟩

end

end Sys2Proof.Machine
end

section
/-! PROOF. The statements about Bus Transport (40_bus_transport.md) and about operations on an unconfigured handle. -/

namespace Sys2Proof.Machine

/-- Settles O33: each is issued by a plan, and is rejected before any block of it. -/
theorem unconfiguredOperationsDoNothing : Obligations.UnconfiguredOperationsDoNothing :=
  fun _ _ => exec_unconfigured

/-- Settles O13: the plan's first block has a transfer in it, and a transfer writes RS first. -/
theorem enableHighIsRefused : Obligations.EnableHighIsRefused := by
  intro i b s hi hq hconf he
  obtain ⟨hrej, hne⟩ := planOf_runs hi s.handle.startupComplete
  obtain ⟨bl, bls, hblocks⟩ := List.exists_cons_of_ne_nil hne
  rw [exec_eq_operate (reachesBus_of_starts hi), operate_runs hq hconf hrej, hblocks]
  exact runBlocks_refused (block_refused_of_high _ _ (planOf_head_ne_setStartup hblocks) he)

/-- Settles O7: on a configured handle the operation is one write transfer. -/
theorem writeLcdFollowsItsSteps : Obligations.WriteLcdFollowsItsSteps := by
  refine ⟨fun r v b s hclean hconf ha => ?_, fun r v s hq hc => exec_unconfigured rfl hq hc⟩
  obtain ⟨u, hu, hd⟩ := exec_writeLcd_completes hclean hconf ha
  exact ⟨_, hu, hd.events, hd.pins, hd.handle, rfl, hd.timing, hd.calls, rfl⟩

/-- Settles O8: on a configured handle the operation is one read transfer. -/
theorem readLcdFollowsItsSteps : Obligations.ReadLcdFollowsItsSteps := by
  refine ⟨fun r b s hclean hconf ha => ?_, fun r s hq hc => exec_unconfigured rfl hq hc⟩
  obtain ⟨sb, u, hu, hd⟩ := exec_readLcd_completes hclean hconf ha
  exact ⟨sb, _, hu, hd.events, rfl, hd.pins, hd.handle, rfl, hd.timing, hd.calls,
    fun x xs ho hx => ((hd.oracle ho).2.2 x xs hx).1⟩

/-- A transfer under the oracle leaves the state ready for another. -/
theorem exec_transfer_under_oracle {x : Instr} {b : Bindings} {s : State} (hx : IsTransfer x = true)
    (hclean : s.CleanEntry) (hconf : s.ConfiguredWith b) (ho : s.UnderOracle) :
    ∃ t, exec x s = .next t ∧ t.CleanEntry ∧ t.handle = s.handle ∧ t.UnderOracle := by
  cases x with
  | writeLcd r v =>
    obtain ⟨u, hu, hd⟩ := exec_writeLcd_completes hclean hconf (accepts_of_oracle ho r v)
    exact ⟨_, hu, ⟨rfl, congrArg Pins.e hd.pins⟩, hd.handle, (hd.oracle ho).1⟩
  | readLcd r =>
    obtain ⟨sb, u, hu, hd⟩ := exec_readLcd_completes hclean hconf (answers_of_oracle ho r)
    exact ⟨_, hu, ⟨rfl, congrArg Pins.e hd.pins⟩, hd.handle, (hd.oracle ho).1⟩
  | _ => cases hx

/-- Settles O9: what each transfer leaves, and that it leaves the state ready for the next. -/
theorem transfersLeaveTheIdleState : Obligations.TransfersLeaveTheIdleState := by
  refine ⟨fun r v b s t hclean hconf h => ?_, fun r b s t hclean hconf h => ?_,
    fun x y b s hx hy hclean hconf ho => ?_⟩
  · obtain ⟨u, rfl, hd⟩ := exec_writeLcd_done hclean hconf h
    exact hd.pins
  · obtain ⟨sb, u, rfl, hd⟩ := exec_readLcd_done hclean hconf h
    exact hd.pins
  · obtain ⟨t, ht, hcleant, hhandle, hot⟩ := exec_transfer_under_oracle hx hclean hconf ho
    have hconft : t.ConfiguredWith b := by rwa [State.ConfiguredWith, hhandle]
    obtain ⟨u, hu, hcleanu, -, -⟩ := exec_transfer_under_oracle hy hcleant hconft hot
    exact ⟨t, u, ht, hu, hcleant, hcleanu⟩

/-! ## Time stamps (40_bus_transport.md R65, R67) -/

/-- The stamped events an operation adds are those its events name, and they fill its time. -/
theorem exec_stamps {i : Instr} {s t : State} {es : List Event} (h : exec i s = .next t)
    (hes : t.events = s.events ++ es) :
    ∃ l, t.trace = s.trace ++ l ∧ l.map (·.event) = es ∧ Elapses s.now l t.now := by
  obtain ⟨l, hl, hel⟩ := exec_passes h
  exact ⟨l, hl, List.append_cancel_left ((events_append hl).symm.trans hes), hel⟩

/-- Settles O10: W1 to W8 fill the time of the write, and the three delays among them last theirs. -/
theorem writeTimingHolds : Obligations.WriteTimingHolds := by
  intro r v b s t hclean hconf h
  obtain ⟨u, rfl, hd⟩ := exec_writeLcd_done hclean hconf h
  obtain ⟨l, hl, hevents, hel⟩ := exec_stamps h hd.events
  have hmap := hevents
  simp only [writeEvents, List.map_eq_cons_iff, List.map_eq_nil_iff] at hmap
  obtain ⟨w1, -, rfl, h1, w2, -, rfl, h2, w3, -, rfl, h3, w4a, -, rfl, h4a, w4b, -, rfl, h4b, w4c, -, rfl, h4c,
    w5, -, rfl, h5, w6, -, rfl, h6, w7, -, rfl, h7, w8, -, rfl, h8, rfl⟩ := hmap
  simp only [Elapses, h1, h2, h3, h4a, h4b, h4c, h5, h6, h7, h8, Event.least] at hel
  refine ⟨w1, w2, w3, w4a, w4b, w4c, w5, w6, w7, w8, hl, hevents, ?_⟩
  omega

/-- The read's events, with Rd5c as a row of its own. -/
theorem readEvents_eq (T : Timing) (r : Register) (sb : Byte) :
    readEvents T r sb
      = [.rs (r = .data), .rw true, .delay T.tAS, .dir .sense, .e true, .delay T.tDDR, .input sb]
        ++ (if T.tDDR < T.tEHRD then [.delay (T.tEHRD - T.tDDR)] else []) ++ [.e false, .delay T.tH] := by
  unfold readEvents
  split <;> rfl

/-- Rd5c makes up for what `T_EH_RD` asks beyond `T_DDR`, and is absent where it asks nothing. -/
theorem Elapses.stretch {T : Timing} {lo hi : Nat} {l : List Stamped} (h : Elapses lo l hi)
    (hl : l.map (·.event) = if T.tDDR < T.tEHRD then [.delay (T.tEHRD - T.tDDR)] else []) :
    lo + (T.tEHRD - T.tDDR) ≤ hi := by
  have hsum := h.sum_least_le
  have hmap : (l.map fun x => x.event.least) = (l.map (·.event)).map Event.least := by simp
  rw [hmap, hl] at hsum
  split at hsum
  · simpa [Event.least] using hsum
  · simp at hsum
    omega

/-- The first event an operation records comes after the clock's time. -/
theorem exec_first_stop {i : Instr} {s t : State} {x : Stamped} {rest : List Stamped} (h : exec i s = .next t)
    (hx : t.trace = s.trace ++ x :: rest) : s.now ≤ x.stop := by
  obtain ⟨l, hl, hel⟩ := exec_passes h
  obtain rfl : l = x :: rest := List.append_cancel_left (hl.symm.trans hx)
  obtain ⟨-, hstop, -⟩ := hel
  omega

/-- Settles O11: Rd1 to Rd7 fill the time of the read, the delays among them last theirs, and the next operation begins
when the last of them is over. -/
theorem readTimingHolds : Obligations.ReadTimingHolds := by
  intro r b s t hclean hconf h
  obtain ⟨sb, u, rfl, hd⟩ := exec_readLcd_done hclean hconf h
  obtain ⟨l, hl, hevents, hel⟩ := exec_stamps h hd.events
  have hmap := hevents
  rw [readEvents_eq, List.map_eq_append_iff] at hmap
  obtain ⟨l', post, rfl, hmap, hpost⟩ := hmap
  obtain ⟨pre, rd5c, rfl, hpre, h5c⟩ := List.map_eq_append_iff.1 hmap
  obtain ⟨lowered, hel, helpost⟩ := elapses_append.1 hel
  obtain ⟨sampled, helpre, hel5c⟩ := elapses_append.1 hel
  simp only [List.map_eq_cons_iff, List.map_eq_nil_iff] at hpre hpost
  obtain ⟨rd1, -, rfl, h1, rd2, -, rfl, h2, rd3, -, rfl, h3, rd4a, -, rfl, h4a, rd4b, -, rfl, h4b,
    rd5a, -, rfl, h5a, rd5b, -, rfl, h5b, rfl⟩ := hpre
  obtain ⟨rd6, -, rfl, h6, rd7, -, rfl, h7, rfl⟩ := hpost
  have hstretch : sampled + (s.timing.tEHRD - s.timing.tDDR) ≤ lowered := hel5c.stretch h5c
  simp only [Elapses, h1, h2, h3, h4a, h4b, h5a, h5b, Event.least] at helpre
  simp only [Elapses, h6, h7, Event.least] at helpost
  have hnext (j : Instr) (z : State) (x : Stamped) (rest : List Stamped) (hj : exec j (u.finish (.byte sb)) = .next z)
      (hx : z.trace = (u.finish (.byte sb)).trace ++ x :: rest) : rd6.stop + s.timing.tH ≤ x.stop := by
    have := exec_first_stop hj hx
    omega
  refine ⟨rd1, rd2, rd3, rd4a, rd4b, rd5a, rd5b, rd5c, rd6, rd7, sb, ?_, hevents, by omega, by omega, by omega,
    by omega, by omega, by omega, hnext⟩
  simpa only [List.append_assoc] using hl

end Sys2Proof.Machine
end

section
/-! SUPPORT. The plans by their gates: which of them are rows of paced writes, where their polls stand, and what the
other operations run (41_busy_sync.md R75, R76; 44_text_positioning.md). -/

namespace Sys2Proof.Machine

/-! ## Text Positioning as rows of paced writes -/

@[simp] theorem pacedBlocks_nil (phase : Bool) : pacedBlocks phase [] = [] := rfl

theorem pacedBlocks_cons (phase : Bool) (w : Register × Byte) (ws : List (Register × Byte)) :
    pacedBlocks phase (w :: ws) = pace phase ++ .write w.1 w.2 :: pacedBlocks phase ws := by
  simp [pacedBlocks]

theorem pacedBlocks_append (phase : Bool) (ws vs : List (Register × Byte)) :
    pacedBlocks phase (ws ++ vs) = pacedBlocks phase ws ++ pacedBlocks phase vs :=
  List.flatMap_append

/-- 44_text_positioning.md R92, as a number. -/
theorem mapAddress_in_range {line col : Nat} (hline : line = 1 ∨ line = 2) (hcol : col ≤ 16) :
    mapAddress line col = some (BitVec.ofNat 7 (cellAddress line col)) := by
  have hl : ¬(line < 1 ∨ Config.lines < line) := by simp only [Config.lines]; omega
  have hc : ¬Config.colMax < col := by simp only [Config.colMax]; omega
  rw [mapAddress, if_neg hl, if_neg hc, cellAddress, Config.lineShift, Nat.shiftLeft_eq]

theorem mapAddress_out_of_range {line col : Nat} (h : ¬((line = 1 ∨ line = 2) ∧ col ≤ 16)) :
    mapAddress line col = none := by
  rw [mapAddress]
  by_cases hl : line < 1 ∨ Config.lines < line
  · rw [if_pos hl]
  · have hc : Config.colMax < col := by
      simp only [Config.lines, Config.colMax] at hl ⊢
      omega
    rw [if_neg hl, if_pos hc]

section
variable {line col : Nat} (hline : line = 1 ∨ line = 2) (hcol : col ≤ 16) (phase : Bool)
include hline hcol

/-- The address command for a cell is the paced write of its address. -/
theorem issueInstruction_cell :
    issueInstruction phase (setDisplayDataAddressByte (BitVec.ofNat 7 (cellAddress line col)).toNat)
      = pacedBlocks phase [addressWrite line col] := by
  have hlt : cellAddress line col < 128 := by unfold cellAddress; omega
  have hbyte : setDisplayDataAddressByte (BitVec.ofNat 7 (cellAddress line col)).toNat
      = BitVec.ofNat 8 (128 + cellAddress line col) := by
    rw [setDisplayDataAddressByte_eq_add, BitVec.toNat_ofNat, Nat.mod_mod, Nat.mod_eq_of_lt hlt]
  rw [hbyte, addressWrite, pacedBlocks_singleton, issueInstruction]

theorem clearBlocks_cell :
    clearBlocks phase (BitVec.ofNat 7 (cellAddress line col))
      = pacedBlocks phase [addressWrite line col, (.data, 0x20)] := by
  rw [clearBlocks, issueInstruction_cell hline hcol, pacedBlocks_singleton, pacedBlocks_cons, pacedBlocks_singleton,
    List.append_assoc]
  rfl

end

/-- The clearing loop skips the cells that do not exist (44_text_positioning.md R94). -/
theorem clearRange_eq_paced {line : Nat} (hline : line = 1 ∨ line = 2) (phase : Bool) (pos cells : Nat) :
    clearRange phase line pos cells
      = pacedBlocks phase (((List.range cells).filter (fun i => pos + i ≤ 16)).flatMap
          fun i => [addressWrite line (pos + i), (.data, 0x20)]) := by
  unfold clearRange
  induction List.range cells with
  | nil => rfl
  | cons i is ih =>
    rw [List.flatMap_cons, ih]
    by_cases hi : pos + i ≤ 16
    · rw [mapAddress_in_range hline hi, List.filter_cons_of_pos (by simpa using hi), List.flatMap_cons,
        pacedBlocks_append, ← clearBlocks_cell hline hi]
    · rw [mapAddress_out_of_range (fun h => hi h.2), List.filter_cons_of_neg (by simpa using hi), List.nil_append]

theorem textBlocks_eq_paced (phase : Bool) (text : List Byte) :
    textBlocks phase text = pacedBlocks phase (text.map fun c => (.data, c)) := by
  rw [textBlocks, pacedBlocks, List.flatMap_map]
  rfl

/-! ## Rows of paced writes -/

/-- The plan is the row of paced writes `ws`, with `FunctionSet`'s flag after it or nothing. -/
def Plan.IsRow (p : Plan) (phase : Bool) (ws : List (Register × Byte)) : Prop :=
  p.rejected = none ∧ p.returns = .nothing
    ∧ ∃ tail, (tail = [] ∨ tail = [.setStartup]) ∧ p.blocks = pacedBlocks phase ws ++ tail

theorem Plan.Issues.isRow {p : Plan} {phase : Bool} {r : Register} {v : Byte} (h : p.Issues phase r v) :
    p.IsRow phase [(r, v)] := by
  obtain ⟨hrej, hret, tail, htail, hblocks⟩ := h
  exact ⟨hrej, hret, tail, htail,
    by rw [hblocks, pacedBlocks_singleton, List.append_assoc, List.singleton_append]⟩

theorem planClearCell_isRow {line pos : Nat} (hline : line = 1 ∨ line = 2) (hpos : pos ≤ 16) (phase : Bool) :
    (planClearCell line pos phase).IsRow phase [addressWrite line pos, (.data, 0x20)] := by
  rw [planClearCell, mapAddress_in_range hline hpos]
  exact ⟨rfl, rfl, [], .inl rfl, by rw [List.append_nil, ← clearBlocks_cell hline hpos]⟩

theorem planWriteAt_isRow {text : List Byte} {line pos : Nat} (hline : line = 1 ∨ line = 2) (hpos : pos ≤ 16)
    (htext : text.length ≤ 16 - pos) (cells : Nat) (phase : Bool) :
    (planWriteAt text line pos cells phase).IsRow phase (writeAtWrites text line pos cells) := by
  have hfits : ¬Config.cols - pos < text.length := by simp only [Config.cols]; omega
  rw [planWriteAt, mapAddress_in_range hline hpos]
  simp only [hfits, if_false]
  refine ⟨rfl, rfl, [], .inl rfl, ?_⟩
  rw [List.append_nil, writeAtWrites, pacedBlocks_append, pacedBlocks_append, ← clearRange_eq_paced hline,
    ← issueInstruction_cell hline hpos, ← textBlocks_eq_paced]

theorem acceptedText_clearCell {line pos : Nat} :
    AcceptedText (.clearCell line pos) = true ↔ (line = 1 ∨ line = 2) ∧ pos ≤ 16 := by
  simp [AcceptedText]

theorem acceptedText_writeAt {text : List Byte} {line pos cells : Nat} :
    AcceptedText (.writeAt text line pos cells) = true
      ↔ (line = 1 ∨ line = 2) ∧ pos ≤ 16 ∧ text.length ≤ 16 - pos := by
  simp [AcceptedText, and_assoc]

theorem acceptedText_writeLine {text : List Byte} {line : Nat} :
    AcceptedText (.writeLine text line) = true ↔ (line = 1 ∨ line = 2) ∧ text.length ≤ 16 := by
  simp [AcceptedText]

/-- An operation that makes paced writes runs them as a row. -/
theorem planOf_isRow {i : Instr} {ws : List (Register × Byte)} (h : pacedWrites i = some ws) (phase : Bool) :
    (planOf i phase).IsRow phase ws := by
  have hinstruction : ((encodeInstructionByte i).map fun v => [(Register.instruction, v)]) = some ws →
      (planOf i phase).IsRow phase ws := by
    intro h
    obtain ⟨v, hv, rfl⟩ := Option.map_eq_some_iff.1 h
    exact (planOf_issues_instruction hv phase).isRow
  cases i with
  | clearCell line pos =>
    obtain ⟨haccept, hws⟩ := Option.ite_none_right_eq_some.1 h
    obtain ⟨hline, hpos⟩ := acceptedText_clearCell.1 haccept
    exact Option.some.inj hws ▸ planClearCell_isRow hline hpos phase
  | writeAt text line pos cells =>
    obtain ⟨haccept, hws⟩ := Option.ite_none_right_eq_some.1 h
    obtain ⟨hline, hpos, htext⟩ := acceptedText_writeAt.1 haccept
    exact Option.some.inj hws ▸ planWriteAt_isRow hline hpos htext cells phase
  | writeLine text line =>
    obtain ⟨haccept, hws⟩ := Option.ite_none_right_eq_some.1 h
    obtain ⟨hline, htext⟩ := acceptedText_writeLine.1 haccept
    exact Option.some.inj hws ▸ planWriteAt_isRow hline (Nat.zero_le _) htext 16 phase
  | writeDataReg v =>
    obtain rfl := Option.some.inj h
    exact Plan.Issues.isRow ⟨rfl, rfl, [], .inl rfl, rfl⟩
  | clearDisplay => exact hinstruction h
  | returnHome => exact hinstruction h
  | setEntryMode i d => exact hinstruction h
  | displayControl d c b => exact hinstruction h
  | cursorDisplayShift d c => exact hinstruction h
  | functionSet l n f => exact hinstruction h
  | setCGRAMAddress a => exact hinstruction h
  | setDisplayDataAddress a => exact hinstruction h
  | _ => cases h

theorem pacedWrites_ne_nil {i : Instr} : pacedWrites i ≠ some [] := by
  intro h
  cases i with
  | clearCell line pos => cases (Option.ite_none_right_eq_some.1 h).2
  | writeAt text line pos cells =>
    have hws := Option.some.inj (Option.ite_none_right_eq_some.1 h).2
    simp [writeAtWrites] at hws
  | writeLine text line =>
    have hws := Option.some.inj (Option.ite_none_right_eq_some.1 h).2
    simp [writeAtWrites] at hws
  | _ => cases h

/-- A paced operation but `ReadDataReg`, and an accepted call of Text Positioning, makes paced writes. -/
theorem pacedWrites_isSome {i : Instr} (h : Paced i = true ∨ AcceptedText i = true) (hi : i ≠ .readDataReg) :
    (pacedWrites i).isSome := by
  cases i with
  | clearCell line pos => simp [pacedWrites, h.resolve_left (by simp [Paced])]
  | writeAt text line pos cells => simp [pacedWrites, h.resolve_left (by simp [Paced])]
  | writeLine text line => simp [pacedWrites, h.resolve_left (by simp [Paced])]
  | readDataReg => exact absurd rfl hi
  | isBusy => simp [Paced, AcceptedText] at h
  | readAddressCounter => simp [Paced, AcceptedText] at h
  | waitNotBusy => simp [Paced, AcceptedText] at h
  | writeLcd r v => simp [Paced, AcceptedText] at h
  | readLcd r => simp [Paced, AcceptedText] at h
  | configure d dir l => simp [Paced, AcceptedText] at h
  | mapAddress line col => simp [Paced, AcceptedText] at h
  | _ => rfl

theorem reachesBus_of_pacedWrites {i : Instr} (h : (pacedWrites i).isSome) : ReachesBus i = true := by
  cases i with
  | configure d dir l => cases h
  | mapAddress line col => cases h
  | _ => rfl

/-! ## The other operations -/

/-- The block transfers what a busy controller must not be sent: a command or a data access (20_memory.md R50). -/
def Block.Accesses : Block → Prop
  | .write _ _ | .read .data => True
  | .poll | .read .instruction | .setStartup => False

theorem planWriteAt_rejected {text : List Byte} {line pos : Nat} (cells : Nat) (phase : Bool)
    (h : ¬((line = 1 ∨ line = 2) ∧ pos ≤ 16 ∧ text.length ≤ 16 - pos)) :
    (planWriteAt text line pos cells phase).blocks = [] := by
  by_cases hrange : (line = 1 ∨ line = 2) ∧ pos ≤ 16
  · have hlong : Config.cols - pos < text.length := by simp only [Config.cols]; omega
    simp [planWriteAt, mapAddress_in_range hrange.1 hrange.2, hlong]
  · simp [planWriteAt, mapAddress_out_of_range hrange]

theorem rejected_of_no_writes {c : Prop} [Decidable c] {ws : List (Register × Byte)}
    (h : (if c then some ws else none) = none) : ¬c :=
  fun hc => Option.some_ne_none ws (ite_eq_right_iff.1 h hc)

/-- Where an operation makes no paced write and no paced read it runs at most one block, an access for a raw transfer
alone. -/
theorem planOf_of_not_paced {i : Instr} (h : pacedWrites i = none) (hi : i ≠ .readDataReg) (phase : Bool) :
    (planOf i phase).blocks = []
      ∨ ∃ bl, (planOf i phase).blocks = [bl] ∧ (bl.Accesses → IsTransfer i = true) := by
  cases i with
  | readDataReg => exact absurd rfl hi
  | isBusy => exact .inr ⟨.read .instruction, rfl, False.elim⟩
  | readAddressCounter => exact .inr ⟨.read .instruction, rfl, False.elim⟩
  | waitNotBusy => exact .inr ⟨.poll, rfl, False.elim⟩
  | writeLcd r v => exact .inr ⟨.write r v, rfl, fun _ => rfl⟩
  | readLcd r => exact .inr ⟨.read r, rfl, fun _ => rfl⟩
  | configure d dir l => exact .inl rfl
  | mapAddress line col => exact .inl rfl
  | clearCell line pos =>
    have hrange := mt acceptedText_clearCell.2 (rejected_of_no_writes h)
    exact .inl (by simp [planOf, planClearCell, mapAddress_out_of_range hrange])
  | writeAt text line pos cells =>
    exact .inl (planWriteAt_rejected cells phase (mt acceptedText_writeAt.2 (rejected_of_no_writes h)))
  | writeLine text line =>
    have hlong := mt acceptedText_writeLine.2 (rejected_of_no_writes h)
    exact .inl (planWriteAt_rejected 16 phase fun hfits => hlong ⟨hfits.1, hfits.2.2⟩)
  | _ => cases h

/-! ## Where the polls stand -/

/-- Operations that begin with a poll. -/
def PollsFirst (i : Instr) (phase : Bool) : Prop :=
  i = .waitNotBusy ∨ phase = true ∧ (Paced i = true ∨ AcceptedText i = true)

theorem planOf_pollsFirst {i : Instr} {phase : Bool} (h : PollsFirst i phase) :
    ReachesBus i = true ∧ (planOf i phase).rejected = none ∧ ∃ bls, (planOf i phase).blocks = .poll :: bls := by
  obtain rfl | ⟨rfl, h⟩ := h
  · exact ⟨rfl, rfl, [], rfl⟩
  by_cases hi : i = .readDataReg
  · subst hi
    exact ⟨rfl, rfl, [.read .data], rfl⟩
  · have hsome := pacedWrites_isSome h hi
    obtain ⟨ws, hws⟩ := Option.isSome_iff_exists.1 hsome
    obtain ⟨hrej, -, tail, -, hblocks⟩ := planOf_isRow hws true
    cases ws with
    | nil => exact absurd hws pacedWrites_ne_nil
    | cons w ws => exact ⟨reachesBus_of_pacedWrites hsome, hrej, _, by rw [hblocks, pacedBlocks_cons]; rfl⟩

theorem mem_pacedBlocks {phase : Bool} {ws : List (Register × Byte)} {bl : Block} (h : bl ∈ pacedBlocks phase ws) :
    bl = .poll ∨ ∃ r v, bl = .write r v := by
  obtain ⟨w, -, h⟩ := List.mem_flatMap.1 h
  cases phase with
  | false => exact .inr ⟨w.1, w.2, by simpa [pace] using h⟩
  | true =>
    have h : bl = .poll ∨ bl = .write w.1 w.2 := by simpa [pace] using h
    exact h.imp_right fun h => ⟨w.1, w.2, h⟩

/-- In front of a poll of the same operation there are polls and writes alone. -/
theorem before_poll {i : Instr} {phase : Bool} {k : Nat} {bl : Block} {bls : List Block}
    (h : (planOf i phase).blocks.drop k = bl :: bls) (hp : .poll ∈ bls) : bl = .poll ∨ ∃ r v, bl = .write r v := by
  have hsplit : (planOf i phase).blocks = (planOf i phase).blocks.take k ++ bl :: bls := by
    rw [← h, List.take_append_drop]
  have hmem : bl ∈ (planOf i phase).blocks.dropLast := by
    rw [hsplit, List.dropLast_append_of_ne_nil (List.cons_ne_nil _ _),
      List.dropLast_cons_of_ne_nil (List.ne_nil_of_mem hp)]
    simp
  cases hws : pacedWrites i with
  | some ws =>
    obtain ⟨-, -, tail, rfl | rfl, hblocks⟩ := planOf_isRow hws phase
    · rw [hblocks, List.append_nil] at hmem
      exact mem_pacedBlocks (List.dropLast_subset _ hmem)
    · rw [hblocks, List.dropLast_concat] at hmem
      exact mem_pacedBlocks hmem
  | none =>
    by_cases hi : i = .readDataReg
    · subst hi
      cases phase with
      | false => cases hmem
      | true => exact .inl (List.mem_singleton.1 hmem)
    · obtain hblocks | ⟨c, hblocks, -⟩ := planOf_of_not_paced hws hi phase <;> rw [hblocks] at hmem <;> cases hmem

/-- An access comes right after a poll. -/
def Gated (bl next : Block) : Prop := next.Accesses → bl = .poll

theorem pacedBlocks_gated {tail : List Block} (htail : tail = [] ∨ tail = [.setStartup]) :
    ∀ ws : List (Register × Byte), (∀ bl ∈ (pacedBlocks true ws ++ tail).head?, ¬bl.Accesses)
      ∧ (pacedBlocks true ws ++ tail).IsChain Gated
  | [] => by obtain rfl | rfl := htail <;> simp [Block.Accesses]
  | w :: ws => by
    obtain ⟨hhead, hchain⟩ := pacedBlocks_gated htail ws
    have hcons : pacedBlocks true (w :: ws) ++ tail
        = .poll :: .write w.1 w.2 :: (pacedBlocks true ws ++ tail) := by
      rw [pacedBlocks_cons]; rfl
    rw [hcons]
    refine ⟨by simp [Block.Accesses], List.isChain_cons_cons.2 ⟨fun _ => rfl, List.isChain_cons.2 ⟨?_, hchain⟩⟩⟩
    exact fun bl hbl haccess => absurd haccess (hhead bl hbl)

/-- In phase 1 every operation but a raw transfer has each of its accesses behind a poll (41_busy_sync.md R76). -/
theorem planOf_gated {i : Instr} (hi : IsTransfer i = false) :
    (∀ bl ∈ (planOf i true).blocks.head?, ¬bl.Accesses) ∧ (planOf i true).blocks.IsChain Gated := by
  cases hws : pacedWrites i with
  | some ws =>
    obtain ⟨-, -, tail, htail, hblocks⟩ := planOf_isRow hws true
    rw [hblocks]
    exact pacedBlocks_gated htail ws
  | none =>
    by_cases hread : i = .readDataReg
    · subst hread
      refine ⟨by simp [planOf, planReadDataReg, pace, Block.Accesses], ?_⟩
      exact List.isChain_pair.2 fun _ => rfl
    · obtain hblocks | ⟨bl, hblocks, hbl⟩ := planOf_of_not_paced hws hread true <;> rw [hblocks]
      · simp
      · refine ⟨fun c hc haccess => ?_, List.isChain_singleton _⟩
        obtain rfl : bl = c := by simpa using hc
        rw [hbl haccess] at hi
        cases hi

end Sys2Proof.Machine
end

section
/-! SUPPORT. Polls on any controller: one status read, a row of reads that see the controller busy, a poll that is over,
and the steps of the machine that make them (41_busy_sync.md R74, R77). -/

namespace Sys2Proof.Machine

/-! ## One status read -/

/-- The status read of a poll from `s` senses `sb` and leaves `t`, whatever was sensed before. -/
def StatusRead (b : Bindings) (s : State) (sb : Byte) (t : State) : Prop :=
  ∀ sb₀, microSteps b (Block.poll.micros s.timing) sb₀ s = .next (sb, t)

section
variable {b : Bindings} {s t : State} {sb : Byte}

theorem statusRead_of_read (he : s.pins.e = false) {sb₀ : Byte}
    (h : microSteps b (readMicros s.timing .instruction) sb₀ s = .next (sb, t)) : StatusRead b s sb t := by
  intro sb₁
  rw [← h, Block.micros, microSteps_read _ _ _ he, microSteps_read _ _ _ he]

theorem statusRead_completes (b : Bindings) (he : s.pins.e = false) : ∃ sb t, StatusRead b s sb t := by
  obtain ⟨sb, t, h, -⟩ := read_completes (b := b) (r := .instruction) 0 he (answers_status s)
  exact ⟨sb, t, statusRead_of_read he h⟩

theorem StatusRead.done (h : StatusRead b s sb t) : ReadDone b .instruction sb s t :=
  read_done (block_found_low (by simp) (h 0)) (h 0)

theorem StatusRead.enableLow (h : StatusRead b s sb t) : t.pins.e = false := by
  rw [h.done.pins]; rfl

/-- Under the oracle it senses what the bus carries when the sample is taken. -/
theorem StatusRead.sensed (h : StatusRead b s sb t) (ho : s.UnderOracle) :
    sb = (s.raisedForRead b s.timing .instruction).draws.sensed := by
  have he : s.pins.e = false := block_found_low (by simp) (h 0)
  have hread := h 0
  have hm : (s.raisedForRead b s.timing .instruction).lcd.model = .oracle := ho
  rw [Block.micros, microSteps_read _ _ _ he, State.lcdSupplies, hm] at hread
  injection hread with hread
  injection hread with hv
  exact hv.symm

/-- What it senses depends on the controller and the draws alone. -/
theorem StatusRead.byte_eq {s' t' : State} {sb' : Byte} (h : StatusRead b s sb t) (h' : StatusRead b s' sb' t')
    (hlcd : s'.lcd = s.lcd) (hdraws : s'.draws = s.draws) : sb' = sb := by
  cases hm : s.lcd.model with
  | oracle =>
    rw [h.sensed hm, h'.sensed (by rw [State.UnderOracle, hlcd, hm])]
    simp [State.raisedForRead, hdraws]
  | reference L =>
    rw [(h.done.status L hm rfl).1, (h'.done.status L (by rw [hlcd, hm]) rfl).1]

end

/-! ## A row of reads that see the controller busy -/

/-- From `s` on, a poll of block `k` of operation `i` reads `bytes`, each with bit 7 = 1, and waits after them in
`t`. -/
inductive Waited (b : Bindings) (i : Instr) (k : Nat) : State → List Byte → State → Prop where
  | none (s : State) : Waited b i k s [] s
  | read {s u t : State} {sb : Byte} {bytes : List Byte} (hread : StatusRead b s sb u) (hbusy : busyFlag sb = true)
      (hrest : Waited b i k { u with seq := .at i k } bytes t) : Waited b i k s (sb :: bytes) t

/-- What a row of such reads leaves. -/
structure WaitDone (i : Instr) (k : Nat) (bytes : List Byte) (s t : State) : Prop where
  events : t.events = s.events ++ bytes.flatMap (readEvents s.timing .instruction)
  busy : ∀ x ∈ bytes, busyFlag x = true
  enableLow : s.pins.e = false → t.pins.e = false
  latch : t.pins.dbOut = s.pins.dbOut
  handle : t.handle = s.handle
  timing : t.timing = s.timing
  calls : t.calls = s.calls
  reply : t.reply = s.reply
  seq : bytes ≠ [] → t.seq = .at i k
  oracle : s.UnderOracle → t.UnderOracle

section
variable {b : Bindings} {i : Instr} {k : Nat} {s t : State} {bytes : List Byte}

theorem Waited.done (h : Waited b i k s bytes t) : WaitDone i k bytes s t := by
  induction h with
  | none s => exact ⟨by simp, by simp, id, rfl, rfl, rfl, rfl, rfl, fun h => absurd rfl h, id⟩
  | @read s u t sb bytes hread hbusy hrest ih =>
    have hd := hread.done
    refine ⟨?_, List.forall_mem_cons.2 ⟨hbusy, ih.busy⟩, fun _ => ih.enableLow hread.enableLow, ?_,
      ih.handle.trans hd.handle, ih.timing.trans hd.timing, ih.calls.trans hd.calls, ih.reply.trans hd.reply,
      fun _ => ?_, fun ho => ih.oracle (hd.oracle ho).1⟩
    · rw [ih.events, List.flatMap_cons, ← List.append_assoc, ← hd.events, ← hd.timing]
      rfl
    · rw [ih.latch, hd.pins]
      rfl
    · cases hrest with
      | none => rfl
      | read => exact ih.seq (by simp)

/-- Under the oracle the bytes are those the bus carries. -/
theorem waited_of_senses : ∀ {bytes rest : List Byte} {s : State}, s.pins.e = false → s.UnderOracle →
    s.draws.senses = bytes ++ rest → (∀ x ∈ bytes, busyFlag x = true) →
    ∃ t, Waited b i k s bytes t ∧ t.UnderOracle ∧ t.draws.senses = rest
  | [], _, s, _, ho, hs, _ => ⟨s, .none s, ho, hs⟩
  | x :: bytes, rest, s, he, ho, hs, hbusy => by
    obtain ⟨sb, u, hread⟩ := statusRead_completes b he
    obtain ⟨hou, -, hsenses⟩ := hread.done.oracle ho
    obtain ⟨rfl, hu⟩ := hsenses x _ hs
    obtain ⟨hx, hbusy⟩ := List.forall_mem_cons.1 hbusy
    obtain ⟨t, ht, hot, hrest⟩ :=
      waited_of_senses (s := { u with seq := .at i k }) hread.enableLow hou hu hbusy
    exact ⟨t, .read hread hx ht, hot, hrest⟩

/-- A read that finds the responder busy. -/
theorem statusRead_of_processing {L : Responder} (h : busyNow L.busy = true) (he : s.pins.e = false)
    (hm : s.lcd.model = .reference L) :
    ∃ t, StatusRead b s (1#1 ++ L.ac) t ∧ busyFlag (1#1 ++ L.ac) = true ∧ t.lcd.model = .reference L.afterStatus
      ∧ t.draws.busy = s.draws.busy := by
  obtain ⟨sb, t, hread⟩ := statusRead_completes b he
  obtain ⟨rfl, hmt, hdraws, -⟩ := hread.done.status L hm rfl
  have hflag := statusByte_busyFlag L
  rw [h] at hflag
  rw [statusByte_of_busy h] at hread hflag
  exact ⟨t, hread, hflag, hmt, hdraws⟩

/-- In front of the responder each read takes one off its busy count. -/
theorem waited_of_polls {n : Nat} : ∀ (m : Nat) {L : Responder} {s : State}, s.pins.e = false →
    s.lcd.model = .reference L → L.busy = .polls (m + n) →
    ∃ t, Waited b i k s (List.replicate m (1#1 ++ L.ac)) t ∧ t.lcd.model = .reference (L.withBusy (.polls n))
      ∧ t.draws.busy = s.draws.busy
  | 0, L, s, _, hm, hL => ⟨s, .none s, by rw [hm, Responder.withBusy, ← Nat.zero_add n, ← hL], rfl⟩
  | m + 1, L, s, he, hm, hL => by
    obtain ⟨u, hread, hflag, hmu, hdraws⟩ :=
      statusRead_of_processing (b := b) (by rw [hL, Nat.add_right_comm]; rfl) he hm
    have hcount : m + 1 + n - 1 = m + n := by omega
    rw [afterStatus_polls hL, hcount] at hmu
    obtain ⟨t, ht, hmt, hdrawst⟩ := waited_of_polls (s := { u with seq := .at i k }) m hread.enableLow hmu rfl
    exact ⟨t, .read hread hflag ht, hmt, hdrawst.trans hdraws⟩

/-- A responder that never clears its flag is seen busy any number of times. -/
theorem waited_of_stuck {L : Responder} (hL : L.busy = .forever) : ∀ {bytes : List Byte} {s : State},
    s.pins.e = false → s.lcd.model = .reference L → (∀ x ∈ bytes, x = 1#1 ++ L.ac) →
    ∃ t, Waited b i k s bytes t ∧ t.lcd.model = .reference L
  | [], s, _, hm, _ => ⟨s, .none s, hm⟩
  | x :: bytes, s, he, hm, hbytes => by
    obtain ⟨rfl, htail⟩ := List.forall_mem_cons.1 hbytes
    obtain ⟨u, hread, hflag, hmu, -⟩ := statusRead_of_processing (b := b) (by rw [hL]; rfl) he hm
    have hsame : L.afterStatus = L := by rw [Responder.afterStatus, hL, afterPoll, ← hL]
    rw [hsame] at hmu
    obtain ⟨t, ht, hmt⟩ := waited_of_stuck hL (s := { u with seq := .at i k }) hread.enableLow hmu htail
    exact ⟨t, .read hread hflag ht, hmt⟩

end

/-! ## A poll that is over -/

/-- A poll of block `k` of operation `i` from `s` on reads `busy`, each with bit 7 = 1, then `sb` with bit 7 = 0, and is
over in `t`. -/
def Polled (b : Bindings) (i : Instr) (k : Nat) (s : State) (busy : List Byte) (sb : Byte) (t : State) : Prop :=
  ∃ u, Waited b i k s busy u ∧ StatusRead b u sb t ∧ busyFlag sb = false

/-- What a poll that is over leaves. -/
structure PollDone (busy : List Byte) (sb : Byte) (s t : State) : Prop where
  events : t.events = s.events ++ (busy ++ [sb]).flatMap (readEvents s.timing .instruction)
  busy : ∀ x ∈ busy, busyFlag x = true
  free : busyFlag sb = false
  pins : t.pins = idleAfterRead .instruction s.pins
  handle : t.handle = s.handle
  timing : t.timing = s.timing
  calls : t.calls = s.calls
  reply : t.reply = s.reply
  oracle : s.UnderOracle → t.UnderOracle

section
variable {b : Bindings} {i : Instr} {k : Nat} {s t : State} {busy : List Byte} {sb : Byte}

theorem Polled.done (h : Polled b i k s busy sb t) : PollDone busy sb s t := by
  obtain ⟨u, hwait, hread, hfree⟩ := h
  obtain ⟨hevents, hbusy, -, hlatch, hhandle, htiming, hcalls, hreply, -, horacle⟩ := hwait.done
  have hd := hread.done
  refine ⟨?_, hbusy, hfree, ?_, hd.handle.trans hhandle, hd.timing.trans htiming, hd.calls.trans hcalls,
    hd.reply.trans hreply, fun ho => (hd.oracle (horacle ho)).1⟩
  · rw [hd.events, hevents, htiming]
    simp
  · rw [hd.pins, idleAfterRead, idleAfterRead, hlatch]

theorem Polled.enableLow (h : Polled b i k s busy sb t) : t.pins.e = false := by
  rw [h.done.pins]; rfl

theorem Polled.wait {u : State} {x : Byte} (hread : StatusRead b s x u) (hx : busyFlag x = true)
    (h : Polled b i k { u with seq := .at i k } busy sb t) : Polled b i k s (x :: busy) sb t := by
  obtain ⟨v, hwait, h⟩ := h
  exact ⟨v, .read hread hx hwait, h⟩

theorem polled_of_senses {rest : List Byte} (he : s.pins.e = false) (ho : s.UnderOracle)
    (hs : s.draws.senses = busy ++ sb :: rest) (hbusy : ∀ x ∈ busy, busyFlag x = true) (hfree : busyFlag sb = false) :
    ∃ t, Polled b i k s busy sb t ∧ t.UnderOracle ∧ t.draws.senses = rest := by
  obtain ⟨u, hwait, hou, hu⟩ := waited_of_senses (b := b) (i := i) (k := k) he ho hs hbusy
  obtain ⟨c, t, hread⟩ := statusRead_completes b (hwait.done.enableLow he)
  obtain ⟨hot, -, hsenses⟩ := hread.done.oracle hou
  obtain ⟨rfl, ht⟩ := hsenses _ _ hu
  exact ⟨t, ⟨u, hwait, hread, hfree⟩, hot, ht⟩

/-- Under the oracle the bytes sensed are the next ones the bus carries, up to the first with bit 7 = 0. -/
theorem Waited.senses {u : State} {bytes : List Byte} (h : Waited b i k s bytes u) {rest : List Byte}
    (hfree : busyFlag sb = false) : ∀ {busy : List Byte}, s.UnderOracle → s.draws.senses = busy ++ sb :: rest →
      ∃ more, busy = bytes ++ more ∧ u.draws.senses = more ++ sb :: rest := by
  induction h with
  | none s => exact fun {busy} _ hs => ⟨busy, rfl, hs⟩
  | @read s v u c bytes hread hbusy hrest ih =>
    intro busy ho hs
    obtain ⟨hov, -, hsenses⟩ := hread.done.oracle ho
    cases busy with
    | nil =>
      obtain ⟨rfl, -⟩ := hsenses _ _ hs
      rw [hfree] at hbusy
      cases hbusy
    | cons x busy =>
      obtain ⟨rfl, hv⟩ := hsenses _ _ hs
      obtain ⟨more, rfl, hu⟩ := ih hov hv
      exact ⟨more, rfl, hu⟩

theorem Polled.senses {busy' rest : List Byte} {sb' : Byte} (h : Polled b i k s busy' sb' t) (ho : s.UnderOracle)
    (hs : s.draws.senses = busy ++ sb :: rest) (hbusy : ∀ x ∈ busy, busyFlag x = true) (hfree : busyFlag sb = false) :
    busy' = busy ∧ sb' = sb ∧ t.draws.senses = rest := by
  obtain ⟨u, hwait, hread, hfree'⟩ := h
  obtain ⟨more, rfl, hu⟩ := hwait.senses hfree ho hs
  obtain ⟨-, -, hsenses⟩ := hread.done.oracle (hwait.done.oracle ho)
  cases more with
  | nil =>
    obtain ⟨rfl, ht⟩ := hsenses _ _ hu
    exact ⟨(List.append_nil _).symm, rfl, ht⟩
  | cons x more =>
    obtain ⟨rfl, -⟩ := hsenses _ _ hu
    rw [hbusy sb' (by simp)] at hfree'
    cases hfree'

theorem polled_of_polls {L : Responder} {n : Nat} (he : s.pins.e = false) (hm : s.lcd.model = .reference L)
    (hL : L.busy = .polls n) :
    ∃ busy sb t, Polled b i k s busy sb t ∧ t.lcd.model = .reference (L.withBusy (.polls 0))
      ∧ t.draws.busy = s.draws.busy := by
  obtain ⟨u, hwait, hmu, hdraws⟩ := waited_of_polls (b := b) (i := i) (k := k) (n := 0) n he hm hL
  obtain ⟨sb, t, hread⟩ := statusRead_completes b (hwait.done.enableLow he)
  obtain ⟨rfl, hmt, hdrawst, -⟩ := hread.done.status _ hmu rfl
  exact ⟨_, _, t, ⟨u, hwait, hread, by rw [statusByte_busyFlag]; rfl⟩, hmt, hdrawst.trans hdraws⟩

end

/-! ## The steps of an operation -/

theorem run_one (s : State) : Host.Core.run core 1 s = step s := by
  have hcore : core.step s = step s := rfl
  simp only [Host.Core.run, hcore]
  cases step s <;> rfl

/-- A run goes on from where it has come to. -/
theorem run_add {n : Nat} : ∀ {m : Nat} {s t : State}, Host.Core.run core m s = .next t →
    Host.Core.run core (m + n) s = Host.Core.run core n t
  | 0, s, t, h => by
    injection h with h
    rw [h, Nat.zero_add]
  | m + 1, s, t, h => by
    cases hstep : step s with
    | next u =>
      rw [run_next hstep] at h
      rw [Nat.add_right_comm, run_next hstep, run_add h]
    | fault f =>
      have hstep' : core.step s = .fault f := hstep
      simp only [Host.Core.run, hstep'] at h
      cases h
    | refused r =>
      have hstep' : core.step s = .refused r := hstep
      simp only [Host.Core.run, hstep'] at h
      cases h

/-- The step from `p` runs the blocks `bls`, from block `k` on, out of `s`: an operation just issued, or one that went
on from a poll, with what it has done in this step. -/
structure Doing (b : Bindings) (i : Instr) (x : Extract) (k : Nat) (bls : List Block) (p : State) (sb : Byte)
    (s : State) : Prop where
  step : step p = runBlocks b i x k bls sb s
  plan : .poll ∈ bls → (planOf i s.handle.startupComplete).blocks.drop k = bls
    ∧ (planOf i s.handle.startupComplete).returns = x
  configured : s.ConfiguredWith b
  enableLow : s.pins.e = false
  reply : s.reply = none

section
variable {b : Bindings} {i : Instr} {x : Extract} {k : Nat} {bls : List Block} {p s t : State} {sb sb' : Byte}

theorem doing_of_call {calls : List Call} (hclean : s.CleanEntry) (hconf : s.ConfiguredWith b)
    (hi : ReachesBus i = true) (hrej : (planOf i s.handle.startupComplete).rejected = none)
    (hc : s.calls = .op i :: calls) :
    Doing b i (planOf i s.handle.startupComplete).returns 0 (planOf i s.handle.startupComplete).blocks s 0
      { s with calls := calls, reply := none } :=
  ⟨step_runs hclean.1 hconf hi hrej hc, fun _ => ⟨rfl, rfl⟩, hconf, hclean.2, rfl⟩

theorem doing_of_at (hq : s.seq = .at i k) (hconf : s.ConfiguredWith b) (he : s.pins.e = false) :
    Doing b i (planOf i s.handle.startupComplete).returns k ((planOf i s.handle.startupComplete).blocks.drop k) s 0
      { s with reply := none } :=
  ⟨step_goes_on hq hconf, fun _ => ⟨rfl, rfl⟩, hconf, he, rfl⟩

/-- A read that sees the controller busy ends the step. -/
theorem Doing.waits (h : Doing b i x k (.poll :: bls) p sb s) (hread : StatusRead b s sb' t)
    (hbusy : busyFlag sb' = true) :
    Machine.step p = .next { t with seq := .at i k }
      ∧ Doing b i x k (.poll :: bls) { t with seq := .at i k } 0 { t with seq := .at i k } := by
  have hd := hread.done
  obtain ⟨hplan, hret⟩ := h.plan (List.mem_cons_self ..)
  have hconf : State.ConfiguredWith { t with seq := .at i k } b := by
    simpa only [State.ConfiguredWith, hd.handle] using h.configured
  have hreply : { t with seq := .at i k, reply := none } = { t with seq := .at i k } := by
    rw [← hd.reply.trans h.reply]
  have hdoing := doing_of_at (s := { t with seq := .at i k }) rfl hconf hread.enableLow
  rw [hreply] at hdoing
  have hphase : t.handle.startupComplete = s.handle.startupComplete := by rw [hd.handle]
  simp only [hphase, hplan, hret] at hdoing
  exact ⟨h.step.trans (runBlocks_poll_busy (hread sb) hbusy), hdoing⟩

/-- A row of them is as many steps. -/
theorem Doing.waited {bytes : List Byte} (hw : Waited b i k s bytes t) :
    ∀ {p : State} {sb : Byte}, Doing b i x k (.poll :: bls) p sb s →
      ∃ p' sb', Host.Core.run core bytes.length p = .next p' ∧ Doing b i x k (.poll :: bls) p' sb' t
        ∧ (bytes ≠ [] → p' = t) := by
  induction hw with
  | none s => exact fun {p sb} h => ⟨p, sb, rfl, h, fun h => absurd rfl h⟩
  | @read s u t c bytes hread hbusy hrest ih =>
    intro p sb h
    obtain ⟨hstep, hdoing⟩ := h.waits hread hbusy
    obtain ⟨p', sb', hrun, h', heq⟩ := ih hdoing
    refine ⟨p', sb', (run_next hstep).trans hrun, h', fun _ => ?_⟩
    cases hrest with
    | none =>
      injection hrun with hrun
      exact hrun.symm
    | read => exact heq (by simp)

/-- The step goes on with what the blocks before have left. -/
theorem Doing.next {bl : Block} (h : Doing b i x k (bl :: bls) p sb s)
    (hbl : microSteps b (bl.micros s.timing) sb s = .next (sb', t)) (hp : bl = .poll → busyFlag sb' = false)
    (hplan : .poll ∈ bls → t.handle = s.handle) : Doing b i x (k + 1) bls p sb' t := by
  obtain ⟨hconf, hbind, -, -, hreply, -⟩ := microSteps_holds hbl
  refine ⟨h.step.trans (runBlocks_cons_next hbl hp), fun hmem => ?_, ⟨hconf.trans h.configured.1,
    hbind.trans h.configured.2⟩, block_leaves_low h.enableLow hbl, hreply.trans h.reply⟩
  obtain ⟨hdrop, hret⟩ := h.plan (List.mem_cons_of_mem _ hmem)
  rw [hplan hmem]
  exact ⟨by rw [← List.drop_drop, hdrop, List.drop_one, List.tail_cons], hret⟩

/-- A poll that is over is as many steps as it saw the controller busy, and the next one runs the blocks after it. -/
theorem Doing.polled {busy : List Byte} (h : Doing b i x k (.poll :: bls) p sb s) (hp : Polled b i k s busy sb' t) :
    ∃ p', Host.Core.run core busy.length p = .next p' ∧ Doing b i x (k + 1) bls p' sb' t := by
  obtain ⟨u, hwait, hread, hfree⟩ := hp
  obtain ⟨p', c, hrun, hdoing, -⟩ := Doing.waited hwait h
  exact ⟨p', hrun, hdoing.next (hread c) (fun _ => hfree) (fun _ => hread.done.handle)⟩

end

end Sys2Proof.Machine
end

section
/-! PROOF. The statements about the busy-flag synchronizer (41_busy_sync.md): `IsBusy`, polls that wait, that hang and
that end, what never reaches a busy responder, and the phase. -/

namespace Sys2Proof.Machine

theorem drop_of_getElem? {bls : List Block} {k : Nat} {bl : Block} (h : bls[k]? = some bl) :
    bls.drop k = bl :: bls.drop (k + 1) := by
  obtain ⟨hk, rfl⟩ := List.getElem?_eq_some_iff.1 h
  exact List.drop_eq_getElem_cons hk

/-- Settles O58: going on runs the poll, which finds the responder busy and leaves it as it is. -/
theorem stuckOperationStaysStuck : Obligations.StuckOperationStaysStuck := by
  intro i k L s hs
  obtain ⟨b, hb⟩ := Option.ne_none_iff_exists'.1 hs.bound
  have hdoing := doing_of_at hs.position ⟨hs.configured, hb⟩ hs.enableLow
  rw [drop_of_getElem? hs.poll] at hdoing
  obtain ⟨t, hread, hflag, hmodel, -⟩ := statusRead_of_processing (b := b) (s := { s with reply := none })
    (by rw [hs.stuck]; rfl) hs.enableLow hs.controller
  have hsame : L.afterStatus = L := by rw [Responder.afterStatus, hs.stuck, afterPoll, ← hs.stuck]
  obtain ⟨hstep, -⟩ := hdoing.waits hread hflag
  have hd := hread.done
  have hhandle : t.handle = s.handle := hd.handle
  refine ⟨_, hstep, ⟨rfl, ?_, ?_, ?_, hread.enableLow, hmodel.trans (by rw [hsame]), hs.stuck⟩, hd.events, hhandle,
    hd.calls, hd.reply, (congrArg Pins.dbOut hd.pins).trans rfl⟩
  · simpa only [hhandle] using hs.poll
  · simpa only [hhandle] using hs.configured
  · simpa only [hhandle] using hs.bound

/-- Settles O14: the operation is one status read, and the value returned is bit 7 of the byte it sensed. -/
theorem isBusyReportsBit7 : Obligations.IsBusyReportsBit7 := by
  refine ⟨fun b s hclean hconf => ?_, fun s hq hc => exec_unconfigured rfl hq hc⟩
  obtain ⟨sb, t, ht, hd⟩ := read_completes (b := b) (s := { s with reply := none }) 0 hclean.2 (answers_status _)
  have hexec : exec .isBusy s = runBlocks b .isBusy .busyBit 0 [.read .instruction] 0 { s with reply := none } :=
    operate_runs hclean.1 hconf rfl
  rw [runBlocks_last (bl := .read .instruction) ht (by simp)] at hexec
  exact ⟨sb, _, hexec, hd.events, rfl, hd.pins, hd.handle, rfl, hd.timing, hd.calls,
    fun x xs ho hx => ((hd.oracle ho).2.2 x xs hx).1⟩

/-- Settles O15: the poll reads the bytes the bus carries, one step for each that waits, and is the operation's only
block. -/
theorem waitNotBusyPollsUntilClear : Obligations.WaitNotBusyPollsUntilClear := by
  refine ⟨fun b s sb rest hclean hconf ho hsenses hfree => ?_,
    fun b s busy sb rest calls hclean hconf ho hcalls hsenses hbusy hfree => ?_⟩
  · obtain ⟨sb', t, hread⟩ := statusRead_completes (s := { s with reply := none }) b hclean.2
    have hd := hread.done
    obtain ⟨rfl, -⟩ := (hd.oracle ho).2.2 sb rest hsenses
    have hexec : exec .waitNotBusy s = runBlocks b .waitNotBusy .nothing 0 [.poll] 0 { s with reply := none } :=
      operate_runs hclean.1 hconf rfl
    rw [runBlocks_cons_next (hread 0) (fun _ => hfree)] at hexec
    exact ⟨_, hexec, hd.events, rfl, rfl, hd.pins, hd.handle⟩
  · have hdoing := doing_of_call (i := .waitNotBusy) hclean hconf rfl rfl hcalls
    obtain ⟨t, hpolled, -, -⟩ := polled_of_senses (b := b) (i := .waitNotBusy) (k := 0)
      (s := { s with calls := calls, reply := none }) hclean.2 ho hsenses hbusy hfree
    obtain ⟨p, hrun, hend⟩ := Doing.polled (bls := []) hdoing hpolled
    have hd := hpolled.done
    refine ⟨t.finish .nothing, ?_, hd.events, rfl, rfl, hd.pins, hd.handle, hd.calls⟩
    rw [run_add hrun, run_next hend.step]
    rfl

/-- Settles O16: the operation's first block is the poll, issued or gone on with, and the one read ends the step. -/
theorem pacedOperationsWaitWhileBusy : Obligations.PacedOperationsWaitWhileBusy := by
  intro i b s sb rest hi he hconf ho hphase hsenses hbusy
  obtain ⟨hreach, hrej, bls, hblocks⟩ := planOf_pollsFirst (.inr ⟨hphase, .inl hi⟩)
  obtain ⟨sb', u, hread⟩ := statusRead_completes (s := { s with reply := none }) b he
  have hd := hread.done
  obtain ⟨rfl, hrest⟩ := (hd.oracle ho).2.2 sb rest hsenses
  refine ⟨{ u with seq := .at i 0 }, fun hq => ?_, fun hq => ?_, hd.events, rfl, hd.handle, hd.pins, hd.reply, hd.calls,
    hrest⟩
  · rw [exec_eq_operate hreach, operate_runs hq hconf hrej, hblocks]
    exact runBlocks_poll_busy (hread 0) hbusy
  · rw [step_goes_on hq hconf, List.drop_zero, hblocks]
    exact runBlocks_poll_busy (hread 0) hbusy

/-- Settles O17: the operation's first block is a poll, and the controller presents one busy read after another
to it. -/
theorem stuckBusyFlagHangs : Obligations.StuckBusyFlagHangs := by
  intro i b s calls c cs hi hclean hconf hcalls hbusy
  obtain ⟨hreach, hrej, bls, hblocks⟩ := planOf_pollsFirst hi
  have hdoing := doing_of_call hclean hconf hreach hrej hcalls
  rw [hblocks] at hdoing
  obtain ⟨t, hwait⟩ : ∃ t, Waited b i 0 { s with calls := calls, reply := none } (c :: cs) t := by
    obtain ⟨hflags, ⟨ho, rest, hsenses⟩ | ⟨L, hm, hL, hbytes⟩⟩ := hbusy
    · obtain ⟨t, hwait, -⟩ := waited_of_senses (b := b) (i := i) (k := 0)
        (s := { s with calls := calls, reply := none }) hclean.2 ho hsenses hflags
      exact ⟨t, hwait⟩
    · obtain ⟨t, hwait, -⟩ := waited_of_stuck (b := b) (i := i) (k := 0) hL
        (s := { s with calls := calls, reply := none }) hclean.2 hm hbytes
      exact ⟨t, hwait⟩
  obtain ⟨p, -, hrun, -, hp⟩ := Doing.waited hwait hdoing
  obtain ⟨hevents, -, -, hlatch, hhandle, -, htcalls, hreply, hseq, -⟩ := hwait.done
  obtain rfl := hp (by simp)
  exact ⟨p, hrun, hseq (by simp), hevents, hhandle, htcalls, hreply, hlatch⟩

/-! ## No violation in phase 1 -/

/-- A block that is no access, or finds the responder free, records nothing; and a poll that sees it free leaves it
free. -/
theorem block_violated {b : Bindings} {bl : Block} {sb sb' : Byte} {s t : State} {L : Responder}
    (h : microSteps b (bl.micros s.timing) sb s = .next (sb', t)) (hm : s.lcd.model = .reference L)
    (hfree : bl.Accesses → busyNow L.busy = false) :
    ∃ L', t.lcd.model = .reference L' ∧ L'.violated = L.violated
      ∧ (bl = .poll → busyFlag sb' = false → busyNow L'.busy = false) := by
  obtain ⟨r, v, rfl, hd⟩ | ⟨r, hbl, hd⟩ | ⟨rfl, rfl⟩ := block_cases h
  · obtain ⟨L', d, hm', hacc, -⟩ := hd.responder L hm
    refine ⟨L', hm', ?_, fun hbl => by cases hbl⟩
    rw [(accept_keeps hacc).2.2, hfree trivial, Bool.or_false]
  · cases r with
    | data =>
      obtain rfl : bl = .read .data := hbl.resolve_right (fun hbl => by cases hbl.2)
      obtain ⟨L', d, hm', hsupply, -⟩ := hd.data L hm rfl
      obtain ⟨-, rfl⟩ := supply_cases hsupply
      exact ⟨_, hm', by simp [hfree trivial], fun hbl => by cases hbl⟩
    | instruction =>
      obtain ⟨rfl, hm', -, -⟩ := hd.status L hm rfl
      refine ⟨_, hm', rfl, fun _ hflag => ?_⟩
      rw [statusByte_busyFlag] at hflag
      rw [Responder.afterStatus, busyNow_eq_false.1 hflag]
      rfl
  · exact ⟨L, hm, rfl, fun hbl => by cases hbl⟩

/-- Blocks whose accesses each come behind a poll record no arrival while busy (20_memory.md R50). -/
theorem runBlocks_violated {b : Bindings} {i : Instr} {x : Extract} :
    ∀ (bls : List Block) (k : Nat) (sb : Byte) (s t : State) (L : Responder), bls.IsChain Gated →
      s.lcd.model = .reference L → (∀ bl ∈ bls.head?, bl.Accesses → busyNow L.busy = false) →
      runBlocks b i x k bls sb s = .next t → ∃ L', t.lcd.model = .reference L' ∧ L'.violated = L.violated
  | [], _, _, _, _, L, _, hm, _, h => by
    injection h with h
    exact ⟨L, h ▸ hm, rfl⟩
  | bl :: bls, k, sb, s, t, L, hchain, hm, hhead, h => by
    obtain ⟨sb', u, hu, hcase⟩ := runBlocks_cons_cases h
    obtain ⟨L', hm', hviolated, hfree⟩ := block_violated hu hm (hhead bl rfl)
    obtain ⟨hnext, hchain⟩ := List.isChain_cons.1 hchain
    obtain ⟨-, -, rfl⟩ | ⟨hgo, hrest⟩ := hcase
    · exact ⟨L', hm', hviolated⟩
    · have hfree' : ∀ c ∈ bls.head?, c.Accesses → busyNow L'.busy = false := by
        intro c hc haccess
        have hpoll := hnext c hc haccess
        exact hfree hpoll (by simpa [hpoll] using hgo)
      obtain ⟨M, hM, hMv⟩ := runBlocks_violated bls (k + 1) sb' u t L' hchain hm' hfree' hrest
      exact ⟨M, hM, hMv.trans hviolated⟩

/-- Settles O19: in phase 1 each access of such a plan comes behind a poll, from its first block on and from a poll
on. -/
theorem pacedOperationsNeverViolate : Obligations.PacedOperationsNeverViolate := by
  intro i s t L hi hphase hm h
  obtain ⟨hhead, hchain⟩ := planOf_gated hi
  obtain h | ⟨k, hq, hpoll, h⟩ := h
  · obtain ⟨-, ⟨r, rfl⟩ | ⟨d, dir, l, -, -, -, rfl⟩ | ⟨-, -, -, b, -, hr⟩⟩ := exec_cases h
    · exact ⟨L, hm, rfl⟩
    · exact ⟨L, hm, rfl⟩
    · rw [hphase] at hr
      exact runBlocks_violated _ 0 0 { s with reply := none } t L hchain hm
        (fun bl hbl haccess => absurd haccess (hhead bl hbl)) hr
  · have hstep : step s = resume i (planOf i s.handle.startupComplete) k s := by simp only [step, hq]
    rw [hstep, hphase] at h
    obtain ⟨-, rfl⟩ | ⟨-, b, -, hr⟩ := resume_cases h
    · exact ⟨L, hm, rfl⟩
    · refine runBlocks_violated _ k 0 { s with reply := none } t L (hchain.drop k) hm (fun bl hbl haccess => ?_) hr
      rw [drop_of_getElem? hpoll] at hbl
      cases hbl
      exact haccess.elim

/-! ## The end of phase 0 -/

/-- A run changes the phase only by the block that sets the flag. -/
theorem runBlocks_phase {b : Bindings} {i : Instr} {x : Extract} {k : Nat} {bls : List Block} {sb : Byte} {s t : State}
    (h : runBlocks b i x k bls sb s = .next t) :
    t.handle.startupComplete = s.handle.startupComplete
      ∨ Block.setStartup ∈ bls ∧ t.handle.startupComplete = true := by
  refine runBlocks_keeps (P := fun u => u.handle.startupComplete = s.handle.startupComplete
    ∨ Block.setStartup ∈ bls ∧ u.handle.startupComplete = true) (fun _ _ hu => hu) (fun _ _ hu => hu) bls ?_ k sb s t
    (.inl rfl) h
  intro bl hbl c c' u v hu hv
  obtain ⟨-, hhandle⟩ | ⟨rfl, hhandle⟩ := block_handle hv <;> rw [hhandle]
  · exact hu
  · exact .inr ⟨hbl, rfl⟩

/-- A run without a poll ends. -/
theorem runBlocks_ends {b : Bindings} {i : Instr} {x : Extract} :
    ∀ (bls : List Block) (k : Nat) (sb : Byte) (s t : State), .poll ∉ bls →
      runBlocks b i x k bls sb s = .next t → t.seq = .idle
  | [], _, _, _, _, _, h => by
    injection h with h
    exact h ▸ rfl
  | bl :: bls, k, sb, s, t, hp, h => by
    obtain ⟨hbl, hp⟩ := not_or.1 (mt List.mem_cons.2 hp)
    obtain ⟨sb', u, -, ⟨rfl, -⟩ | ⟨-, hrest⟩⟩ := runBlocks_cons_cases h
    · exact absurd rfl hbl
    · exact runBlocks_ends bls (k + 1) sb' u t hp hrest

/-- Settles O38: the flag changes only where a run has the block that sets it, which `FunctionSet` alone does, and in
phase 0 that run has no poll. -/
theorem onlyFunctionSetEndsPhase0 : Obligations.OnlyFunctionSetEndsPhase0 := by
  intro i s t hc h hne
  obtain ⟨q, r, rfl⟩ | ⟨d, dir, l, -, hn, -⟩ | ⟨-, b, k, -, hr⟩ := running_cases h
  · exact absurd rfl hne
  · rw [hc] at hn
    cases hn
  · obtain ⟨hmem, ht⟩ := (runBlocks_phase hr).resolve_left hne
    have hs : s.handle.startupComplete = false := by simpa [ht] using hne
    obtain ⟨l, n, f, rfl⟩ : ∃ l n f, i = .functionSet l n f := by
      by_contra hf
      exact setStartup_not_mem_planOf (fun l n f hi => hf ⟨l, n, f, hi⟩) (List.mem_of_mem_drop hmem)
    refine ⟨hs, ht, runBlocks_ends _ k 0 _ t (fun hp => ?_) hr, l, n, f, rfl⟩
    have hp := List.mem_of_mem_drop hp
    rw [hs] at hp
    simp [planOf, planFunctionSet, issueInstruction, pace] at hp

end Sys2Proof.Machine
end

section
/-! SUPPORT. Operations whose polls end: what stops a block, what a run through a row of paced writes leaves, and what
makes each poll end (20_memory.md R45, 41_busy_sync.md R74, R75). -/

namespace Sys2Proof.Machine

/-! ## What stops a block -/

/-- The two reasons for which the responder stops on a byte (20_memory.md R47, R48). -/
def ResponderStops (e : Refusal) : Prop := e = .responderHasNoMeaning ∨ e = .responderGapAddress

theorem instruct_error {L : Responder} {v : Byte} {e : Refusal} (h : L.instruct v = .error e) : ResponderStops e := by
  unfold Responder.instruct at h
  repeat' split at h
  all_goals cases h
  all_goals exact .inl rfl

theorem store_error {L : Responder} {v : Byte} {e : Refusal} (h : L.store v = .error e) : ResponderStops e := by
  unfold Responder.store at h
  repeat' split at h
  all_goals cases h
  exact .inr rfl

theorem accept_error {L : Responder} {rs : Bool} {v : Byte} {d : Busy} {e : Refusal}
    (h : L.accept rs v d = .error e) : ResponderStops e := by
  unfold Responder.accept at h
  split at h
  · cases h
  · next f hf =>
    injection h with h
    subst h
    cases rs with
    | false => exact instruct_error hf
    | true => exact store_error hf

theorem cell_error {L : Responder} {e : Refusal} (h : L.cell = .error e) : ResponderStops e := by
  unfold Responder.cell at h
  repeat' split at h
  all_goals cases h
  exact .inr rfl

theorem supply_error {L : Responder} {d : Busy} {e : Refusal} (h : L.supply d = .error e) : ResponderStops e := by
  unfold Responder.supply at h
  split at h
  · cases h
  · next f hf =>
    injection h with h
    subst h
    exact cell_error hf

theorem lcdTakes_refused {rs : Bool} {v : Byte} {s : State} {e : Refusal} (h : s.lcdTakes rs v = .refused e) :
    ResponderStops e ∧ ¬s.UnderOracle := by
  unfold State.lcdTakes at h
  unfold State.UnderOracle
  cases hm : s.lcd.model with
  | oracle => simp only [hm] at h; cases h
  | reference L =>
    simp only [hm] at h
    split at h
    · cases h
    · next f hf =>
      injection h with h
      exact ⟨h ▸ accept_error hf, by simp⟩

theorem lcdSupplies_refused {rs : Bool} {s : State} {e : Refusal} (h : s.lcdSupplies rs = .refused e) :
    ResponderStops e ∧ ¬s.UnderOracle := by
  unfold State.lcdSupplies at h
  unfold State.UnderOracle
  cases hm : s.lcd.model with
  | oracle => simp only [hm] at h; cases h
  | reference L =>
    cases rs with
    | false => simp only [hm] at h; cases h
    | true =>
      simp only [hm, if_true] at h
      split at h
      · cases h
      · next f hf =>
        injection h with h
        exact ⟨h ▸ supply_error hf, by simp⟩

/-- With Enable low only the responder stops a block. -/
theorem block_refused {b : Bindings} {bl : Block} {sb : Byte} {s : State} {e : Refusal} (he : s.pins.e = false)
    (h : microSteps b (bl.micros s.timing) sb s = .refused e) : ResponderStops e ∧ ¬s.UnderOracle := by
  have hread : ∀ r, microSteps b (readMicros s.timing r) sb s = .refused e → ResponderStops e ∧ ¬s.UnderOracle := by
    intro r h
    rw [microSteps_read _ _ _ he] at h
    split at h
    · cases h
    · cases h
    · next f hf =>
      injection h with h
      obtain ⟨hstop, ho⟩ := lcdSupplies_refused hf
      exact ⟨h ▸ hstop, fun hos => ho (by simpa [State.UnderOracle, State.raisedForRead] using hos)⟩
  cases bl with
  | poll => exact hread .instruction h
  | read r => exact hread r h
  | write r v =>
    rw [Block.micros, microSteps_write _ _ _ _ he] at h
    split at h
    · cases h
    · cases h
    · next f hf =>
      injection h with h
      obtain ⟨hstop, ho⟩ := lcdTakes_refused hf
      exact ⟨h ▸ hstop, fun hos => ho (by simpa [State.UnderOracle, State.raisedForWrite] using hos)⟩
  | setStartup => cases h

/-! ## A run through the blocks of an operation -/

/-- The blocks `bls`, from block `k` on, are run out of `s`, each poll until it is over, and `t` is left; the polls have
sensed `sensed`, and `sb'` is the byte sensed last. -/
inductive Went (b : Bindings) (i : Instr) : Nat → List Block → Byte → State → List Byte → Byte → State → Prop where
  | done (k : Nat) (sb : Byte) (s : State) : Went b i k [] sb s [] sb s
  | poll {k : Nat} {bls : List Block} {sb c sb' : Byte} {s t u : State} {busy sensed : List Byte}
      (hpolled : Polled b i k s busy c t) (hrest : Went b i (k + 1) bls c t sensed sb' u) :
      Went b i k (.poll :: bls) sb s (busy ++ c :: sensed) sb' u
  | block {k : Nat} {bl : Block} {bls : List Block} {sb c sb' : Byte} {s t u : State} {sensed : List Byte}
      (hbl : bl ≠ .poll) (hrun : microSteps b (bl.micros s.timing) sb s = .next (c, t))
      (hrest : Went b i (k + 1) bls c t sensed sb' u) : Went b i k (bl :: bls) sb s sensed sb' u

section
variable {b : Bindings} {i : Instr} {k : Nat} {bls : List Block} {sb sb' : Byte} {s u : State} {sensed : List Byte}

theorem Went.calls (h : Went b i k bls sb s sensed sb' u) : u.calls = s.calls := by
  induction h with
  | done k sb s => rfl
  | poll hpolled hrest ih => exact ih.trans hpolled.done.calls
  | block hbl hrun hrest ih =>
    obtain ⟨-, -, -, -, -, hcalls⟩ := microSteps_holds hrun
    exact ih.trans hcalls

theorem Went.poll_inv (h : Went b i k (.poll :: bls) sb s sensed sb' u) :
    ∃ busy c t rest, Polled b i k s busy c t ∧ Went b i (k + 1) bls c t rest sb' u ∧ sensed = busy ++ c :: rest := by
  cases h with
  | poll hpolled hrest => exact ⟨_, _, _, _, hpolled, hrest, rfl⟩
  | block hbl => exact absurd rfl hbl

theorem Went.write_inv {r : Register} {v : Byte} (he : s.pins.e = false)
    (h : Went b i k (.write r v :: bls) sb s sensed sb' u) :
    ∃ t, WriteDone b r v s t ∧ Went b i (k + 1) bls sb t sensed sb' u := by
  cases h with
  | block hbl hrun hrest =>
    obtain ⟨rfl, hd⟩ := write_done he hrun
    exact ⟨_, hd, hrest⟩

end

/-! ## A row of paced writes, however long its polls -/

theorem takePoll_append {sb : Byte} (hfree : busyFlag sb = false) (rest : List Byte) : ∀ {busy : List Byte},
    (∀ x ∈ busy, busyFlag x = true) → takePoll (busy ++ sb :: rest) = (busy ++ [sb], rest)
  | [], _ => by simp [takePoll, hfree]
  | x :: busy, h => by
    obtain ⟨hx, h⟩ := List.forall_mem_cons.1 h
    simp [takePoll, hx, takePoll_append hfree rest h]

theorem polledEvents_cons (T : Timing) (w : Register × Byte) (ws : List (Register × Byte)) {busy : List Byte}
    {sb : Byte} (rest : List Byte) (hbusy : ∀ x ∈ busy, busyFlag x = true) (hfree : busyFlag sb = false) :
    polledEvents T true (w :: ws) (busy ++ sb :: rest)
      = (busy ++ [sb]).flatMap (readEvents T .instruction) ++ writeEvents T w.1 w.2 ++ polledEvents T true ws rest := by
  rw [polledEvents, if_pos rfl, takePoll_append hfree rest hbusy]

/-- Where the polls have ended the bytes to come are nothing to the row. -/
theorem polledEvents_append (T : Timing) (phase : Bool) (rest : List Byte) : ∀ (ws : List (Register × Byte))
    (sensed : List Byte), (phase = true → PollsEnd ws.length sensed) →
      polledEvents T phase ws (sensed ++ rest) = polledEvents T phase ws sensed
  | [], _, _ => rfl
  | w :: ws, sensed, h => by
    cases phase with
    | false =>
      have ih := polledEvents_append T false rest ws sensed (fun h => by cases h)
      simpa [polledEvents] using ih
    | true =>
      obtain ⟨busy, sb, more, rfl, hbusy, hfree, hmore⟩ := h rfl
      rw [List.append_assoc, List.cons_append, polledEvents_cons T w ws _ hbusy hfree,
        polledEvents_cons T w ws _ hbusy hfree, polledEvents_append T true rest ws more (fun _ => hmore)]

/-- What a row of paced writes leaves when its polls have sensed `sensed`. -/
structure RowDone (phase : Bool) (ws : List (Register × Byte)) (sensed : List Byte) (s t : State) : Prop where
  events : t.events = s.events ++ polledEvents s.timing phase ws sensed
  pins : t.pins = pinsAfter s.pins ws
  polls : phase = true → PollsEnd ws.length sensed
  oracle : s.UnderOracle → (phase = true → PollsEnd ws.length s.draws.senses) →
    ∃ rest, s.draws.senses = sensed ++ rest

section
variable {b : Bindings} {i : Instr} {sb' : Byte} {u : State} {sensed : List Byte}

/-- What comes after the row leaves no event and no pin changed. -/
theorem Went.tail {tail : List Block} (htail : tail = [] ∨ tail = [.setStartup]) {k : Nat} {sb : Byte} {s : State}
    (h : Went b i k tail sb s sensed sb' u) : sensed = [] ∧ u.events = s.events ∧ u.pins = s.pins := by
  obtain rfl | rfl := htail
  · cases h
    exact ⟨rfl, rfl, rfl⟩
  · cases h with
    | block hbl hrun hrest =>
      injection hrun with hrun
      injection hrun with _ ht
      subst ht
      cases hrest
      exact ⟨rfl, rfl, rfl⟩

theorem Went.row {tail : List Block} (htail : tail = [] ∨ tail = [.setStartup]) (phase : Bool) :
    ∀ (ws : List (Register × Byte)) {k : Nat} {sb : Byte} {s : State} {sensed : List Byte}, s.pins.e = false →
      Went b i k (pacedBlocks phase ws ++ tail) sb s sensed sb' u → RowDone phase ws sensed s u
  | [], k, sb, s, sensed, _, h => by
    obtain ⟨rfl, hevents, hpins⟩ := h.tail htail
    exact ⟨by rw [hevents, polledEvents, List.append_nil], hpins, fun _ => trivial, fun _ _ => ⟨_, rfl⟩⟩
  | w :: ws, k, sb, s, sensed, he, h => by
    rw [pacedBlocks_cons, List.append_assoc, List.cons_append] at h
    cases phase with
    | false =>
      obtain ⟨t, hd, hrest⟩ := Went.write_inv he h
      have hrow := Went.row htail false ws (by rw [hd.pins]; rfl) hrest
      refine ⟨?_, ?_, fun hp => (by cases hp), fun ho _ => ?_⟩
      · rw [hrow.events, hd.events, hd.timing, List.append_assoc]
        simp [polledEvents]
      · rw [hrow.pins, hd.pins]
        rfl
      · rw [← hd.senses]
        exact hrow.oracle (hd.oracle ho).1 (fun hp => by cases hp)
    | true =>
      obtain ⟨busy, c, v, rest, hpolled, hrest, rfl⟩ := Went.poll_inv h
      obtain ⟨t, hd, hrest⟩ := hrest.write_inv hpolled.enableLow
      have hp := hpolled.done
      have hrow := Went.row htail true ws (by rw [hd.pins]; rfl) hrest
      refine ⟨?_, ?_, fun _ => ⟨busy, c, rest, rfl, hp.busy, hp.free, hrow.polls rfl⟩, fun ho hends => ?_⟩
      · rw [hrow.events, hd.events, hp.events, hd.timing, hp.timing, polledEvents_cons _ w ws _ hp.busy hp.free]
        simp only [List.append_assoc]
      · rw [hrow.pins, hd.pins]
        rfl
      · obtain ⟨busy', sb, more, hs, hbusy, hfree, hmore⟩ := hends rfl
        obtain ⟨rfl, rfl, hv⟩ := hpolled.senses ho hs hbusy hfree
        have ht : t.draws.senses = more := hd.senses.trans hv
        obtain ⟨rest', hrest'⟩ := hrow.oracle (hd.oracle (hp.oracle ho)).1 (fun _ => by rw [ht]; exact hmore)
        rw [ht] at hrest'
        exact ⟨rest', by rw [hs, hrest', List.append_assoc, List.cons_append]⟩

end

/-! ## What makes each poll end -/

/-- `E`, of the blocks still to run, the state the step began in and the state the blocks before have left, makes each
poll of operation `i` end: it does so for the next one, and holds again after it and after a write. -/
structure Ending (b : Bindings) (i : Instr) (E : List Block → State → State → Prop) : Prop where
  poll : ∀ {x : Extract} {k : Nat} {bls : List Block} {p s : State} {sb : Byte},
    Doing b i x k (.poll :: bls) p sb s → E (.poll :: bls) p s →
      ∃ busy c t, Polled b i k s busy c t ∧ ∀ p', Host.Core.run core busy.length p = .next p' → E bls p' t
  write : ∀ {r : Register} {v : Byte} {bls : List Block} {p s t : State},
    WriteDone b r v s t → E (.write r v :: bls) p s → E bls p t

/-- An operation whose polls end runs through its blocks, unless the responder stops it. -/
theorem Doing.ends {b : Bindings} {i : Instr} {x : Extract} {E : List Block → State → State → Prop}
    (hE : Ending b i E) : ∀ (bls : List Block) {k : Nat} {p s : State} {sb : Byte}, Doing b i x k bls p sb s →
      (.poll ∈ bls → E bls p s) →
      (∃ n sensed sb' t, Host.Core.run core n p = .next (t.finish (x.value sb')) ∧ Went b i k bls sb s sensed sb' t)
        ∨ ∃ n e, Host.Core.run core n p = .refused e ∧ ResponderStops e ∧ ¬s.UnderOracle
  | [], k, p, s, sb, h, _ => .inl ⟨1, [], sb, s, (run_one p).trans h.step, .done k sb s⟩
  | bl :: bls, k, p, s, sb, h, hends => by
    by_cases hbl : bl = .poll
    · subst hbl
      obtain ⟨busy, c, t, hpolled, hnext⟩ := hE.poll h (hends (List.mem_cons_self ..))
      obtain ⟨p', hrun, hdoing⟩ := h.polled hpolled
      obtain ⟨n, sensed, sb', u, hn, hwent⟩ | ⟨n, e, hn, he, ho⟩ :=
        Doing.ends hE bls hdoing (fun _ => hnext p' hrun)
      · exact .inl ⟨_, _, sb', u, (run_add hrun).trans hn, .poll hpolled hwent⟩
      · exact .inr ⟨_, e, (run_add hrun).trans hn, he, fun hos => ho (hpolled.done.oracle hos)⟩
    · cases hm : microSteps b (bl.micros s.timing) sb s with
      | fault f => exact absurd hm (microSteps_not_fault b f _ sb s)
      | refused e =>
        obtain ⟨he, ho⟩ := block_refused h.enableLow hm
        exact .inr ⟨1, e, (run_one p).trans (h.step.trans (runBlocks_refused hm)), he, ho⟩
      | next q =>
        obtain ⟨c, t⟩ := q
        have hwrite : .poll ∈ bls → ∃ r v, bl = .write r v ∧ WriteDone b r v s t := by
          intro hmem
          obtain ⟨hplan, -⟩ := h.plan (List.mem_cons_of_mem _ hmem)
          obtain ⟨r, v, rfl⟩ := (before_poll hplan hmem).resolve_left hbl
          exact ⟨r, v, rfl, (write_done h.enableLow hm).2⟩
        have hdoing := h.next hm (fun hp => absurd hp hbl) fun hmem => by
          obtain ⟨r, v, -, hd⟩ := hwrite hmem
          exact hd.handle
        obtain ⟨n, sensed, sb', u, hn, hwent⟩ | ⟨n, e, hn, he, ho⟩ := Doing.ends hE bls hdoing fun hmem => by
          obtain ⟨r, v, rfl, hd⟩ := hwrite hmem
          exact hE.write hd (hends (List.mem_cons_of_mem _ hmem))
        · exact .inl ⟨n, sensed, sb', u, hn, .block hbl hm hwent⟩
        · exact .inr ⟨n, e, hn, he, fun hos => ho (block_oracle hos hm)⟩

/-! ## The three premises -/

/-- The bytes the bus is going to carry end the polls of the blocks. -/
def EndsByBytes (bls : List Block) (_ s : State) : Prop :=
  s.UnderOracle ∧ PollsEnd (bls.count .poll) s.draws.senses

theorem endsByBytes_ending (b : Bindings) (i : Instr) : Ending b i EndsByBytes where
  poll := by
    rintro x k bls p s sb h ⟨ho, hends⟩
    rw [List.count_cons_self] at hends
    obtain ⟨busy, c, rest, hs, hbusy, hfree, hrest⟩ := hends
    obtain ⟨t, hpolled, hot, ht⟩ := polled_of_senses (b := b) (i := i) (k := k) h.enableLow ho hs hbusy hfree
    exact ⟨busy, c, t, hpolled, fun _ _ => ⟨hot, by rw [ht]; exact hrest⟩⟩
  write := by
    rintro r v bls p s t hd ⟨ho, hends⟩
    refine ⟨(hd.oracle ho).1, ?_⟩
    rw [hd.senses]
    simpa using hends

/-- With the busy count `c` and the draws `ds` to come no poll of the blocks finds the count infinite, where each other
block draws one (20_memory.md R50). -/
def CountsEnd : List Block → Busy → List Busy → Prop
  | [], _, _ => True
  | .poll :: bls, c, ds => c ≠ .forever ∧ CountsEnd bls (.polls 0) ds
  | .write _ _ :: bls, _, ds | .read _ :: bls, _, ds | .setStartup :: bls, _, ds =>
    Block.poll ∈ bls → ∃ d rest, ds = d :: rest ∧ CountsEnd bls d rest

/-- The responder's busy counts end the polls of the blocks. -/
def EndsByCounts (bls : List Block) (_ s : State) : Prop :=
  ∃ L, s.lcd.model = .reference L ∧ CountsEnd bls L.busy s.draws.busy

theorem countsEnd_of_no_poll : ∀ {bls : List Block} (c : Busy) (ds : List Busy), .poll ∉ bls → CountsEnd bls c ds
  | [], _, _, _ => trivial
  | .poll :: _, _, _, h => absurd (List.mem_cons_self ..) h
  | .write _ _ :: _, _, _, h | .read _ :: _, _, _, h | .setStartup :: _, _, _, h =>
    fun hmem => absurd (List.mem_cons_of_mem _ hmem) h

theorem endsByCounts_ending (b : Bindings) (i : Instr) : Ending b i EndsByCounts where
  poll := by
    rintro x k bls p s sb h ⟨L, hm, hforever, hends⟩
    cases hL : L.busy with
    | forever => exact absurd hL hforever
    | polls n =>
      obtain ⟨busy, c, t, hpolled, hmt, hdraws⟩ := polled_of_polls (b := b) (i := i) (k := k) h.enableLow hm hL
      exact ⟨busy, c, t, hpolled, fun _ _ => ⟨_, hmt, by rw [hdraws]; exact hends⟩⟩
  write := by
    rintro r v bls p s t hd ⟨L, hm, hends⟩
    obtain ⟨L', d, hm', hacc, hdraw⟩ := hd.responder L hm
    refine ⟨L', hm', ?_⟩
    by_cases hmem : .poll ∈ bls
    · obtain ⟨c, rest, hs, hrest⟩ := hends hmem
      obtain ⟨rfl, ht⟩ := hdraw c rest hs
      rw [(accept_keeps hacc).2.1, ht]
      exact hrest
    · exact countsEnd_of_no_poll _ _ hmem

/-- `BusyFallsUntil` of the state the step began in, for the call that runs. -/
def EndsByFalls (left : Nat) (_ : List Block) (p s : State) : Prop :=
  p.BusyFallsUntil left ∧ left ≤ s.calls.length

theorem State.BusyFallsUntil.run {left m : Nat} {s t : State} (h : s.BusyFallsUntil left)
    (hrun : Host.Core.run core m s = .next t) : t.BusyFallsUntil left :=
  fun n u i k hr => h (m + n) u i k ((run_add hrun).trans hr)

/-- A status read made now is what a poll would sense. -/
theorem State.StatusReads.of_read {b : Bindings} {s t : State} {sb c : Byte} (h : s.StatusReads sb)
    (hconf : s.ConfiguredWith b) (hread : StatusRead b s c t) : c = sb := by
  obtain ⟨u, hexec, hreply⟩ := h
  obtain ⟨b', c', v, hb, hmicros, rfl⟩ := exec_readLcd_runs (s := { s with seq := .idle }) hconf.1 hexec
  obtain rfl := Option.some.inj (hb.symm.trans hconf.2)
  have he : s.pins.e = false := block_found_low (by simp) (hread 0)
  have hread' := statusRead_of_read (s := { s with seq := .idle, reply := none }) he hmicros
  have hsame := hread.byte_eq hread' rfl rfl
  simp only [finish_reply, Option.some.injEq, Reply.mk.injEq, Value.byte.injEq, true_and] at hreply
  rw [← hreply, hsame]

/-- An operation that waits at a poll, and comes to where a status read sees bit 7 = 0, has had that poll over. -/
theorem polled_of_reached {b : Bindings} {i : Instr} {x : Extract} {k : Nat} {bls : List Block} {u : State} {sb : Byte}
    (hu : u.StatusReads sb) (hfree : busyFlag sb = false) :
    ∀ (m : Nat) {w : State}, Doing b i x k (.poll :: bls) w 0 w → Host.Core.run core m w = .next u →
      ∃ busy c t, Polled b i k w busy c t := by
  intro m
  induction m with
  | zero =>
    intro w h hrun
    injection hrun with hrun
    subst hrun
    obtain ⟨c, t, hread⟩ := statusRead_completes b h.enableLow
    obtain rfl := hu.of_read h.configured hread
    exact ⟨[], c, t, w, .none w, hread, hfree⟩
  | succ m ih =>
    intro w h hrun
    obtain ⟨c, t, hread⟩ := statusRead_completes b h.enableLow
    cases hc : busyFlag c with
    | false => exact ⟨[], c, t, w, .none w, hread, hc⟩
    | true =>
      obtain ⟨hstep, hdoing⟩ := h.waits hread hc
      rw [run_next hstep] at hrun
      obtain ⟨busy, d, v, hpolled⟩ := ih hdoing hrun
      exact ⟨c :: busy, d, v, hpolled.wait hread hc⟩

theorem endsByFalls_ending (b : Bindings) (i : Instr) (left : Nat) : Ending b i (EndsByFalls left) where
  poll := by
    rintro x k bls p s sb h ⟨hfalls, hleft⟩
    obtain ⟨busy, c, t, hpolled⟩ : ∃ busy c t, Polled b i k s busy c t := by
      obtain ⟨c, t, hread⟩ := statusRead_completes b h.enableLow
      cases hc : busyFlag c with
      | false => exact ⟨[], c, t, s, .none s, hread, hc⟩
      | true =>
        obtain ⟨hstep, hdoing⟩ := h.waits hread hc
        have hcalls : t.calls = s.calls := hread.done.calls
        obtain ⟨m, u, d, hrun, -, -, hreads, hfree⟩ :=
          hfalls 1 _ i k ((run_one p).trans hstep) rfl (by simpa only [hcalls] using hleft)
        obtain ⟨busy, d, v, hpolled⟩ := polled_of_reached hreads hfree m hdoing hrun
        exact ⟨c :: busy, d, v, hpolled.wait hread hc⟩
    exact ⟨busy, c, t, hpolled, fun p' hrun => ⟨hfalls.run hrun, by rw [hpolled.done.calls]; exact hleft⟩⟩
  write := by
    rintro r v bls p s t hd ⟨hfalls, hleft⟩
    exact ⟨hfalls, by rw [hd.calls]; exact hleft⟩

end Sys2Proof.Machine
end

section
/-! PROOF. Operations and programs end where their polls do (41_busy_sync.md R75, R77; 70_reset_and_hazards.md R119). -/

namespace Sys2Proof.Machine

/-! ## One operation -/

/-- Operations that poll, or whose accesses the gate paces. -/
def Waits (i : Instr) : Prop := (pacedWrites i).isSome ∨ i = .readDataReg ∨ i = .waitNotBusy

theorem planOf_waits {i : Instr} (h : Waits i) (phase : Bool) :
    ReachesBus i = true ∧ (planOf i phase).rejected = none := by
  obtain h | rfl | rfl := h
  · obtain ⟨ws, hws⟩ := Option.isSome_iff_exists.1 h
    exact ⟨reachesBus_of_pacedWrites h, (planOf_isRow hws phase).1⟩
  · exact ⟨rfl, rfl⟩
  · exact ⟨rfl, rfl⟩

/-- What an operation that ends leaves: it has returned, and made its own writes after the status reads its polls
need. -/
structure Ended (i : Instr) (calls : List Call) (s t : State) (v : Value) : Prop where
  seq : t.seq = .idle
  calls : t.calls = calls
  reply : t.reply = some { status := .ok, value := v }
  row : ∀ ws, pacedWrites i = some ws → v = .nothing ∧ ∃ sensed, RowDone s.handle.startupComplete ws sensed s t

/-- A call whose polls end does so, unless the responder stops it. -/
theorem call_ends {b : Bindings} {i : Instr} {s : State} {calls : List Call} {E : List Block → State → State → Prop}
    (hE : Ending b i E) (hi : Waits i) (hclean : s.CleanEntry) (hconf : s.ConfiguredWith b)
    (hcalls : s.calls = .op i :: calls)
    (hends : .poll ∈ (planOf i s.handle.startupComplete).blocks →
      E (planOf i s.handle.startupComplete).blocks s { s with calls := calls, reply := none }) :
    (∃ n t v, Host.Core.run core n s = .next t ∧ Ended i calls s t v)
      ∨ ∃ n e, Host.Core.run core n s = .refused e ∧ ResponderStops e ∧ ¬s.UnderOracle := by
  obtain ⟨hreach, hrej⟩ := planOf_waits hi s.handle.startupComplete
  obtain ⟨n, sensed, sb, t, hn, hwent⟩ | hstop :=
    Doing.ends hE _ (doing_of_call hclean hconf hreach hrej hcalls) hends
  · refine .inl ⟨n, _, _, hn, rfl, hwent.calls, rfl, fun ws hws => ?_⟩
    obtain ⟨-, hret, tail, htail, hblocks⟩ := planOf_isRow hws s.handle.startupComplete
    rw [hblocks] at hwent
    obtain ⟨hevents, hpins, hpolls, horacle⟩ :=
      Went.row (s := { s with calls := calls, reply := none }) htail _ ws hclean.2 hwent
    exact ⟨by rw [hret]; rfl, sensed, hevents, hpins, hpolls, horacle⟩
  · exact .inr hstop

theorem count_poll_pacedBlocks : ∀ ws : List (Register × Byte), (pacedBlocks true ws).count .poll = ws.length
  | [] => rfl
  | w :: ws => by
    rw [pacedBlocks_cons, List.count_append, List.count_cons_of_ne (by simp), count_poll_pacedBlocks ws]
    simp [pace, Nat.add_comm]

theorem count_poll_tail {tail : List Block} (htail : tail = [] ∨ tail = [.setStartup]) : tail.count .poll = 0 := by
  obtain rfl | rfl := htail <;> rfl

/-- Phase 0 has no poll in a row. -/
theorem poll_not_mem_row {tail : List Block} (htail : tail = [] ∨ tail = [.setStartup]) (ws : List (Register × Byte)) :
    .poll ∉ pacedBlocks false ws ++ tail := by
  obtain rfl | rfl := htail <;> simp [pacedBlocks, pace]

theorem countsEnd_row {tail : List Block} (htail : tail = [] ∨ tail = [.setStartup]) :
    ∀ (ws : List (Register × Byte)) {c : Busy} {ds : List Busy}, c ≠ .forever → ws.length - 1 ≤ ds.length →
      (∀ x ∈ ds.take (ws.length - 1), x ≠ .forever) → CountsEnd (pacedBlocks true ws ++ tail) c ds
  | [], c, ds, _, _, _ => by obtain rfl | rfl := htail <;> simp [CountsEnd]
  | [w], c, ds, hc, _, _ => by obtain rfl | rfl := htail <;> simp [pacedBlocks, pace, CountsEnd, hc]
  | w :: w' :: ws, c, [], _, hlen, _ => by simp at hlen
  | w :: w' :: ws, c, d :: ds, hc, hlen, hds => by
    rw [pacedBlocks_cons, List.append_assoc, List.cons_append]
    simp only [List.length_cons, Nat.add_sub_cancel, Nat.add_le_add_iff_right, List.take_succ_cons,
      List.forall_mem_cons] at hlen hds
    exact ⟨hc, fun _ => ⟨d, ds, rfl, countsEnd_row htail (w' :: ws) hds.1 (by simpa using hlen) (by simpa using hds.2)⟩⟩

theorem pollCount_of_pacedWrites {i : Instr} {ws : List (Register × Byte)} (h : pacedWrites i = some ws) :
    pollCount i = ws.length := by
  cases i with
  | readDataReg => cases h
  | waitNotBusy => cases h
  | _ => simp only [pollCount, h]

/-- `CountsFall` ends the polls of one operation. -/
theorem countsEnd_of_countsFall {i : Instr} (hi : Waits i) {s : State} {L : Responder}
    (hm : s.lcd.model = .reference L) (hcounts : s.handle.startupComplete = true ∨ i = .waitNotBusy →
      s.CountsFall (pollCount i)) :
    CountsEnd (planOf i s.handle.startupComplete).blocks L.busy s.draws.busy := by
  obtain hi | rfl | rfl := hi
  · obtain ⟨ws, hws⟩ := Option.isSome_iff_exists.1 hi
    obtain ⟨-, -, tail, htail, hblocks⟩ := planOf_isRow hws s.handle.startupComplete
    rw [hblocks]
    cases hphase : s.handle.startupComplete with
    | false => exact countsEnd_of_no_poll _ _ (poll_not_mem_row htail ws)
    | true =>
      obtain ⟨hforever, hlen, hdraws⟩ := hcounts (.inl hphase) L hm
      rw [pollCount_of_pacedWrites hws] at hlen hdraws
      exact countsEnd_row htail ws hforever hlen hdraws
  · cases hphase : s.handle.startupComplete with
    | false => exact countsEnd_of_no_poll _ _ (by simp [planOf, planReadDataReg, pace])
    | true => exact ⟨(hcounts (.inl hphase) L hm).1, fun hmem => by cases hmem⟩
  · exact ⟨(hcounts (.inr rfl) L hm).1, trivial⟩

/-! ## Programs -/

/-- What stops a program that meets the invariant. -/
def stops : List Refusal :=
  [.configuredTwice, .overlappingBindings, .responderHasNoMeaning, .responderGapAddress, .notABusWord]

theorem ResponderStops.mem {e : Refusal} (h : ResponderStops e) : e ∈ stops := by
  obtain rfl | rfl := h <;> simp [stops]

/-- The run from `s` comes to an idle block with `calls` to come, or is stopped. -/
def Frees (s : State) (calls : List Call) : Prop :=
  ∃ n, (∃ t, Host.Core.run core n s = .next t ∧ t.seq = .idle ∧ t.calls = calls)
    ∨ ∃ e ∈ stops, Host.Core.run core n s = .refused e

theorem frees_of_step {s t : State} {calls : List Call} (h : step s = .next t) (hq : t.seq = .idle)
    (hc : t.calls = calls) : Frees s calls :=
  ⟨1, .inl ⟨t, (run_one s).trans h, hq, hc⟩⟩

theorem frees_of_refused {s : State} {calls : List Call} {e : Refusal} (h : step s = .refused e) (he : e ∈ stops) :
    Frees s calls :=
  ⟨1, .inr ⟨e, he, (run_one s).trans h⟩⟩

/-- An operation whose polls see the flag fall frees the block. -/
theorem Doing.frees {b : Bindings} {i : Instr} {x : Extract} {k : Nat} {bls : List Block} {p s : State} {sb : Byte}
    (h : Doing b i x k bls p sb s) (hfalls : p.BusyFalls) : Frees p s.calls := by
  obtain ⟨n, sensed, sb', t, hn, hwent⟩ | ⟨n, e, hn, he, -⟩ :=
    Doing.ends (endsByFalls_ending b i 0) bls h (fun _ => ⟨hfalls, Nat.zero_le _⟩)
  · exact ⟨n, .inl ⟨_, hn, rfl, hwent.calls⟩⟩
  · exact ⟨n, .inr ⟨e, he.mem, hn⟩⟩

/-- So does the next operation of the stream. -/
theorem frees_of_exec {s : State} {i : Instr} {calls : List Call} (hq : s.seq = .idle) (hs : s.Inv)
    (hfalls : s.BusyFalls) (hstep : step s = exec i { s with calls := calls }) : Frees s calls := by
  by_cases hi : ReachesBus i = true
  · cases hc : s.handle.configured with
    | false => exact frees_of_step (hstep.trans (exec_unconfigured hi hq hc)) hq rfl
    | true =>
      obtain ⟨b, hb, -⟩ := hs.bound hc
      rw [exec_eq_operate hi] at hstep
      cases hrej : (planOf i s.handle.startupComplete).rejected with
      | some st =>
        have hreject : step s = .next (State.reject st (planOf i s.handle.startupComplete).returns
            { s with calls := calls }) := by
          rw [hstep]
          simp only [operate, hq, hc, hrej, if_true]
        exact frees_of_step hreject rfl rfl
      | none =>
        rw [operate_runs (b := b) (s := { s with calls := calls }) hq ⟨hc, hb⟩ hrej] at hstep
        exact Doing.frees ⟨hstep, fun _ => ⟨rfl, rfl⟩, ⟨hc, hb⟩, hs.enableLow, rfl⟩ hfalls
  · cases i with
    | configure d dir l =>
      simp only [exec, execConfigure, hq] at hstep
      split at hstep
      · exact frees_of_refused hstep (by simp [stops])
      · split at hstep
        · exact frees_of_step hstep rfl rfl
        · exact frees_of_refused hstep (by simp [stops])
    | mapAddress line col =>
      simp only [exec, execMapAddress, hq] at hstep
      exact frees_of_step hstep rfl rfl
    | _ => exact absurd rfl hi

@[simp] theorem hostWait_calls (d : Nat) (s : State) : (hostWait d s).calls = s.calls := by
  obtain ⟨-, hw⟩ | ⟨L, -, hw⟩ := hostWait_cases d s <;> simp [hw]

theorem frees_of_call {s : State} {c : Call} {calls : List Call} (hq : s.seq = .idle) (hs : s.Inv)
    (hfalls : s.BusyFalls) (hc : s.calls = c :: calls) : Frees s calls := by
  cases c with
  | op i => exact frees_of_exec hq hs hfalls (step_issues hq hc)
  | hostDelay d =>
    have hstep : step s = .next (hostWait d { s with calls := calls }) := by simp only [step, hq, fetch, hc]
    exact frees_of_step hstep (by simpa using hq) (by simp)
  | word w =>
    cases hw : decode w with
    | ok i => exact frees_of_exec hq hs hfalls (((stepRunsTheNextCall s calls).1 hq).2.1 w i hc hw)
    | error e =>
      have hstep : step s = .refused .notABusWord := by simp only [step, hq, fetch, hc, hw]
      exact frees_of_refused hstep (by simp [stops])

theorem Frees.andThen {s : State} {calls more : List Call} (h : Frees s calls)
    (hnext : ∀ n t, Host.Core.run core n s = .next t → t.seq = .idle → t.calls = calls → Frees t more) :
    Frees s more := by
  obtain ⟨n, ⟨t, hrun, hq, hc⟩ | hstop⟩ := h
  · obtain ⟨m, ⟨u, hu, huq, huc⟩ | ⟨e, he, hm⟩⟩ := hnext n t hrun hq hc
    · exact ⟨n + m, .inl ⟨u, (run_add hrun).trans hu, huq, huc⟩⟩
    · exact ⟨n + m, .inr ⟨e, he, (run_add hrun).trans hm⟩⟩
  · exact ⟨n, .inr hstop⟩

/-- Where every poll sees the flag fall a program comes to its end, or is stopped: one call after another. -/
theorem program_ends : ∀ (calls : List Call) (s : State), s.seq = .idle → s.Inv → s.BusyFalls → s.calls = calls →
    Frees s []
  | [], s, hq, _, _, hc => ⟨0, .inl ⟨s, rfl, hq, hc⟩⟩
  | _ :: calls, s, hq, hs, hfalls, hc =>
    (frees_of_call hq hs hfalls hc).andThen fun n t hrun hqt hct =>
      program_ends calls t hqt (run_keeps stepKeepsTheInvariant n s t hs hrun) (hfalls.run hrun) hct

/-- The same from the middle of an operation. -/
theorem run_frees {s : State} (hs : s.Inv) (hfalls : s.BusyFalls) : Frees s [] := by
  obtain hq | ⟨i, k, hq⟩ : s.seq = .idle ∨ ∃ i k, s.seq = .at i k := by
    cases s.seq <;> simp
  · exact program_ends s.calls s hq hs hfalls rfl
  · have hc : s.handle.configured = true := hs.progress (by simp [hq])
    obtain ⟨b, hb, -⟩ := hs.bound hc
    have hfree : Frees s s.calls := (doing_of_at hq ⟨hc, hb⟩ hs.enableLow).frees hfalls
    exact hfree.andThen fun n t hrun hqt hct =>
      program_ends s.calls t hqt (run_keeps stepKeepsTheInvariant n s t hs hrun) (hfalls.run hrun) hct

/-! ## Under the oracle -/

/-- A paced write operation ends with the bytes the bus is going to carry. -/
theorem writes_end_under_oracle {b : Bindings} {i : Instr} {ws : List (Register × Byte)} {s : State}
    {calls : List Call} (hws : pacedWrites i = some ws) (hclean : s.CleanEntry) (hconf : s.ConfiguredWith b)
    (ho : s.UnderOracle) (hcalls : s.calls = .op i :: calls)
    (hends : s.handle.startupComplete = true → PollsEnd ws.length s.draws.senses) :
    ∃ n t, Host.Core.run core n s = .next t ∧ Ended i calls s t .nothing
      ∧ t.events = s.events ++ polledEvents s.timing s.handle.startupComplete ws s.draws.senses
      ∧ t.pins = pinsAfter s.pins ws := by
  obtain ⟨-, -, tail, htail, hblocks⟩ := planOf_isRow hws s.handle.startupComplete
  have hbytes : .poll ∈ (planOf i s.handle.startupComplete).blocks →
      EndsByBytes (planOf i s.handle.startupComplete).blocks s { s with calls := calls, reply := none } := by
    intro hmem
    refine ⟨ho, ?_⟩
    rw [hblocks] at hmem ⊢
    cases hphase : s.handle.startupComplete with
    | false => exact absurd (hphase ▸ hmem) (poll_not_mem_row htail ws)
    | true =>
      rw [List.count_append, count_poll_pacedBlocks, count_poll_tail htail]
      exact hends hphase
  obtain ⟨n, t, v, hn, hended⟩ | ⟨-, -, -, -, hno⟩ := call_ends (endsByBytes_ending b i)
    (.inl (by rw [hws]; rfl)) hclean hconf hcalls hbytes
  · obtain ⟨rfl, sensed, hrow⟩ := hended.row ws hws
    obtain ⟨rest, hsenses⟩ := hrow.oracle ho hends
    refine ⟨n, t, hn, hended, ?_, hrow.pins⟩
    rw [hrow.events, hsenses, polledEvents_append _ _ _ ws sensed hrow.polls]
  · exact absurd ho hno

/-- `ReadDataReg` in phase 1 polls, then reads the byte it returns. -/
theorem readDataReg_ends_under_oracle {b : Bindings} {s : State} {calls : List Call} {busy : List Byte} {sb v : Byte}
    {rest : List Byte} (hclean : s.CleanEntry) (hconf : s.ConfiguredWith b) (ho : s.UnderOracle)
    (hphase : s.handle.startupComplete = true) (hcalls : s.calls = .op .readDataReg :: calls)
    (hsenses : s.draws.senses = busy ++ sb :: v :: rest) (hbusy : ∀ x ∈ busy, busyFlag x = true)
    (hfree : busyFlag sb = false) :
    ∃ n t, Host.Core.run core n s = .next t ∧ t.seq = .idle
      ∧ t.reply = some { status := .ok, value := .byte v } ∧ t.calls = calls
      ∧ t.events = s.events ++ (busy ++ [sb]).flatMap (readEvents s.timing .instruction) ++ readEvents s.timing .data v
      ∧ t.pins = idleAfterRead .data s.pins := by
  have hdoing := doing_of_call (i := .readDataReg) hclean hconf rfl rfl hcalls
  rw [hphase] at hdoing
  obtain ⟨t, hpolled, hot, ht⟩ := polled_of_senses (b := b) (i := .readDataReg) (k := 0)
    (s := { s with calls := calls, reply := none }) hclean.2 ho hsenses hbusy hfree
  have hp := hpolled.done
  obtain ⟨p, hrun, hread⟩ := Doing.polled (bls := [.read .data]) hdoing hpolled
  obtain ⟨c, u, hu, hd⟩ := read_completes (b := b) (r := .data) sb hread.enableLow (answers_of_oracle hot .data)
  obtain ⟨rfl, -⟩ := (hd.oracle hot).2.2 v rest ht
  have hstep := hread.step.trans (runBlocks_last (bl := .read .data) hu (by simp))
  refine ⟨busy.length + 1, _, (run_add hrun).trans ((run_one p).trans hstep), rfl, rfl, hd.calls.trans hp.calls, ?_, ?_⟩
  · rw [finish_events, hd.events, hp.events, hp.timing]
    rfl
  · rw [finish_pins, hd.pins, hp.pins]
    rfl

/-- Settles O59: a step runs the blocks of one operation, and under each of the premises every poll among them is over
after finitely many steps; the calls of a program do so one after another. -/
theorem operationsEndWhenTheFlagFalls : Obligations.OperationsEndWhenTheFlagFalls := by
  refine ⟨fun s hs hfalls => run_frees hs hfalls, fun i b s calls hi hclean hconf hcalls hfalls => ?_,
    fun i ws b s calls hws hclean hconf ho hcalls hends => ?_,
    fun b s calls busy sb v rest hclean hconf ho hphase hcalls hsenses hbusy hfree =>
      readDataReg_ends_under_oracle hclean hconf ho hphase.2 hcalls hsenses hbusy hfree,
    fun i b s L calls hi hclean hconf hm hcalls hcounts => ?_⟩
  · obtain ⟨n, t, v, hn, hended⟩ | ⟨n, e, hn, rfl | rfl, -⟩ := call_ends (endsByFalls_ending b i calls.length)
      hi hclean hconf hcalls (fun _ => ⟨hfalls, Nat.le_refl _⟩)
    · refine ⟨n, .inl ⟨t, v, hn, hended.seq, hended.calls, hended.reply, fun ws hws => ?_⟩⟩
      obtain ⟨hv, sensed, hrow⟩ := hended.row ws hws
      exact ⟨hv, hrow.pins, sensed, hrow.polls, hrow.events⟩
    · exact ⟨n, .inr (.inl hn)⟩
    · exact ⟨n, .inr (.inr hn)⟩
  · obtain ⟨n, t, hn, hended, hevents, hpins⟩ := writes_end_under_oracle hws hclean hconf ho hcalls hends
    exact ⟨n, t, hn, hended.seq, hended.reply, hended.calls, hevents, hpins⟩
  · obtain ⟨n, t, v, hn, hended⟩ | ⟨n, e, hn, rfl | rfl, -⟩ := call_ends (endsByCounts_ending b i)
      hi hclean hconf hcalls (fun _ => ⟨L, hm, countsEnd_of_countsFall hi hm hcounts⟩)
    · exact ⟨n, .inl ⟨t, hn, hended.seq, hended.calls, v, hended.reply⟩⟩
    · exact ⟨n, .inr (.inl hn)⟩
    · exact ⟨n, .inr (.inr hn)⟩

end Sys2Proof.Machine
end

section
/-! SUPPORT. The encoder commands with parameter bits: their bytes as sums and as R85's table, and `FunctionSet` as its
write followed by the phase flag (42_instruction_encoder.md R82 to R85). -/

namespace Sys2Proof.Machine

/-! ## Parameter bits as powers of two -/

theorem setEntryModeByte_eq_add (i s : Bool) :
    setEntryModeByte i s = BitVec.ofNat 8 (4 + 2 * i.toNat + s.toNat) := by
  revert i s
  decide

theorem displayControlByte_eq_add (d c b : Bool) :
    displayControlByte d c b = BitVec.ofNat 8 (8 + 4 * d.toNat + 2 * c.toNat + b.toNat) := by
  revert d c b
  decide

theorem cursorDisplayShiftByte_eq_add (d c : Bool) :
    cursorDisplayShiftByte d c = BitVec.ofNat 8 (16 + 8 * d.toNat + 4 * c.toNat) := by
  revert d c
  decide

/-! ## Function Set -/

theorem functionSetByte_eq_table (l : BusLength) (n : LineCount) (f : Font) :
    functionSetByte l n f = functionSetTable l n f := by
  cases l <;> cases n <;> cases f <;> rfl

/-- The flag is set by a block of its own, after the write and its poll, and changes nothing else (R85). -/
theorem writes_functionSet {b : Bindings} {s : State} (l : BusLength) (n : LineCount) (f : Font)
    (hclean : s.CleanEntry) (hconf : s.ConfiguredWith b) (ho : s.UnderOracle) (hc : s.PollsClear 1) :
    Writes (.functionSet l n f) [(.instruction, functionSetByte l n f)]
      { s.handle with startupComplete := true } s := by
  obtain ⟨k, sb, t, ht, hd⟩ := exec_paced (i := .functionSet l n f) (ws := [(.instruction, functionSetByte l n f)])
    (tail := [.setStartup]) rfl hclean hconf ho hc rfl (by rw [pacedBlocks_singleton]; rfl)
  have hflag : ({ t.handle with startupComplete := true } : Handle) = { s.handle with startupComplete := true } := by
    rw [hd.handle]
  exact ⟨_, ht, hd.events, hd.pins, hflag, rfl, rfl, hd.timing, hd.calls, hd.oracle⟩

end Sys2Proof.Machine
end

section
/-! PROOF. The statements about the Instruction Encoder (42_instruction_encoder.md): the constant bytes, the parameter
bits, and Function Set with the phase flag. -/

namespace Sys2Proof.Machine

/-- Settles O20: both commands only issue their byte. -/
theorem clearAndHomeIssueTheirBytes : Obligations.ClearAndHomeIssueTheirBytes := by
  intro b s hclean hconf ho hc
  exact ⟨writes_of_issuePlan rfl hclean hconf ho hc rfl, writes_of_issuePlan rfl hclean hconf ho hc rfl⟩

/-- Settles O21: the three commands only issue their byte, and the ORs and shifts of its rule are the sum. -/
theorem modeCommandsPackTheirBits : Obligations.ModeCommandsPackTheirBits := by
  intro x y z b s hclean hconf ho hc
  rw [← setEntryModeByte_eq_add, ← displayControlByte_eq_add, ← cursorDisplayShiftByte_eq_add]
  exact ⟨writes_of_issuePlan rfl hclean hconf ho hc rfl, writes_of_issuePlan rfl hclean hconf ho hc rfl,
    writes_of_issuePlan rfl hclean hconf ho hc rfl⟩

/-- Settles O22: the byte computed is the table's, and the flag is set behind its write; an unconfigured handle is
rejected before any of it. -/
theorem functionSetPacksAndMarksThePhase : Obligations.FunctionSetPacksAndMarksThePhase := by
  refine ⟨fun l n f b s hclean hconf ho hc => ?_, fun l n f s hq hun => exec_unconfigured rfl hq hun⟩
  rw [← functionSetByte_eq_table]
  exact writes_functionSet l n f hclean hconf ho hc

end Sys2Proof.Machine
end

section
/-! SUPPORT. Operations that read: the gate in front of a transfer, an operation that is one read, what `Configure`
answers, and the counter field as a remainder (43_register_access.md). -/

namespace Sys2Proof.Machine

/-- `sb & 0x7F` is the remainder by 128 (R90). -/
theorem counterField_eq_mod (sb : Byte) : counterField sb = BitVec.ofNat 7 (sb.toNat % 128) := by
  refine BitVec.eq_of_toNat_eq ?_
  rw [counterField, BitVec.toNat_setWidth, BitVec.toNat_and, BitVec.toNat_ofNat]
  exact congrArg (· % 2 ^ 7) (Nat.and_two_pow_sub_one_eq_mod sb.toNat 7)

/-- What an idle block answers `Configure`: the second call is refused before its bindings are looked at (R91). -/
theorem exec_configure_of_idle {d : DataBus} {dir : PortName} {l : ControlLines} {s : State} (hq : s.seq = .idle) :
    exec (.configure d dir l) s =
      if s.handle.configured then .refused .configuredTwice
      else if (Instr.configure d dir l).wellFormed then
        .next { s with
          handle := { configured := true, startupComplete := false, bindings := some (boundBy d dir l) }
          reply := some { status := .ok, value := .nothing } }
      else .refused .overlappingBindings := by
  have hwf : (Instr.configure d dir l).wellFormed = bindingsDistinct (boundBy d dir l) :=
    (bindingsDistinct_eq_wellFormed _).symm
  rw [hwf, exec, execConfigure, hq]

section
variable {b : Bindings} {i : Instr} {s : State}

/-- An operation that is one read with no gate completes on any controller that answers. -/
theorem exec_read_completes {r : Register} {x : Extract} (hi : ReachesBus i = true) (hclean : s.CleanEntry)
    (hconf : s.ConfiguredWith b) (ha : s.LcdAnswers r)
    (hplan : planOf i s.handle.startupComplete = { rejected := none, blocks := [.read r], returns := x }) :
    ∃ sb t, exec i s = .next (t.finish (x.value sb)) ∧ ReadDone b r sb { s with reply := none } t := by
  obtain ⟨sb, t, ht, hd⟩ := read_completes (b := b) (s := { s with reply := none }) 0 hclean.2 ha
  refine ⟨sb, t, ?_, hd⟩
  rw [exec_eq_operate hi, hplan, operate_runs hclean.1 hconf rfl]
  exact runBlocks_last ht (by simp)

/-- What the gate in front of a transfer leaves under the oracle, when it has sensed `polled` and `rest` is to come. -/
structure GateDone (polled rest : List Byte) (s t : State) : Prop where
  events : t.events = s.events ++ polled.flatMap (readEvents s.timing .instruction)
  enableLow : t.pins.e = false
  latch : t.pins.dbOut = s.pins.dbOut
  handle : t.handle = s.handle
  timing : t.timing = s.timing
  calls : t.calls = s.calls
  oracle : t.UnderOracle
  senses : t.draws.senses = rest

/-- The gate is nothing in phase 0 and one status read in phase 1, where that read sees bit 7 = 0
(41_busy_sync.md R75). -/
theorem runBlocks_pace {x : Extract} {k : Nat} {sb : Byte} {phase : Bool} {polled rest : List Byte}
    (he : s.pins.e = false) (ho : s.UnderOracle) (hsenses : s.draws.senses = polled ++ rest)
    (hlen : polled.length = phase.toNat) (hclear : ∀ c ∈ polled, busyFlag c = false) (bls : List Block) :
    ∃ k' sb' t, runBlocks b i x k (pace phase ++ bls) sb s = runBlocks b i x k' bls sb' t
      ∧ GateDone polled rest s t := by
  cases phase with
  | false =>
    obtain rfl := List.length_eq_zero_iff.1 hlen
    exact ⟨k, sb, s, rfl, ⟨by simp, he, rfl, rfl, rfl, rfl, ho, hsenses⟩⟩
  | true =>
    obtain ⟨c, rfl⟩ := List.length_eq_one_iff.1 hlen
    obtain ⟨c', t, hread⟩ := statusRead_completes b he
    have hd := hread.done
    obtain ⟨hot, -, hsensed⟩ := hd.oracle ho
    obtain ⟨rfl, hrest⟩ := hsensed c rest hsenses
    have hfree : busyFlag c' = false := hclear c' (List.mem_singleton_self _)
    exact ⟨k + 1, c', t, runBlocks_cons_next (hread sb) (fun _ => hfree),
      ⟨by rw [hd.events, List.flatMap_singleton], hread.enableLow, (congrArg Pins.dbOut hd.pins).trans rfl,
        hd.handle, hd.timing, hd.calls, hot, hrest⟩⟩

end

end Sys2Proof.Machine
end

section
/-! PROOF. The statements about the Data register, the read-back and `Configure` (43_register_access.md). -/

namespace Sys2Proof.Machine

/-- Settles O24: the operation is one paced write of its byte. -/
theorem writeDataRegSendsTheByte : Obligations.WriteDataRegSendsTheByte := by
  intro v b s hclean hconf ho hc
  refine writes_of_plan rfl hclean hconf ho hc ?_
  rw [pacedBlocks_singleton]
  rfl

/-- Settles O25: the gate takes the bytes the phase asks for, and the read behind it senses the next one. -/
theorem readDataRegReturnsTheByte : Obligations.ReadDataRegReturnsTheByte := by
  intro b s polled sb rest hclean hconf ho hsenses hlen hclear
  obtain ⟨k, c, t, hgate, hg⟩ := runBlocks_pace (b := b) (i := .readDataReg) (x := .byte) (k := 0) (sb := 0)
    (s := { s with reply := none }) hclean.2 ho hsenses hlen hclear [.read .data]
  obtain ⟨sb', u, hread, hd⟩ := read_completes (b := b) c hg.enableLow (answers_of_oracle hg.oracle .data)
  obtain ⟨rfl, -⟩ := (hd.oracle hg.oracle).2.2 sb rest hg.senses
  have hissue : exec .readDataReg s = runBlocks b .readDataReg .byte 0
      (planReadDataReg s.handle.startupComplete).blocks 0 { s with reply := none } := operate_runs hclean.1 hconf rfl
  have hexec := hissue.trans (hgate.trans (runBlocks_last hread (by simp)))
  refine ⟨_, hexec, ?_, rfl, ?_, hd.handle.trans hg.handle, rfl, hd.timing.trans hg.timing, hd.calls.trans hg.calls⟩
  · rw [finish_events, hd.events, hg.events, hg.timing]
    rfl
  · rw [finish_pins, hd.pins, idleAfterRead, hg.latch]
    rfl

/-- Settles O26: the operation is one status read without a gate, and the mask on the byte sensed is its remainder. -/
theorem readAddressCounterDropsBit7 : Obligations.ReadAddressCounterDropsBit7 := by
  refine ⟨fun b s hclean hconf => ?_, fun s hq hc => exec_unconfigured rfl hq hc⟩
  obtain ⟨sb, t, ht, hd⟩ := exec_read_completes (i := .readAddressCounter) rfl hclean hconf (answers_status s) rfl
  rw [Extract.value, counterField_eq_mod] at ht
  exact ⟨sb, _, ht, hd.events, rfl, hd.pins, hd.handle, rfl, hd.timing, hd.calls,
    fun x xs ho hx => ((hd.oracle ho).2.2 x xs hx).1⟩

/-- Settles O27: each clause is one branch of what an idle block answers. -/
theorem configureBindsTheHandleOnce : Obligations.ConfigureBindsTheHandleOnce := by
  intro d dir l s hq
  rw [exec_configure_of_idle hq]
  refine ⟨fun hc hw => ?_, fun hc hw => ?_, fun hc => ?_⟩
  · rw [hc, hw]
    rfl
  · rw [hc, hw]
    rfl
  · rw [hc]
    rfl

end Sys2Proof.Machine
end

section
/-! SUPPORT. Text Positioning as operations: an operation that is its row of paced writes, one that its own test
rejects, and how many writes `writeAt` makes (44_text_positioning.md R93 to R95). -/

namespace Sys2Proof.Machine

/-- An operation that makes paced writes and does not set the phase flag is its row of them and nothing else. -/
theorem planOf_eq_row {i : Instr} {ws : List (Register × Byte)} (hws : pacedWrites i = some ws)
    (hf : ∀ l n f, i ≠ .functionSet l n f) (phase : Bool) :
    planOf i phase = { rejected := none, blocks := pacedBlocks phase ws, returns := .nothing } := by
  obtain ⟨hrej, hret, tail, htail, hblocks⟩ := planOf_isRow hws phase
  obtain rfl : tail = [] := htail.resolve_right fun htail =>
    setStartup_not_mem_planOf (phase := phase) hf (by simp [hblocks, htail])
  rw [List.append_nil] at hblocks
  rw [← hrej, ← hret, ← hblocks]

theorem pacedWrites_clearCell {line pos : Nat} (h : (line = 1 ∨ line = 2) ∧ pos ≤ 16) :
    pacedWrites (.clearCell line pos) = some [addressWrite line pos, (.data, 0x20)] :=
  if_pos (acceptedText_clearCell.2 h)

theorem pacedWrites_writeAt {text : List Byte} {line pos : Nat} (hline : line = 1 ∨ line = 2) (hpos : pos ≤ 16)
    (htext : text.length ≤ 16 - pos) (cells : Nat) :
    pacedWrites (.writeAt text line pos cells) = some (writeAtWrites text line pos cells) :=
  if_pos (acceptedText_writeAt.2 ⟨hline, hpos, htext⟩)

theorem pacedWrites_writeLine {text : List Byte} {line : Nat} (hline : line = 1 ∨ line = 2) (htext : text.length ≤ 16) :
    pacedWrites (.writeLine text line) = some (writeAtWrites text line 0 16) :=
  if_pos (acceptedText_writeLine.2 ⟨hline, htext⟩)

section
variable {b : Bindings} {i : Instr} {s : State}

/-- Issued under the oracle with its polls clear, such an operation does these writes. -/
theorem writes_of_pacedWrites {ws : List (Register × Byte)} (hws : pacedWrites i = some ws)
    (hf : ∀ l n f, i ≠ .functionSet l n f) (hclean : s.CleanEntry) (hconf : s.ConfiguredWith b) (ho : s.UnderOracle)
    (hc : s.PollsClear ws.length) : Writes i ws s.handle s :=
  writes_of_plan (reachesBus_of_pacedWrites (by rw [hws]; rfl)) hclean hconf ho hc (planOf_eq_row hws hf _)

/-- An operation whose own test fails does nothing but reply (60_exceptions.md R104). -/
theorem exec_rejected {st : Status} (hi : ReachesBus i = true) (hq : s.seq = .idle)
    (hc : s.handle.configured = true) (hrej : (planOf i s.handle.startupComplete).rejected = some st) :
    exec i s = .next { s with reply := some { status := st, value := defaultValue i } } := by
  rw [← planOf_default i s.handle.startupComplete, ← reject_of_idle hq, exec_eq_operate hi]
  simp [operate, hq, hc, hrej]

/-- What an idle block answers `mapAddress`, on any handle (R92). -/
theorem exec_mapAddress_of_idle {line col : Nat} (hq : s.seq = .idle) :
    exec (.mapAddress line col) s
      = .next { s with reply := some { status := .ok, value := (mapAddress line col).elim .nothing .address } } := by
  simp only [exec, execMapAddress, hq]
  cases mapAddress line col <;> rfl

end

/-- Two writes for each cell cleared, one for the address, one for each byte of the text. -/
theorem writeAtWrites_length (text : List Byte) (line pos cells : Nat) :
    (writeAtWrites text line pos cells).length
      = 2 * ((List.range cells).filter (fun i => pos + i ≤ 16)).length + 1 + text.length := by
  simp [writeAtWrites, List.length_flatMap, Nat.mul_comm, Nat.add_assoc, Nat.add_comm 1]

end Sys2Proof.Machine
end

section
/-! PROOF. The statements about Text Positioning (44_text_positioning.md): the map, one cell cleared, text written. -/

namespace Sys2Proof.Machine

/-- Settles O28: an idle block answers what the map gives, and in range that is below 128, so that the seven bits keep
it. -/
theorem mapAddressComputes : Obligations.MapAddressComputes := by
  intro line col s hq
  rw [exec_mapAddress_of_idle hq]
  refine ⟨fun ⟨hline, hcol⟩ => ⟨_, ?_, by rw [mapAddress_in_range hline hcol]; rfl⟩,
    fun hout => by rw [mapAddress_out_of_range hout]; rfl⟩
  rw [BitVec.toNat_ofNat, cellAddress]
  omega

/-- A poll that sees the controller busy in front of the second write ends the step between the two. -/
theorem clearCell_stops_before_space {line pos : Nat} {b : Bindings} {s : State} {x y : Byte} {rest : List Byte}
    (hclean : s.CleanEntry) (hconf : s.ConfiguredWith b) (hin : (line = 1 ∨ line = 2) ∧ pos ≤ 16) (ho : s.UnderOracle)
    (hphase : s.handle.startupComplete = true) (hsenses : s.draws.senses = x :: y :: rest) (hx : busyFlag x = false)
    (hy : busyFlag y = true) :
    ∃ t, exec (.clearCell line pos) s = .next t ∧ t.seq = .at (.clearCell line pos) 2
      ∧ t.events = s.events ++ readEvents s.timing .instruction x
          ++ writeEvents s.timing (addressWrite line pos).1 (addressWrite line pos).2
          ++ readEvents s.timing .instruction y
      ∧ t.reply = none := by
  have hissue : exec (.clearCell line pos) s = runBlocks b (.clearCell line pos) .nothing 0
      [.poll, .write (addressWrite line pos).1 (addressWrite line pos).2, .poll, .write .data 0x20] 0
      { s with reply := none } := by
    have hplan := planOf_eq_row (pacedWrites_clearCell hin) (by simp) s.handle.startupComplete
    rw [exec_eq_operate rfl, operate_runs hclean.1 hconf (by rw [hplan]), hplan, hphase]
    rfl
  obtain ⟨c, t, hread⟩ := statusRead_completes b (s := { s with reply := none }) hclean.2
  have hdt := hread.done
  obtain ⟨hot, -, hsensed⟩ := hdt.oracle ho
  obtain ⟨rfl, hrest⟩ := hsensed x _ hsenses
  obtain ⟨u, hwrite, hdu⟩ := write_completes (b := b) (r := (addressWrite line pos).1) (v := (addressWrite line pos).2)
    c hread.enableLow (accepts_of_oracle hot _ _)
  obtain ⟨d, v, hread'⟩ := statusRead_completes b (s := u) (by rw [hdu.pins]; rfl)
  have hdv := hread'.done
  obtain ⟨rfl, -⟩ := (hdv.oracle (hdu.oracle hot).1).2.2 y rest (hdu.senses.trans hrest)
  refine ⟨{ v with seq := .at (.clearCell line pos) 2 }, ?_, rfl, ?_, ?_⟩
  · rw [hissue, runBlocks_cons_next (hread 0) (fun _ => hx), runBlocks_cons_next hwrite (by simp),
      runBlocks_poll_busy (hread' c) hy]
  · have hev : v.events = _ := hdv.events
    rw [hdu.events, hdt.events, hdu.timing, hdt.timing] at hev
    exact hev
  · exact hdv.reply.trans (hdu.reply.trans hdt.reply)

/-- Settles O29: in range the call is its row of two paced writes, out of range its plan is rejected. -/
theorem clearCellWritesASpace : Obligations.ClearCellWritesASpace := by
  intro line pos b s hclean hconf
  refine ⟨fun hin ho hc => ?_, fun hout => ?_, fun x y rest hin ho hphase hsenses hx hy => ?_⟩
  · exact writes_of_pacedWrites (pacedWrites_clearCell hin) (by simp) hclean hconf ho hc
  · refine exec_rejected rfl hclean.1 hconf.1 ?_
    rw [planOf, planClearCell, mapAddress_out_of_range hout]
  · exact clearCell_stops_before_space hclean hconf hin ho hphase hsenses hx hy

/-- Settles O30: an accepted call is its row of paced writes. -/
theorem writeAtClearsThenWrites : Obligations.WriteAtClearsThenWrites := by
  intro text line pos cells b s hline hpos htext hclean hconf ho hc
  exact ⟨writes_of_pacedWrites (pacedWrites_writeAt hline hpos htext cells) (by simp) hclean hconf ho hc,
    writeAtWrites_length text line pos cells⟩

/-- Settles O31: the call is the row of `writeAt` from column 0, whose sixteen cells all exist. -/
theorem writeLineClearsTheWholeLine : Obligations.WriteLineClearsTheWholeLine := by
  intro text line b s hline htext hclean hconf ho hc
  have hall : (List.range 16).filter (fun i => 0 + i ≤ 16) = List.range 16 := by decide
  have hlen : (writeAtWrites text line 0 16).length = 33 + text.length := by
    rw [writeAtWrites_length, hall, List.length_range]
  refine ⟨?_, ?_, hlen⟩
  · exact writes_of_pacedWrites (pacedWrites_writeLine hline htext) (by simp) hclean hconf ho (by rw [hlen]; exact hc)
  · rw [writeAtWrites, hall]
    simp only [Nat.zero_add]

end Sys2Proof.Machine
end

section
/-! SUPPORT. A row of writes to DDRAM on paper: from address to address, what the cells hold after it, and that the row
of an accepted `writeAt` leaves what `landed` says (44_text_positioning.md R94, R97). -/

namespace Sys2Proof.Machine

/-- What is known of the controller between two writes: the DDRAM address a byte would go to, if one has been set, and
what the cells of DDRAM hold. -/
structure Pen where
  place : Option Addr7
  cells : Nat → Byte

/-- One write moves the pen: an address of a line's range sets its place, a byte lands there and steps it by one, short
of the end of a range. -/
inductive Pen.Writes : Pen → Register × Byte → Pen → Prop where
  | address (p : Pen) {a : Addr7} (hrange : inLineRange a = true) :
      Pen.Writes p (.instruction, 1#1 ++ a) { place := some a, cells := p.cells }
  | byte (cells : Nat → Byte) (v : Byte) {a : Addr7} (hrange : inLineRange a = true) (hend : a ≠ 0x27 ∧ a ≠ 0x67) :
      Pen.Writes { place := some a, cells := cells } (.data, v)
        { place := some (a + 1), cells := Function.update cells a.toNat v }

/-- A row of writes moves it. -/
inductive Pen.Row : Pen → List (Register × Byte) → Pen → Prop where
  | nil (p : Pen) : Pen.Row p [] p
  | cons {p q r : Pen} {w : Register × Byte} {ws : List (Register × Byte)} (hw : p.Writes w q) (hws : q.Row ws r) :
      Pen.Row p (w :: ws) r

theorem Pen.Row.append {p q r : Pen} {ws vs : List (Register × Byte)} (hws : p.Row ws q) (hvs : q.Row vs r) :
    p.Row (ws ++ vs) r := by
  induction hws with
  | nil p => exact hvs
  | cons hw _ ih => exact .cons hw (ih hvs)

theorem Pen.Row.single {p q : Pen} {w : Register × Byte} (hw : p.Writes w q) : p.Row [w] q := .cons hw (.nil q)

/-! ## The cells of a line -/

/-- The DDRAM address of a cell, as the controller holds it. -/
def cellPlace (line col : Nat) : Addr7 := BitVec.ofNat 7 (cellAddress line col)

theorem addressWrite_eq (line col : Nat) (h : cellAddress line col < 128) :
    addressWrite line col = (.instruction, 1#1 ++ cellPlace line col) := by
  rw [addressWrite, cellPlace, ← setDisplayDataAddressByte_eq, setDisplayDataAddressByte_eq_add, Nat.mod_eq_of_lt h]

theorem cellPlace_succ (line col : Nat) : cellPlace line col + 1 = cellPlace line (col + 1) :=
  (BitVec.ofNat_add _ _).symm

section
variable {line col : Nat} (hline : line = 1 ∨ line = 2) (hcol : col ≤ 16)
include hline hcol

theorem cellAddress_lt : cellAddress line col < 128 := by
  unfold cellAddress
  omega

theorem cellPlace_toNat : (cellPlace line col).toNat = cellAddress line col := by
  rw [cellPlace, BitVec.toNat_ofNat, Nat.mod_eq_of_lt (cellAddress_lt hline hcol)]

/-- Each cell a call can reach lies in a line's range, short of its end. -/
theorem cellPlace_inside :
    inLineRange (cellPlace line col) = true ∧ cellPlace line col ≠ 0x27 ∧ cellPlace line col ≠ 0x67 := by
  have key : ∀ c ≤ 16, ∀ l, l = 1 ∨ l = 2 →
      inLineRange (cellPlace l c) = true ∧ cellPlace l c ≠ 0x27 ∧ cellPlace l c ≠ 0x67 := by
    rintro c hc l (rfl | rfl)
    · revert c
      decide
    · revert c
      decide
  exact key col hcol line hline

theorem Pen.writes_address (p : Pen) :
    p.Writes (addressWrite line col) { place := some (cellPlace line col), cells := p.cells } := by
  rw [addressWrite_eq line col (cellAddress_lt hline hcol)]
  exact .address p (cellPlace_inside hline hcol).1

theorem Pen.writes_byte (cells : Nat → Byte) (v : Byte) :
    Pen.Writes { place := some (cellPlace line col), cells := cells } (.data, v)
      { place := some (cellPlace line (col + 1)), cells := Function.update cells (cellAddress line col) v } := by
  obtain ⟨hrange, hend⟩ := cellPlace_inside hline hcol
  rw [← cellPlace_succ, ← cellPlace_toNat hline hcol]
  exact .byte cells v hrange hend

end

/-! ## The row of `writeAt` -/

theorem landed_nil (line pos n : Nat) (cells : Nat → Byte) (a : Nat) :
    landed [] line pos n cells a
      = if cellAddress line pos ≤ a ∧ a < cellAddress line pos + n ∧ a ≤ cellAddress line 16 then 0x20 else cells a :=
  if_neg fun h => absurd h.2 (Nat.not_lt.2 h.1)

@[simp] theorem landed_nil_zero (line pos : Nat) (cells : Nat → Byte) : landed [] line pos 0 cells = cells := by
  funext a
  exact (landed_nil line pos 0 cells a).trans (if_neg fun h => absurd h.2.1 (Nat.not_lt.2 h.1))

theorem landed_zero (text : List Byte) (line pos : Nat) (cells : Nat → Byte) (a : Nat) :
    landed text line pos 0 cells a
      = if cellAddress line pos ≤ a ∧ a < cellAddress line pos + text.length then
          text.getD (a - cellAddress line pos) 0x20
        else cells a := by
  have hzero : ¬(cellAddress line pos ≤ a ∧ a < cellAddress line pos + 0 ∧ a ≤ cellAddress line 16) := by omega
  rw [landed, if_neg hzero]

/-- A byte, then the rest of the text one column on. -/
theorem landed_cons (v : Byte) (text : List Byte) (line col : Nat) (cells : Nat → Byte) :
    landed text line (col + 1) 0 (Function.update cells (cellAddress line col) v)
      = landed (v :: text) line col 0 cells := by
  have hsucc : cellAddress line (col + 1) = cellAddress line col + 1 := rfl
  funext a
  rw [landed_zero, landed_zero, hsucc, Function.update_apply, List.length_cons]
  obtain hlt | rfl | hgt := Nat.lt_trichotomy a (cellAddress line col)
  · rw [if_neg (by omega), if_neg (by omega), if_neg (by omega)]
  · rw [if_neg (by omega), if_pos rfl, if_pos (by omega), Nat.sub_self, List.getD_cons_zero]
  · have hindex : a - cellAddress line col = a - (cellAddress line col + 1) + 1 := by omega
    have hiff : (cellAddress line col + 1 ≤ a ∧ a < cellAddress line col + 1 + text.length)
        ↔ cellAddress line col ≤ a ∧ a < cellAddress line col + (text.length + 1) := by omega
    rw [hindex, List.getD_cons_succ, if_neg (by omega : a ≠ cellAddress line col)]
    simp only [hiff]

/-- The text from a column on. -/
theorem Pen.row_text {line : Nat} (hline : line = 1 ∨ line = 2) : ∀ (text : List Byte) {col : Nat}
    (cells : Nat → Byte), col + text.length ≤ 17 →
      Pen.Row { place := some (cellPlace line col), cells := cells } (text.map fun c => (.data, c))
        { place := some (cellPlace line (col + text.length)), cells := landed text line col 0 cells }
  | [], col, cells, _ => by
    rw [landed_nil_zero]
    exact .nil _
  | v :: text, col, cells, hlen => by
    rw [List.length_cons] at hlen
    have hrest := Pen.row_text hline text (col := col + 1) (Function.update cells (cellAddress line col) v) (by omega)
    rw [landed_cons, Nat.add_assoc, Nat.add_comm 1] at hrest
    exact .cons (Pen.writes_byte hline (by omega) cells v) hrest

/-- One more cell cleared, where it exists. -/
theorem landed_nil_succ (line pos n : Nat) (cells : Nat → Byte) :
    landed [] line pos (n + 1) cells
      = if pos + n ≤ 16 then Function.update (landed [] line pos n cells) (cellAddress line (pos + n)) 0x20
        else landed [] line pos n cells := by
  have hn : cellAddress line (pos + n) = cellAddress line pos + n := (Nat.add_assoc _ _ _).symm
  have h16 : cellAddress line 16 + pos = cellAddress line pos + 16 := Nat.add_right_comm _ _ _
  split
  · funext a
    rw [landed_nil, Function.update_apply, landed_nil, hn]
    obtain rfl | hne := eq_or_ne a (cellAddress line pos + n)
    · rw [if_pos (by omega), if_pos rfl]
    · have hiff : (cellAddress line pos ≤ a ∧ a < cellAddress line pos + (n + 1) ∧ a ≤ cellAddress line 16)
          ↔ cellAddress line pos ≤ a ∧ a < cellAddress line pos + n ∧ a ≤ cellAddress line 16 := by omega
      rw [if_neg hne]
      simp only [hiff]
  · funext a
    have hiff : (cellAddress line pos ≤ a ∧ a < cellAddress line pos + (n + 1) ∧ a ≤ cellAddress line 16)
        ↔ cellAddress line pos ≤ a ∧ a < cellAddress line pos + n ∧ a ≤ cellAddress line 16 := by omega
    rw [landed_nil, landed_nil]
    simp only [hiff]

/-- The clearing loop. -/
theorem Pen.row_clear {line : Nat} (hline : line = 1 ∨ line = 2) (pos : Nat) (p : Pen) : ∀ n : Nat,
    ∃ place, p.Row (((List.range n).filter (fun i => pos + i ≤ 16)).flatMap
        fun i => [addressWrite line (pos + i), (.data, 0x20)])
      { place := place, cells := landed [] line pos n p.cells }
  | 0 => by
    rw [landed_nil_zero]
    exact ⟨p.place, .nil p⟩
  | n + 1 => by
    obtain ⟨place, hrow⟩ := Pen.row_clear hline pos p n
    rw [List.range_succ, List.filter_append, List.flatMap_append, landed_nil_succ]
    by_cases hn : pos + n ≤ 16
    · rw [if_pos hn, List.filter_cons_of_pos (by simpa using hn), List.filter_nil, List.flatMap_singleton]
      exact ⟨_, hrow.append (.cons (Pen.writes_address hline hn _) (.single (Pen.writes_byte hline hn _ _)))⟩
    · rw [if_neg hn, List.filter_cons_of_neg (by simpa using hn), List.filter_nil, List.flatMap_nil, List.append_nil]
      exact ⟨place, hrow⟩

/-- The text lies over what the loop has cleared. -/
theorem landed_landed_nil (text : List Byte) (line pos n : Nat) (cells : Nat → Byte) :
    landed text line pos 0 (landed [] line pos n cells) = landed text line pos n cells := by
  funext a
  rw [landed_zero, landed_nil, landed]

/-- The row of an accepted `writeAt` leaves what R94 and R97 say, whatever it starts from. -/
theorem Pen.row_writeAt {text : List Byte} {line pos : Nat} (hline : line = 1 ∨ line = 2) (hpos : pos ≤ 16)
    (htext : text.length ≤ 16 - pos) (n : Nat) (p : Pen) :
    ∃ place, p.Row (writeAtWrites text line pos n) { place := place, cells := landed text line pos n p.cells } := by
  obtain ⟨place, hclear⟩ := Pen.row_clear hline pos p n
  have hrow := (hclear.append (.single (Pen.writes_address hline hpos _))).append
    (Pen.row_text hline text _ (by omega))
  rw [landed_landed_nil] at hrow
  exact ⟨_, hrow⟩

end Sys2Proof.Machine
end

section
/-! SUPPORT. What an account of the controller tells of a row of writes, each of which finds it not processing: its cells
at the end are those the pen leaves (20_memory.md R45, P3 and P4; 44_text_positioning.md R97). -/

namespace Sys2Proof.Machine

/-! ## From one access to the next -/

/-- What follows in an account is an account of its own. -/
theorem eachAccess_suffix {done : Seen → Transfer → Seen → Prop} {last : Seen} {rest : List (Seen × Transfer)} :
    ∀ {before : List (Seen × Transfer)}, EachAccess done (before ++ rest) last → EachAccess done rest last
  | [], h => h
  | _ :: _, h => eachAccess_suffix h.2

/-- The transfers of a row that are no status reads. -/
def accesses (trs : List Transfer) : List Transfer := trs.filter fun tr => !tr.isStatusRead

theorem atFirstAccess_of_none {last : Seen} :
    ∀ {run : List (Seen × Transfer)}, accesses (run.map (·.2)) = [] → atFirstAccess run last = last
  | [], _ => rfl
  | (x, tr) :: rest, h => by
    cases htr : tr.isStatusRead with
    | true =>
      rw [atFirstAccess, if_pos htr]
      exact atFirstAccess_of_none (by simpa [accesses, htr] using h)
    | false => simp [accesses, htr] at h

/-- The first access of an account, and what follows it. -/
theorem split_at_access {last : Seen} {tr : Transfer} {trs : List Transfer} : ∀ {run : List (Seen × Transfer)},
    accesses (run.map (·.2)) = tr :: trs →
      ∃ before rest, run = before ++ (atFirstAccess run last, tr) :: rest ∧ accesses (rest.map (·.2)) = trs
  | [], h => by cases h
  | (x, tr') :: rest, h => by
    cases htr : tr'.isStatusRead with
    | true =>
      obtain ⟨before, rest', hrest, htrs⟩ :=
        split_at_access (run := rest) (by simpa [accesses, htr] using h)
      rw [atFirstAccess, if_pos htr]
      exact ⟨(x, tr') :: before, rest', congrArg ((x, tr') :: ·) hrest, htrs⟩
    | false =>
      obtain ⟨rfl, htrs⟩ : tr' = tr ∧ accesses (rest.map (·.2)) = trs := by simpa [accesses, htr] using h
      exact ⟨[], rest, by rw [atFirstAccess, htr]; rfl, htrs⟩

/-- What has settled is there at the next access, or at the end, if that finds the controller not processing. -/
theorem Settled.at_access {Q : Seen → Prop} {last : Seen} : ∀ {run : List (Seen × Transfer)}, Settled Q run last →
    (atFirstAccess run last).processing = false → Q (atFirstAccess run last)
  | [], h, hfree => h hfree
  | (x, tr) :: rest, h, hfree => by
    cases htr : tr.isStatusRead with
    | true =>
      rw [atFirstAccess, if_pos htr] at hfree ⊢
      exact (h.2 htr).at_access hfree
    | false =>
      rw [atFirstAccess, htr] at hfree ⊢
      exact h.1 hfree

/-- Every access of an account, and its end, find the controller not processing. -/
structure FindsFree (run : List (Seen × Transfer)) (last : Seen) : Prop where
  each : ∀ p ∈ run, p.2.isStatusRead = false → p.1.processing = false
  last : last.processing = false

theorem FindsFree.at_access {last : Seen} : ∀ {run : List (Seen × Transfer)}, FindsFree run last →
    (atFirstAccess run last).processing = false
  | [], h => h.last
  | (x, tr) :: rest, h => by
    cases htr : tr.isStatusRead with
    | true =>
      rw [atFirstAccess, if_pos htr]
      exact FindsFree.at_access ⟨fun p hp => h.each p (List.mem_cons_of_mem _ hp), h.last⟩
    | false =>
      rw [atFirstAccess, htr]
      exact h.each _ (List.mem_cons_self ..) htr

/-! ## Text in an account -/

/-- What a claim about text takes of an account. -/
structure TextPremises (run : List (Seen × Transfer)) (last : Seen) : Prop where
  p3 : P3 run last
  p4 : P4 run last
  stay : CellsStay run last
  increment : IncrementThroughout run
  free : FindsFree run last

theorem TextPremises.suffix {before rest : List (Seen × Transfer)} {last : Seen}
    (h : TextPremises (before ++ rest) last) : TextPremises rest last where
  p3 := eachAccess_suffix h.p3
  p4 := eachAccess_suffix h.p4
  stay := eachAccess_suffix h.stay
  increment := fun p hp => h.increment p (List.mem_append_right _ hp)
  free := ⟨fun p hp => h.free.each p (List.mem_append_right _ hp), h.free.last⟩

/-- Under them what an access does is done at the next one. -/
theorem TextPremises.done {done : Seen → Transfer → Seen → Prop} {x : Seen} {tr : Transfer}
    {rest : List (Seen × Transfer)} {last : Seen} (h : TextPremises ((x, tr) :: rest) last)
    (hdone : EachAccess done ((x, tr) :: rest) last) (htr : tr.isStatusRead = false) :
    done x tr (atFirstAccess rest last) := by
  have hrest : TextPremises rest last := h.suffix (before := [(x, tr)])
  exact (hdone.1 htr (h.free.each _ (List.mem_cons_self ..) htr)).at_access hrest.free.at_access

/-- The controller is as the pen has it, and its CGRAM holds `cgram`. -/
structure Seen.Shows (cgram : Nat → Byte) (x : Seen) (p : Pen) : Prop where
  ddram : x.cell .ddram = p.cells
  cgram : x.cell .cgram = cgram
  place : ∀ a, p.place = some a → x.space = .ddram ∧ x.ac = a

/-- One write, told by the premises, moves the controller as it moves the pen. -/
theorem Seen.Shows.writes {cgram : Nat → Byte} {x : Seen} {p q : Pen} {w : Register × Byte}
    {rest : List (Seen × Transfer)} {last : Seen} (hx : x.Shows cgram p) (hw : p.Writes w q)
    (h : TextPremises ((x, .write w.1 w.2) :: rest) last) : (atFirstAccess rest last).Shows cgram q := by
  cases hw with
  | @address _ a hrange =>
    obtain ⟨hac, hspace⟩ := h.done h.p3 rfl a rfl hrange
    have hcell := fun sp n => h.done h.stay rfl sp n (.inl ⟨a, rfl⟩)
    exact ⟨(funext (hcell _)).trans hx.ddram, (funext (hcell _)).trans hx.cgram,
      fun a' ha' => ⟨hspace, hac.trans (Option.some.inj ha')⟩⟩
  | @byte cells v a hrange hend =>
    obtain ⟨hspace, rfl⟩ := hx.place a rfl
    have hplace : x.place = x.ac.toNat := by rw [Seen.place, hspace]
    have hnext : x.HasNext := by
      rw [Seen.HasNext, hspace]
      exact ⟨hrange, hend⟩
    obtain ⟨hstored, hstep⟩ := h.done h.p4 rfl v rfl
    obtain ⟨hac, hspace'⟩ := hstep (h.increment _ (List.mem_cons_self ..)) hnext
    have hother := fun sp n hn => h.done h.stay rfl sp n (.inr ⟨v, rfl, hn⟩)
    refine ⟨funext fun n => ?_, (funext fun n => ?_).trans hx.cgram,
      fun a' ha' => ⟨hspace'.trans hspace, hac.trans (Option.some.inj ha')⟩⟩
    · by_cases hn : n = x.ac.toNat
      · have hstored := hstored fun _ => hrange
        rw [hspace, hplace, ← hn] at hstored
        rw [hstored, hn]
        exact (Function.update_self x.ac.toNat v cells).symm
      · rw [hother .ddram n fun hat => hn (hat.2.trans hplace), hx.ddram]
        exact (Function.update_of_ne hn ..).symm
    · exact hother .cgram n fun hat => by
        rw [hspace] at hat
        cases hat.1

/-- A row of writes, told by the premises, leaves the controller as the pen. -/
theorem Pen.Row.shows {cgram : Nat → Byte} {p q : Pen} {ws : List (Register × Byte)} (hrow : p.Row ws q) {last : Seen} :
    ∀ {run : List (Seen × Transfer)}, TextPremises run last →
      accesses (run.map (·.2)) = ws.map (fun w => .write w.1 w.2) → (atFirstAccess run last).Shows cgram p →
      last.Shows cgram q := by
  induction hrow with
  | nil p =>
    intro run _ hrun hx
    rwa [atFirstAccess_of_none hrun] at hx
  | cons hw _ ih =>
    intro run h hrun hx
    obtain ⟨before, rest, hsplit, hrest⟩ := split_at_access (last := last) hrun
    rw [hsplit] at h
    have hfrom := h.suffix
    exact ih (hfrom.suffix (before := [_])) hrest (hx.writes hw hfrom)

/-! ## Behind its polls every access finds the controller free -/

/-- Each access comes right after a status read that has seen bit 7 = 0. -/
def BehindPolls (trs : List Transfer) : Prop :=
  ∀ before tr, before ++ [tr] <+: trs → tr.isStatusRead = false →
    ∃ earlier sb, before = earlier ++ [.read .instruction sb] ∧ busyFlag sb = false

theorem p1_suffix {last : Seen} {rest : List (Seen × Transfer)} :
    ∀ {before : List (Seen × Transfer)}, P1 true (before ++ rest) last → P1 true rest last
  | [], h => h
  | _ :: _, h => p1_suffix ⟨eachStatusRead_tail h.1, h.2.2⟩

theorem P1.findsFree {run : List (Seen × Transfer)} {last : Seen} (h : P1 true run last)
    (hw : BehindPolls (run.map (·.2))) (hlast : last.processing = false) : FindsFree run last := by
  refine ⟨fun p hp hacc => ?_, hlast⟩
  obtain ⟨before, rest, rfl⟩ := List.append_of_mem hp
  obtain ⟨earlier, sb, hbefore, hfree⟩ := hw (before.map (·.2)) p.2 ⟨rest.map (·.2), by simp⟩ hacc
  obtain ⟨l, m, rfl, -, hm⟩ := List.map_eq_append_iff.1 hbefore
  obtain ⟨⟨y, tr⟩, n, rfl, rfl, hn⟩ := List.map_eq_cons_iff.1 hm
  obtain rfl := List.map_eq_nil_iff.1 hn
  rw [List.append_assoc] at h
  obtain ⟨hread, hstays⟩ := p1_suffix h
  exact hstays.1 rfl ((hread.1 rfl).symm.trans hfree)

end Sys2Proof.Machine
end

section
/-! SUPPORT. The run of a call that is a row of paced writes, on any controller and however long its polls last: where it
can stand, and the transfers it has made when it is over (41_busy_sync.md R74, R75). -/

namespace Sys2Proof.Machine

/-- A step lets the host's stream be, and where it does so from an idle block nothing happens; or it takes a call. -/
theorem step_calls {s t : State} (h : step s = .next t) :
    (t.calls = s.calls ∧ (s.seq = .idle → t = s)) ∨ t.calls.length < s.calls.length := by
  have htaken : ∀ {i c cs}, s.calls = c :: cs → exec i { s with calls := cs } = .next t →
      t.calls.length < s.calls.length := by
    intro i c cs hc hexec
    rw [hc, (running_continues (.inl hexec)).calls]
    exact Nat.lt_succ_self _
  obtain hq | ⟨i, k, hq⟩ : s.seq = .idle ∨ ∃ i k, s.seq = .at i k := by
    cases s.seq <;> simp
  · cases hc : s.calls with
    | nil =>
      simp only [step, hq, fetch, hc] at h
      injection h with h
      exact .inl ⟨h ▸ hc, fun _ => h.symm⟩
    | cons c cs =>
      rw [← hc]
      refine .inr ?_
      cases c with
      | op i => exact htaken hc ((step_issues hq hc).symm.trans h)
      | hostDelay d =>
        simp only [step, hq, fetch, hc] at h
        injection h with h
        rw [← h, hostWait_calls, hc]
        exact Nat.lt_succ_self _
      | word w =>
        cases hw : decode w with
        | ok i => exact htaken hc ((((stepRunsTheNextCall s cs).1 hq).2.1 w i hc hw).symm.trans h)
        | error e =>
          simp only [step, hq, fetch, hc, hw] at h
          cases h
  · exact .inl ⟨(running_continues (.inr ⟨k, hq, h⟩)).calls, fun hidle => by rw [hq] at hidle; cases hidle⟩

/-- The transfers a row of paced writes has made: these writes, and in phase 1 each right after a poll that is over. -/
structure RowMade (phase : Bool) (ws : List (Register × Byte)) (trs : List Transfer) : Prop where
  writes : accesses trs = ws.map fun w => .write w.1 w.2
  polls : phase = true → BehindPolls trs

theorem rowMade_nil (phase : Bool) : RowMade phase [] [] :=
  ⟨rfl, fun _ before tr h => by simp at h⟩

section
variable {phase : Bool} {ws : List (Register × Byte)} {trs : List Transfer}

theorem RowMade.read (h : RowMade phase ws trs) (sb : Byte) : RowMade phase ws (trs ++ [.read .instruction sb]) where
  writes := by rw [accesses, List.filter_append, ← accesses, h.writes]; exact List.append_nil _
  polls := fun hp before tr hpre htr => by
    obtain heq | hpre := List.prefix_concat_iff.1 hpre
    · obtain ⟨-, rfl⟩ := List.append_singleton_inj.1 heq
      cases htr
    · exact h.polls hp before tr hpre htr

theorem RowMade.write (h : RowMade phase ws trs) (w : Register × Byte)
    (hpoll : phase = true → ∃ earlier sb, trs = earlier ++ [.read .instruction sb] ∧ busyFlag sb = false) :
    RowMade phase (ws ++ [w]) (trs ++ [.write w.1 w.2]) where
  writes := by rw [accesses, List.filter_append, ← accesses, h.writes, List.map_append]; rfl
  polls := fun hp before tr hpre htr => by
    obtain heq | hpre := List.prefix_concat_iff.1 hpre
    · obtain ⟨rfl, -⟩ := List.append_singleton_inj.1 heq
      exact hpoll hp
    · exact h.polls hp before tr hpre htr

end

/-- In phase 1 by P1 and the polls, in phase 0 by premise, each write of the row finds the controller free. -/
theorem RowMade.findsFree {phase : Bool} {ws : List (Register × Byte)} {run : List (Seen × Transfer)} {last : Seen}
    (h : RowMade phase ws (run.map (·.2))) (h1 : phase = true → P1 true run last)
    (h0 : phase = false → ∀ p ∈ run, p.1.processing = false) (hlast : last.processing = false) :
    FindsFree run last := by
  cases phase with
  | false => exact ⟨fun p hp _ => h0 rfl p hp, hlast⟩
  | true => exact (h1 rfl).findsFree (h.polls rfl) hlast

/-- Where a run from `s` can stand whose first call is a row `ws` of paced writes, `calls` being those to come after it:
in the call, with a part of the row made and the next step to run the rest; at its end; or in a later call. -/
inductive InRow (b : Bindings) (i : Instr) (phase : Bool) (ws : List (Register × Byte)) (calls : List Call)
    (s : State) : State → Prop where
  | going {u v : State} {k : Nat} {sb : Byte} {made rest : List (Register × Byte)} {trs : List Transfer}
      (hopen : u.seq = .idle → u.calls ≠ calls) (hdoing : Doing b i .nothing k (pacedBlocks phase rest) u sb v)
      (hmade : s.Made trs v) (hcalls : v.calls = calls) (hrow : RowMade phase made trs) (hws : made ++ rest = ws) :
      InRow b i phase ws calls s u
  | ended {u : State} {trs : List Transfer} (hcalls : u.calls = calls) (hq : u.seq = .idle) (hmade : s.Made trs u)
      (hrow : RowMade phase ws trs) : InRow b i phase ws calls s u
  | later {u : State} (hcalls : u.calls.length < calls.length) : InRow b i phase ws calls s u

section
variable {b : Bindings} {i : Instr} {phase : Bool} {ws : List (Register × Byte)} {calls : List Call} {s p t : State}

/-- The step that runs the rest of the row ends at a poll that sees the controller busy, or at the row's end. -/
theorem Doing.inRow (hstep : Machine.step p = .next t) : ∀ (rest : List (Register × Byte)) {k : Nat} {sb : Byte}
    {v : State} {made : List (Register × Byte)} {trs : List Transfer},
    Doing b i .nothing k (pacedBlocks phase rest) p sb v → s.Made trs v → v.calls = calls → RowMade phase made trs →
      made ++ rest = ws → InRow b i phase ws calls s t
  | [], k, sb, v, made, trs, h, hmade, hcalls, hrow, hws => by
    have hend : v.finish .nothing = t := Host.Outcome.next.inj (h.step.symm.trans hstep)
    subst hend
    rw [List.append_nil] at hws
    exact .ended hcalls rfl hmade (hws ▸ hrow)
  | w :: rest, k, sb, v, made, trs, h, hmade, hcalls, hrow, hws => by
    have hwrite : ∀ {k sb v trs}, Doing b i .nothing k (.write w.1 w.2 :: pacedBlocks phase rest) p sb v →
        s.Made trs v → v.calls = calls → RowMade phase made trs →
        (phase = true → ∃ earlier sb, trs = earlier ++ [.read .instruction sb] ∧ busyFlag sb = false) →
        InRow b i phase ws calls s t := by
      intro k sb v trs h hmade hcalls hrow hpoll
      obtain ⟨c, u, hu, -⟩ := runBlocks_cons_cases (h.step.symm.trans hstep)
      obtain ⟨-, hd⟩ := write_done h.enableLow hu
      exact Doing.inRow hstep rest (h.next hu (by simp) fun _ => hd.handle) (hmade.write hd) (hd.calls.trans hcalls)
        (hrow.write w hpoll) (by rw [List.append_assoc]; exact hws)
    rw [pacedBlocks_cons] at h
    cases phase with
    | false => exact hwrite h hmade hcalls hrow fun hp => by cases hp
    | true =>
      obtain ⟨c, u, hread⟩ := statusRead_completes b h.enableLow
      have hd := hread.done
      have hmade := hmade.read hd
      cases hc : busyFlag c with
      | false =>
        exact hwrite (h.next (hread sb) (fun _ => hc) fun _ => hd.handle) hmade (hd.calls.trans hcalls)
          (hrow.read c) fun _ => ⟨trs, c, rfl, hc⟩
      | true =>
        obtain ⟨hwaits, hagain⟩ := h.waits hread hc
        obtain rfl := Host.Outcome.next.inj (hwaits.symm.trans hstep)
        exact .going (rest := w :: rest) (v := { u with seq := .at i k }) (fun hq => by cases hq)
          (by rw [pacedBlocks_cons]; exact hagain) hmade (hd.calls.trans hcalls) (hrow.read c) hws

theorem step_keeps_inRow (hp : InRow b i phase ws calls s p) (hstep : step p = .next t) :
    InRow b i phase ws calls s t := by
  cases hp with
  | going _ hdoing hmade hcalls hrow hws => exact Doing.inRow hstep _ hdoing hmade hcalls hrow hws
  | ended hcalls hq hmade hrow =>
    obtain ⟨-, hsame⟩ | htaken := step_calls hstep
    · obtain rfl := hsame hq
      exact .ended hcalls hq hmade hrow
    · exact .later (hcalls ▸ htaken)
  | later hcalls =>
    obtain ⟨hsame, -⟩ | htaken := step_calls hstep
    · exact .later (hsame ▸ hcalls)
    · exact .later (htaken.trans hcalls)

/-- A call that is a row of paced writes, once it is over, has made the row. -/
theorem rowMade_of_run {m : Nat} (hws : pacedWrites i = some ws) (hf : ∀ l n f, i ≠ .functionSet l n f)
    (hclean : s.CleanEntry) (hconf : s.ConfiguredWith b) (hcalls : s.calls = .op i :: calls)
    (hrun : Host.Core.run core m s = .next t) (hq : t.seq = .idle) (hend : t.calls = calls) :
    RowMade s.handle.startupComplete ws (s.since t) := by
  have hplan := planOf_eq_row hws hf s.handle.startupComplete
  have hdoing := doing_of_call hclean hconf (reachesBus_of_pacedWrites (by rw [hws]; rfl)) (by rw [hplan]) hcalls
  rw [hplan] at hdoing
  have hstart : InRow b i s.handle.startupComplete ws calls s s :=
    .going (made := []) (fun _ h => by simp [hcalls] at h) hdoing (made_nil s) rfl (rowMade_nil _) rfl
  have ht := run_keeps (P := InRow b i s.handle.startupComplete ws calls s) (fun _ _ => step_keeps_inRow) m s t hstart
    hrun
  cases ht with
  | going hopen => exact absurd hend (hopen hq)
  | ended _ _ hmade hrow => exact hmade.since ▸ hrow
  | later hless => exact absurd hless (by rw [hend]; exact Nat.lt_irrefl _)

end

end Sys2Proof.Machine
end

section
/-! SUPPORT. A row of paced writes in front of the reference responder that is never busy at a poll: it stores what the
pen writes (20_memory.md R47, R48, R50). -/

namespace Sys2Proof.Machine

/-- The responder is as the pen has it, in increment mode, and its CGRAM is `cgram`. -/
structure Responder.Shows (cgram : Memory) (L : Responder) (p : Pen) : Prop where
  wf : L.ddram.wf ddramUnlisted = true
  increment : L.increment = true
  ddram : L.ddram.read ddramUnlisted = p.cells
  cgram : L.cgram = cgram
  place : ∀ a, p.place = some a → L.space = .ddram ∧ L.ac = a

/-- The responder takes one write, and that moves it as it moves the pen. -/
theorem Responder.Shows.takes {cgram : Memory} {L : Responder} {p q : Pen} {w : Register × Byte}
    (hL : L.Shows cgram p) (hw : p.Writes w q) (d : Busy) :
    ∃ L', L.accept (rsLevel w.1) w.2 d = .ok L' ∧ L'.Shows cgram q ∧ L'.busy = d := by
  cases hw with
  | @address _ a hrange =>
    exact ⟨_, accept_instruction (instruct_setDdram L.noteArrival a) d,
      ⟨hL.wf, hL.increment, hL.ddram, hL.cgram, fun a' ha' => ⟨rfl, Option.some.inj ha'⟩⟩, rfl⟩
  | @byte cells v a hrange hend =>
    obtain ⟨hspace, rfl⟩ := hL.place a rfl
    obtain ⟨M, hM⟩ := store_ok (L := L.noteArrival) (.inr hrange) v
    refine ⟨_, accept_data hM d, ?_, rfl⟩
    obtain ⟨-, -, rfl⟩ | ⟨hcgram, -⟩ := store_cases hM
    · have hnext : nextCounter L.space L.increment L.ac = L.ac + 1 := by
        rw [hspace, hL.increment, nextCounter, if_neg hend.1, if_neg hend.2]
      refine ⟨Memory.write_wf _ _ _ _ hL.wf, hL.increment, funext fun n => ?_, hL.cgram,
        fun a' ha' => ⟨hspace, hnext.trans (Option.some.inj ha')⟩⟩
      refine (Memory.read_write_eq hL.wf L.ac.toNat v n).trans ?_
      rw [hL.ddram]
      exact (Function.update_apply cells L.ac.toNat v n).symm
    · have hcgram : L.space = .cgram := hcgram
      rw [hspace] at hcgram
      cases hcgram

/-- A write the responder takes gets through its gate, where that finds the responder free. -/
theorem runBlocks_paced_taken {b : Bindings} {i : Instr} {x : Extract} {phase : Bool} {k : Nat} {bls : List Block}
    {sb : Byte} {s : State} {L : Responder} {r : Register} {v : Byte} (he : s.pins.e = false)
    (hm : s.lcd.model = .reference L) (hfree : phase = true → L.busy = .polls 0)
    (ha : ∀ d, ∃ L', L.accept (rsLevel r) v d = .ok L') :
    ∃ k' sb' t L' d, runBlocks b i x k (pace phase ++ .write r v :: bls) sb s = runBlocks b i x k' bls sb' t
      ∧ t.pins.e = false ∧ t.lcd.model = .reference L' ∧ L.accept (rsLevel r) v d = .ok L'
      ∧ ∀ y ys, s.draws.busy = y :: ys → d = y ∧ t.draws.busy = ys := by
  obtain ⟨k', sb', u, hgate, heu, hmu, hdraws⟩ : ∃ k' sb' u, runBlocks b i x k (pace phase ++ .write r v :: bls) sb s
      = runBlocks b i x k' (.write r v :: bls) sb' u
      ∧ u.pins.e = false ∧ u.lcd.model = .reference L ∧ u.draws.busy = s.draws.busy := by
    cases phase with
    | false => exact ⟨k, sb, s, rfl, he, hm, rfl⟩
    | true =>
      have hL := hfree rfl
      have hsame : L.afterStatus = L := by
        rw [afterStatus_polls hL, Responder.withBusy, Nat.zero_sub, ← hL]
      obtain ⟨u, hu, hd, hmu⟩ :=
        runBlocks_poll_free (b := b) (i := i) (x := x) (k := k) he hm (by rw [hL]; rfl) (.write r v :: bls) sb
      exact ⟨k + 1, _, u, hu, by rw [hd.pins]; rfl, hsame ▸ hmu, (hd.status L hm rfl).2.2.1⟩
  obtain ⟨t, ht, hd⟩ := write_taken (b := b) heu hmu ha sb'
  obtain ⟨L', d, hL', hacc, hdraw⟩ := hd.responder L hmu
  refine ⟨k' + 1, sb', t, L', d, hgate.trans (runBlocks_cons_next ht (by simp)), by rw [hd.pins]; rfl, hL', hacc, ?_⟩
  rwa [hdraws] at hdraw

/-- Of `n` writes to come none leaves the responder busy, and it is not busy now. -/
def NeverBusy (n : Nat) (c : Busy) (ds : List Busy) : Prop :=
  c = .polls 0 ∧ n ≤ ds.length ∧ ∀ x ∈ ds.take n, x = .polls 0

theorem NeverBusy.next {n : Nat} {c : Busy} {ds : List Busy} (h : NeverBusy (n + 1) c ds) :
    ∃ rest, ds = .polls 0 :: rest ∧ NeverBusy n (.polls 0) rest := by
  obtain ⟨-, hlen, hdraws⟩ := h
  cases ds with
  | nil => simp at hlen
  | cons d rest =>
    simp only [List.length_cons, Nat.add_le_add_iff_right, List.take_succ_cons, List.forall_mem_cons] at hlen hdraws
    obtain ⟨rfl, hdraws⟩ := hdraws
    exact ⟨rest, rfl, rfl, hlen, hdraws⟩

/-- The row completes and leaves the responder as the pen. -/
theorem Pen.Row.stored {b : Bindings} {i : Instr} {phase : Bool} {cgram : Memory} {p q : Pen}
    {ws : List (Register × Byte)} (hrow : p.Row ws q) : ∀ {k : Nat} {sb : Byte} {s : State} {L : Responder},
      s.pins.e = false → s.lcd.model = .reference L → L.Shows cgram p →
      (phase = true → NeverBusy ws.length L.busy s.draws.busy) →
      ∃ t L', runBlocks b i .nothing k (pacedBlocks phase ws) sb s = .next t
        ∧ t.reply = some { status := .ok, value := .nothing } ∧ t.seq = .idle ∧ t.lcd.model = .reference L'
        ∧ L'.Shows cgram q := by
  induction hrow with
  | nil p => exact fun {k sb s L} _ hm hL _ => ⟨s.finish .nothing, L, rfl, rfl, rfl, hm, hL⟩
  | @cons p q r w ws hw _ ih =>
    intro k sb s L he hm hL hfree
    obtain ⟨k', sb', t, L', d, hrun, het, hmt, hacc, hdraw⟩ := runBlocks_paced_taken (b := b) (i := i) (x := .nothing)
      (k := k) (bls := pacedBlocks phase ws) (sb := sb) he hm (fun hp => (hfree hp).1)
      (fun d => (hL.takes hw d).imp fun _ h => h.1)
    obtain ⟨M, hM, hL', hbusy⟩ := hL.takes hw d
    obtain rfl : M = L' := Except.ok.inj (hM.symm.trans hacc)
    rw [pacedBlocks_cons, hrun]
    refine ih het hmt hL' fun hp => ?_
    obtain ⟨rest, hdraws, hrest⟩ := (hfree hp).next
    obtain ⟨rfl, hbusyt⟩ := hdraw _ rest hdraws
    rwa [hbusy, hbusyt]

end Sys2Proof.Machine
end

section
/-! PROOF. The statement about text: where an accepted `writeAt` leaves it (44_text_positioning.md R94, R97). -/

namespace Sys2Proof.Machine

section
variable {text : List Byte} {line pos : Nat} (hline : line = 1 ∨ line = 2) (hpos : pos ≤ 16)
  (htext : text.length ≤ 16 - pos) (cells : Nat)
include hline hpos htext

/-- In front of a responder that is never busy at a poll the call completes, and the text is in its cells. -/
theorem writeAt_stores {b : Bindings} {s : State} {L : Responder} (hclean : s.CleanEntry) (hconf : s.ConfiguredWith b)
    (hm : s.lcd.model = .reference L) (hinc : L.increment = true) (hwf : L.ddram.wf ddramUnlisted = true)
    (hfree : s.handle.startupComplete = true →
      NeverBusy (writeAtWrites text line pos cells).length L.busy s.draws.busy) :
    ∃ t L', exec (.writeAt text line pos cells) s = .next t
      ∧ t.reply = some { status := .ok, value := .nothing } ∧ t.seq = .idle ∧ t.lcd.model = .reference L'
      ∧ (∀ a, L'.ddram.read ddramUnlisted a = landed text line pos cells (L.ddram.read ddramUnlisted) a)
      ∧ L'.cgram = L.cgram := by
  have hplan := planOf_eq_row (pacedWrites_writeAt hline hpos htext cells) (by simp) s.handle.startupComplete
  obtain ⟨place, hrow⟩ := Pen.row_writeAt hline hpos htext cells
    { place := none, cells := L.ddram.read ddramUnlisted }
  have hL : L.Shows L.cgram { place := none, cells := L.ddram.read ddramUnlisted } :=
    ⟨hwf, hinc, rfl, rfl, fun _ h => by cases h⟩
  obtain ⟨t, L', ht, hreply, hq, hmt, hL'⟩ := hrow.stored (b := b) (i := .writeAt text line pos cells) (k := 0)
    (sb := 0) (s := { s with reply := none }) hclean.2 hm hL hfree
  refine ⟨t, L', ?_, hreply, hq, hmt, congrFun hL'.ddram, hL'.cgram⟩
  rw [exec_eq_operate rfl, operate_runs hclean.1 hconf (by rw [hplan]), hplan, ht]

/-- By an account that meets the premises and has made the row of the call, the text is in its cells. -/
theorem writeAt_lands {run : List (Seen × Transfer)} {last : Seen} (h : TextPremises run last)
    (hrun : accesses (run.map (·.2)) = (writeAtWrites text line pos cells).map fun w => .write w.1 w.2) :
    last.cell .ddram = landed text line pos cells ((atFirstAccess run last).cell .ddram)
      ∧ last.cell .cgram = (atFirstAccess run last).cell .cgram := by
  obtain ⟨place, hrow⟩ := Pen.row_writeAt hline hpos htext cells
    { place := none, cells := (atFirstAccess run last).cell .ddram }
  obtain ⟨hddram, hcgram, -⟩ := hrow.shows h hrun ⟨rfl, rfl, fun _ h => by cases h⟩
  exact ⟨hddram, hcgram⟩

end

/-- Settles O46: the row of an accepted `writeAt` moves the responder, and any controller whose account meets the
premises, as it moves the pen, and that leaves the cells R97 says. -/
theorem textLandsInItsCells : Obligations.TextLandsInItsCells := by
  intro text line pos cells b s hline hpos htext hclean hconf
  refine ⟨fun L hm hinc hwf hfree => writeAt_stores hline hpos htext cells hclean hconf hm (hinc L hm) hwf hfree, ?_⟩
  intro calls m t run last hcalls hrun hq hend hsince h3 h4 hstay hinc h1 hphase0 hlast
  have hrow := rowMade_of_run (pacedWrites_writeAt hline hpos htext cells) (by simp) hclean hconf hcalls hrun hq hend
  rw [← hsince] at hrow
  have hp1 : s.handle.startupComplete = true → P1 true run last := fun hphase => by
    obtain ⟨hp5, hp1⟩ := h1 hphase
    exact (show s.latched = true from hp5) ▸ hp1
  obtain ⟨hddram, hcgram⟩ := writeAt_lands hline hpos htext cells
    ⟨h3, h4, hstay, hinc, hrow.findsFree hp1 hphase0 hlast⟩ hrow.writes
  exact ⟨congrFun hddram, congrFun hcgram⟩

end Sys2Proof.Machine
end

section
/-! SUPPORT. The shared operations as equations: a row of micro-steps and of blocks goes on from what the first of them
answers, and an idle block takes one call. -/

namespace Sys2Proof.Machine

/-! ## One after another -/

/-- Go on with `k` from an answer; a fault or a refusal stops. -/
def andThen {α β : Type} (o : Host.Outcome α Fault Refusal) (k : α → Host.Outcome β Fault Refusal) :
    Host.Outcome β Fault Refusal :=
  match o with
  | .next a => k a
  | .fault f => .fault f
  | .refused r => .refused r

theorem microStep_lower_eq (b : Bindings) (sb : Byte) (s : State) :
    microStep b (.e false) sb s = andThen (s.dropEnable b) fun u => .next (sb, u) := by
  simp only [microStep]
  cases s.dropEnable b <;> rfl

theorem microStep_sample_eq (b : Bindings) (sb : Byte) (s : State) :
    microStep b .sample sb s
      = andThen (s.lcdSupplies s.pins.rs) fun p => .next (p.1, p.2.elapse 0 (.input p.1)) := by
  simp only [microStep]
  cases s.lcdSupplies s.pins.rs <;> rfl

theorem microSteps_cons_eq (b : Bindings) (m : Micro) (ms : List Micro) (sb : Byte) (s : State) :
    microSteps b (m :: ms) sb s = andThen (microStep b m sb s) fun p => microSteps b ms p.1 p.2 := by
  simp only [microSteps]
  cases microStep b m sb s <;> rfl

theorem runBlocks_cons_eq (b : Bindings) (i : Instr) (x : Extract) (k : Nat) (bl : Block) (bls : List Block) (sb : Byte)
    (s : State) :
    runBlocks b i x k (bl :: bls) sb s = andThen (microSteps b (bl.micros s.timing) sb s) fun p =>
      if bl = .poll ∧ busyFlag p.1 then .next { p.2 with seq := .at i k } else runBlocks b i x (k + 1) bls p.1 p.2 := by
  simp only [runBlocks]
  cases microSteps b (bl.micros s.timing) sb s <;> rfl

/-! ## Taking a call -/

/-- What an idle block does with a call it has taken off the host's stream. -/
def takeCall (c : Call) (s : State) : Host.Outcome State Fault Refusal :=
  match c with
  | .op i => exec i s
  | .hostDelay d => .next (hostWait d s)
  | .word w =>
    match decode w with
    | .ok i => exec i s
    | .error _ => .refused .notABusWord

theorem step_takes {c : Call} {rest : List Call} {s : State} (hq : s.seq = .idle) (hc : s.calls = c :: rest) :
    step s = takeCall c { s with calls := rest } := by
  cases c with
  | op i => exact step_issues hq hc
  | hostDelay d => simp only [step, hq, fetch, hc, takeCall]
  | word w =>
    simp only [step, hq, fetch, hc, takeCall]
    cases decode w <;> rfl

end Sys2Proof.Machine
end

section
/-! SUPPORT. Two states that differ at most in the reply, the trace and the clock: every shared operation answers them
alike (60_exceptions.md R103, 10_state.md R28). -/

namespace Sys2Proof.Machine

/-! ## States that differ in the ghosts -/

/-- The states differ at most in the ghosts. -/
abbrev SameState (s t : State) : Prop := s.erase = t.erase

theorem sameState_iff {s t : State} :
    SameState s t ↔ ∃ reply trace now, t = { s with reply := reply, trace := trace, now := now } := by
  constructor
  · intro h
    refine ⟨t.reply, t.trace, t.now, ?_⟩
    calc t = { t.erase with reply := t.reply, trace := t.trace, now := t.now } := rfl
      _ = { s.erase with reply := t.reply, trace := t.trace, now := t.now } := by rw [h]
  · rintro ⟨reply, trace, now, rfl⟩
    rfl

section
variable {s t : State} (h : SameState s t)
include h

theorem SameState.handle : t.handle = s.handle := (congrArg State.handle h).symm
theorem SameState.pins : t.pins = s.pins := (congrArg State.pins h).symm
theorem SameState.seq : t.seq = s.seq := (congrArg State.seq h).symm
theorem SameState.timing : t.timing = s.timing := (congrArg State.timing h).symm
theorem SameState.calls : t.calls = s.calls := (congrArg State.calls h).symm

end

/-! ## Outcomes that differ in the ghosts -/

/-- The same fault, the same refusal, or two answers that `R` relates. -/
inductive Alike {α : Type} (R : α → α → Prop) : Host.Outcome α Fault Refusal → Host.Outcome α Fault Refusal → Prop
  | next {x y : α} (h : R x y) : Alike R (.next x) (.next y)
  | fault (f : Fault) : Alike R (.fault f) (.fault f)
  | refused (r : Refusal) : Alike R (.refused r) (.refused r)

theorem Alike.sameButGhosts {o o' : Host.Outcome State Fault Refusal} (h : Alike SameState o o') :
    SameButGhosts o o' := by
  cases h with
  | next h => exact h
  | fault f => rfl
  | refused r => rfl

/-- The same byte was sensed, and the states differ at most in the ghosts. -/
def SameSensed (p q : Byte × State) : Prop := p.1 = q.1 ∧ SameState p.2 q.2

theorem Alike.andThen {α β : Type} {R : α → α → Prop} {S : β → β → Prop} {o o' : Host.Outcome α Fault Refusal}
    {k k' : α → Host.Outcome β Fault Refusal} (h : Alike R o o') (hk : ∀ x y, R x y → Alike S (k x) (k' y)) :
    Alike S (andThen o k) (andThen o' k') := by
  cases h with
  | next h => exact hk _ _ h
  | fault f => exact .fault f
  | refused r => exact .refused r

/-! ## The controller's two edges -/

section
variable {s t : State} (h : SameState s t)
include h

theorem lcdTakes_alike (rs : Bool) (v : Byte) : Alike SameState (s.lcdTakes rs v) (t.lcdTakes rs v) := by
  obtain ⟨reply, trace, now, rfl⟩ := sameState_iff.1 h
  simp only [State.lcdTakes]
  split
  · exact .next rfl
  · split
    · exact .next rfl
    · exact .refused _

theorem lcdSupplies_alike (rs : Bool) : Alike SameSensed (s.lcdSupplies rs) (t.lcdSupplies rs) := by
  obtain ⟨reply, trace, now, rfl⟩ := sameState_iff.1 h
  simp only [State.lcdSupplies]
  split
  · exact .next ⟨rfl, rfl⟩
  · split
    · split
      · exact .next ⟨rfl, rfl⟩
      · exact .refused _
    · exact .next ⟨rfl, rfl⟩

/-! ## Micro-steps -/

theorem elapse_same (d : Nat) (ev : Event) : SameState (s.elapse d ev) (t.elapse d ev) := by
  obtain ⟨reply, trace, now, rfl⟩ := sameState_iff.1 h
  rfl

theorem driveE_same (b : Bindings) (v : Bool) : SameState (s.driveE b v) (t.driveE b v) := by
  obtain ⟨reply, trace, now, rfl⟩ := sameState_iff.1 h
  rfl

theorem dropEnable_alike (b : Bindings) : Alike SameState (s.dropEnable b) (t.dropEnable b) := by
  have hlow := driveE_same h b false
  simp only [State.dropEnable, h.pins]
  split
  · exact lcdTakes_alike hlow _ _
  · exact .next hlow

theorem sample_alike (b : Bindings) (sb : Byte) :
    Alike SameSensed (microStep b .sample sb s) (microStep b .sample sb t) := by
  simp only [microStep_sample_eq, h.pins]
  refine (lcdSupplies_alike h _).andThen ?_
  rintro ⟨v, u⟩ ⟨-, w⟩ ⟨rfl, huw⟩
  exact .next ⟨rfl, elapse_same huw ..⟩

theorem microStep_alike (b : Bindings) (m : Micro) (sb : Byte) :
    Alike SameSensed (microStep b m sb s) (microStep b m sb t) := by
  have hdrop := dropEnable_alike h b
  have hsample := sample_alike h b sb
  obtain ⟨reply, trace, now, rfl⟩ := sameState_iff.1 h
  cases m with
  | rs v =>
    simp only [microStep]
    split
    · exact .refused _
    · exact .next ⟨rfl, rfl⟩
  | e v =>
    cases v with
    | true => exact .next ⟨rfl, rfl⟩
    | false =>
      simp only [microStep_lower_eq]
      exact hdrop.andThen fun u v huv => .next ⟨rfl, huv⟩
  | sample => exact hsample
  | rw v => exact .next ⟨rfl, rfl⟩
  | dir d => exact .next ⟨rfl, rfl⟩
  | out v => exact .next ⟨rfl, rfl⟩
  | delay d => exact .next ⟨rfl, rfl⟩
  | setStartup => exact .next ⟨rfl, rfl⟩

end

theorem microSteps_alike (b : Bindings) : ∀ (ms : List Micro) (sb : Byte) {s t : State}, SameState s t →
    Alike SameSensed (microSteps b ms sb s) (microSteps b ms sb t)
  | [], _, _, _, h => .next ⟨rfl, h⟩
  | m :: ms, sb, s, t, h => by
    simp only [microSteps_cons_eq]
    refine (microStep_alike h b m sb).andThen ?_
    rintro ⟨v, u⟩ ⟨-, w⟩ ⟨rfl, huw⟩
    exact microSteps_alike b ms v huw

/-! ## Running blocks, issuing and going on -/

theorem runBlocks_alike (b : Bindings) (i : Instr) (x : Extract) : ∀ (bls : List Block) (k : Nat) (sb : Byte)
    {s t : State}, SameState s t → Alike SameState (runBlocks b i x k bls sb s) (runBlocks b i x k bls sb t)
  | [], _, _, s, t, h => by
    obtain ⟨reply, trace, now, rfl⟩ := sameState_iff.1 h
    exact .next rfl
  | bl :: bls, k, sb, s, t, h => by
    simp only [runBlocks_cons_eq, h.timing]
    refine (microSteps_alike b _ sb h).andThen ?_
    rintro ⟨v, u⟩ ⟨-, w⟩ ⟨rfl, huw⟩
    dsimp only
    split
    · obtain ⟨reply, trace, now, rfl⟩ := sameState_iff.1 huw
      exact .next rfl
    · exact runBlocks_alike b i x bls (k + 1) v huw

section
variable {s t : State} (h : SameState s t)
include h

theorem runFrom_alike (i : Instr) (p : Plan) (k : Nat) : Alike SameState (runFrom i p k s) (runFrom i p k t) := by
  obtain ⟨reply, trace, now, rfl⟩ := sameState_iff.1 h
  simp only [runFrom]
  split
  · exact .fault _
  · exact runBlocks_alike _ i _ _ k 0 rfl

theorem operate_alike (i : Instr) (p : Plan) : Alike SameState (operate i p s) (operate i p t) := by
  have hrun := runFrom_alike h i p 0
  obtain ⟨reply, trace, now, rfl⟩ := sameState_iff.1 h
  simp only [operate]
  split
  · exact .refused _
  · split
    · split
      · exact .next rfl
      · exact hrun
    · exact .next rfl

theorem resume_alike (i : Instr) (p : Plan) (k : Nat) : Alike SameState (resume i p k s) (resume i p k t) := by
  have hrun := runFrom_alike h i p k
  obtain ⟨reply, trace, now, rfl⟩ := sameState_iff.1 h
  simp only [resume]
  split
  · exact hrun
  · exact .next rfl

theorem execConfigure_alike (d : DataBus) (dir : PortName) (l : ControlLines) :
    Alike SameState (execConfigure d dir l s) (execConfigure d dir l t) := by
  obtain ⟨reply, trace, now, rfl⟩ := sameState_iff.1 h
  simp only [execConfigure]
  split
  · exact .refused _
  · split
    · exact .refused _
    · split
      · exact .next rfl
      · exact .refused _

theorem execMapAddress_alike (line col : Nat) :
    Alike SameState (execMapAddress line col s) (execMapAddress line col t) := by
  obtain ⟨reply, trace, now, rfl⟩ := sameState_iff.1 h
  simp only [execMapAddress]
  split
  · exact .refused _
  · exact .next rfl

theorem exec_alike (i : Instr) : Alike SameState (exec i s) (exec i t) := by
  by_cases hi : ReachesBus i = true
  · simp only [exec_eq_operate hi, h.handle]
    exact operate_alike h i _
  · cases i with
    | configure d dir l => exact execConfigure_alike h d dir l
    | mapAddress line col => exact execMapAddress_alike h line col
    | _ => exact absurd rfl hi

/-! ## The host's stream -/

theorem hostWait_same (d : Nat) : SameState (hostWait d s) (hostWait d t) := by
  obtain ⟨reply, trace, now, rfl⟩ := sameState_iff.1 h
  simp only [hostWait, elapse_lcd]
  split <;> rfl

theorem calls_same (c : List Call) : SameState { s with calls := c } { t with calls := c } := by
  obtain ⟨reply, trace, now, rfl⟩ := sameState_iff.1 h
  rfl

theorem takeCall_alike (c : Call) : Alike SameState (takeCall c s) (takeCall c t) := by
  cases c with
  | op i => exact exec_alike h i
  | hostDelay d => exact .next (hostWait_same h d)
  | word w =>
    simp only [takeCall]
    split
    · exact exec_alike h _
    · exact .refused _

theorem step_alike : Alike SameState (step s) (step t) := by
  match hq : s.seq with
  | .at i k =>
    simp only [step, h.seq, h.handle, hq]
    exact resume_alike h i _ k
  | .idle =>
    cases hc : s.calls with
    | nil =>
      simp only [step, fetch, h.seq, h.calls, hq, hc]
      exact .next h
    | cons c rest =>
      rw [step_takes hq hc, step_takes (h.seq.trans hq) (h.calls.trans hc)]
      exact takeCall_alike (calls_same h rest) c

end

end Sys2Proof.Machine
end

section
/-! SUPPORT. What an operation may report and how it may stop: a run of blocks reports OK or nothing, the tests of
`writeAt`, and no fault on a bound handle (60_exceptions.md R98, R104, R105). -/

namespace Sys2Proof.Machine

/-! ## The status -/

/-- The state holds no reply, or one with status OK. -/
def State.RepliesOk (s : State) : Prop := ∀ r, s.reply = some r → r.status = .ok

theorem finish_repliesOk (v : Value) (s : State) : (s.finish v).RepliesOk := fun r hr => by
  obtain rfl := Option.some.inj hr
  rfl

/-- An operation that has begun is not rejected any more. -/
theorem runBlocks_repliesOk {b : Bindings} {i : Instr} {x : Extract} {k : Nat} {bls : List Block} {sb : Byte}
    {s t : State} (hs : s.RepliesOk) (h : runBlocks b i x k bls sb s = .next t) : t.RepliesOk :=
  runBlocks_keeps (fun s v _ => finish_repliesOk v s) (fun _ _ hs => hs) bls
    (fun bl _ sb sb' u v hu hv => by
      obtain ⟨-, -, -, -, hreply, -⟩ := microSteps_holds hv
      rwa [State.RepliesOk, hreply]) k sb s t hs h

/-! ## The tests of `writeAt` -/

theorem planWriteAt_outOfRange {line pos : Nat} (h : ¬((line = 1 ∨ line = 2) ∧ pos ≤ 16)) (text : List Byte)
    (cells : Nat) (phase : Bool) : (planWriteAt text line pos cells phase).rejected = some .outOfRange := by
  rw [planWriteAt, mapAddress_out_of_range h]

theorem planWriteAt_tooLong {text : List Byte} {line pos : Nat} (h : (line = 1 ∨ line = 2) ∧ pos ≤ 16)
    (hlong : 16 - pos < text.length) (cells : Nat) (phase : Bool) :
    (planWriteAt text line pos cells phase).rejected = some .tooLong := by
  have hcols : Config.cols - pos < text.length := hlong
  rw [planWriteAt, mapAddress_in_range h.1 h.2]
  simp only [hcols, if_true]

/-! ## Faults -/

theorem execConfigure_not_fault (s : State) (f : Fault) (d : DataBus) (dir : PortName) (l : ControlLines) :
    execConfigure d dir l s ≠ .fault f := by
  unfold execConfigure
  split
  · exact nofun
  · split
    · exact nofun
    · split <;> exact nofun

theorem execMapAddress_not_fault (s : State) (f : Fault) (line col : Nat) : execMapAddress line col s ≠ .fault f := by
  unfold execMapAddress
  split <;> exact nofun

/-- The handle has bindings where an operation would read them (10_state.md R30). -/
def State.Bound (s : State) : Prop := s.handle.configured = true → ∃ b, s.handle.bindings = some b

section
variable {s : State} (h : s.Bound) (f : Fault)
include h

theorem runFrom_not_fault (hc : s.handle.configured = true) (i : Instr) (p : Plan) (k : Nat) :
    runFrom i p k s ≠ .fault f := by
  obtain ⟨b, hb⟩ := h hc
  simp only [runFrom, hb]
  exact runBlocks_not_fault b i _ f _ k 0 _

theorem operate_not_fault (i : Instr) (p : Plan) : operate i p s ≠ .fault f := by
  unfold operate
  split
  · exact nofun
  · split
    · next hc =>
      split
      · exact nofun
      · exact runFrom_not_fault h f hc i p 0
    · exact nofun

theorem resume_not_fault (i : Instr) (p : Plan) (k : Nat) : resume i p k s ≠ .fault f := by
  unfold resume
  split
  · next hc => exact runFrom_not_fault h f hc i p k
  · exact nofun

theorem exec_not_fault (i : Instr) : exec i s ≠ .fault f := by
  by_cases hi : ReachesBus i = true
  · rw [exec_eq_operate hi]
    exact operate_not_fault h f i _
  · cases i with
    | configure d dir l => exact execConfigure_not_fault s f d dir l
    | mapAddress line col => exact execMapAddress_not_fault s f line col
    | _ => exact absurd rfl hi

theorem takeCall_not_fault (c : Call) : takeCall c s ≠ .fault f := by
  cases c with
  | op i => exact exec_not_fault h f i
  | hostDelay d => exact nofun
  | word w =>
    simp only [takeCall]
    split
    · exact exec_not_fault h f _
    · exact nofun

theorem step_not_fault : step s ≠ .fault f := by
  match hq : s.seq with
  | .at i k =>
    simp only [step, hq]
    exact resume_not_fault h f i _ k
  | .idle =>
    cases hc : s.calls with
    | nil =>
      simp only [step, hq, fetch, hc]
      exact nofun
    | cons c rest =>
      rw [step_takes hq hc]
      exact takeCall_not_fault (s := { s with calls := rest }) h f c

end

end Sys2Proof.Machine
end

section
/-! PROOF. The statements about what an operation reports, how a step can stop, and the ghosts (60_exceptions.md). -/

namespace Sys2Proof.Machine

/-- Settles O55: a step reads no ghost, operation by operation. -/
theorem ghostsAffectNothing : Obligations.GhostsAffectNothing :=
  fun _ _ h => (step_alike h).sameButGhosts

/-- Settles O32: an unconfigured handle is seen before the plan, and the plan tests the range before the length;
`writeLine` is `writeAt` from column 0. -/
theorem rejectionOrder : Obligations.RejectionOrder := by
  intro text line pos cells s hq ranged rejects
  refine ⟨fun hc => ⟨exec_unconfigured rfl hq hc, exec_unconfigured rfl hq hc⟩, fun hc hout => ?_,
    fun hc hin hlong => ?_, fun hc hout => ?_, fun hc hin hlong => ?_⟩
  · exact exec_rejected rfl hq hc (planWriteAt_outOfRange hout text cells _)
  · exact exec_rejected rfl hq hc (planWriteAt_tooLong hin hlong cells _)
  · exact exec_rejected rfl hq hc (planWriteAt_outOfRange (fun h => hout h.1) text 16 _)
  · exact exec_rejected rfl hq hc (planWriteAt_tooLong ⟨hin, Nat.zero_le 16⟩ hlong 16 _)

/-- Settles O35: an operation that runs its blocks reports OK or nothing yet, `Configure` reports OK, and what is left
changes the reply alone. -/
theorem rejectedOperationsHaveNoEffect : Obligations.RejectedOperationsHaveNoEffect := by
  intro i s t st v h hreply hst
  obtain ⟨-, ⟨r, rfl⟩ | ⟨d, dir, l, -, -, -, rfl⟩ | ⟨-, -, -, b, -, hr⟩⟩ := exec_cases h
  · obtain rfl := Option.some.inj hreply
    rfl
  · obtain ⟨rfl, -⟩ := Reply.mk.inj (Option.some.inj hreply)
    exact absurd rfl hst
  · exact absurd (runBlocks_repliesOk (s := { s with reply := none }) nofun hr _ hreply) hst

/-- Settles O51: the one fault is reading bindings that have no value, and by the invariant a configured handle has
them. -/
theorem nothingRaisesAFault : Obligations.NothingRaisesAFault :=
  fun _ f hs => step_not_fault (fun hc => (hs.bound hc).imp fun _ hb => hb.1) f

end Sys2Proof.Machine
end

section
/-! SUPPORT. The host's wait, `Configure` on an unconfigured handle, `FunctionSet` in phase 0 in front of any controller,
and the invariants after a restart (20_memory.md R50, 43_register_access.md R91, 42_instruction_encoder.md R85,
70_reset_and_hazards.md R113). -/

namespace Sys2Proof.Machine

/-! ## The host's wait -/

theorem hostWait_now_le (d : Nat) (s : State) : s.now + d ≤ (hostWait d s).now := by
  obtain ⟨-, hw⟩ | ⟨L, -, hw⟩ := hostWait_cases d s <;> simp only [hw, elapse_now] <;> omega

@[simp] theorem hostWait_reply (d : Nat) (s : State) : (hostWait d s).reply = s.reply := by
  obtain ⟨-, hw⟩ | ⟨L, -, hw⟩ := hostWait_cases d s <;> simp [hw]

/-- A responder has its busy count cleared (20_memory.md R50). -/
theorem hostWait_responder (d : Nat) {s : State} {L : Responder} (hm : s.lcd.model = .reference L) :
    (hostWait d s).lcd.model = .reference L.afterHostDelay := by
  obtain ⟨ho, -⟩ | ⟨M, hM, hw⟩ := hostWait_cases d s
  · rw [ho] at hm
    cases hm
  · obtain rfl := LcdModel.reference.inj (hm.symm.trans hM)
    rw [hw]

/-- The oracle is not touched by a wait. -/
theorem hostWait_oracle (d : Nat) {s : State} (hm : s.UnderOracle) : (hostWait d s).lcd = s.lcd := by
  obtain ⟨-, hw⟩ | ⟨L, hL, -⟩ := hostWait_cases d s
  · rw [hw, elapse_lcd]
  · rw [State.UnderOracle, hL] at hm
    cases hm

/-! ## Configure, then Function Set in phase 0 -/

/-- The state an accepted `Configure` leaves (43_register_access.md R91). -/
def State.boundTo (b : Bindings) (s : State) : State :=
  { s with
    handle := { configured := true, startupComplete := false, bindings := some b }
    reply := some { status := .ok, value := .nothing } }

theorem exec_configure_accepts {d : DataBus} {dir : PortName} {c : ControlLines} {s : State} (hq : s.seq = .idle)
    (hun : s.Unconfigured) (hwf : (Instr.configure d dir c).wellFormed = true) :
    exec (.configure d dir c) s = .next (s.boundTo (boundBy d dir c)) := by
  rw [exec_configure_of_idle hq, hun.1, hwf]
  rfl

/-- A controller stops on no Function Set. -/
theorem accepts_functionSetByte (s : State) (l : BusLength) (n : LineCount) (f : Font) :
    s.LcdAccepts .instruction (functionSetByte l n f) := by
  have key : ∀ v : Byte, IsFunctionSetByte v → v ≠ 0x00 ∧ v.extractLsb' 4 4 ≠ 0x1#4 := by
    unfold IsFunctionSetByte
    decide
  have hformat : IsFunctionSetByte (functionSetByte l n f) := by
    unfold IsFunctionSetByte
    cases l <;> cases n <;> cases f <;> decide
  exact fun _ _ => key _ hformat

/-- In phase 0 the gate is nothing, so Function Set is its write and the phase flag, on any controller (R85). -/
theorem exec_functionSet_phase0 {b : Bindings} {s : State} (hclean : s.CleanEntry) (hconf : s.ConfiguredWith b)
    (hphase : s.handle.startupComplete = false) (l : BusLength) (n : LineCount) (f : Font) :
    ∃ u, exec (.functionSet l n f) s
        = .next (State.finish .nothing { u with handle := { u.handle with startupComplete := true } })
      ∧ WriteDone b .instruction (functionSetByte l n f) { s with reply := none } u := by
  obtain ⟨u, hu, hd⟩ := write_completes (b := b) (s := { s with reply := none }) 0 hclean.2
    (accepts_functionSetByte _ l n f)
  have hblocks : (planOf (.functionSet l n f) false).blocks
      = [.write .instruction (functionSetByte l n f), .setStartup] := rfl
  refine ⟨u, ?_, hd⟩
  rw [exec_eq_operate rfl, hphase, operate_runs hclean.1 hconf rfl, hblocks,
    runBlocks_cons_next (bl := .write .instruction (functionSetByte l n f)) hu nofun]
  exact runBlocks_last (bl := .setStartup) rfl nofun

/-! ## A restart -/

theorem restart_unconfigured (pins : Pins) (ports : Memory) (calls : List Call) (s : State) :
    (s.restart pins ports calls).Unconfigured := ⟨rfl, rfl⟩

theorem restart_inv {pins : Pins} {ports : Memory} {s : State} (calls : List Call) (he : pins.e = false)
    (hports : ports.wf portUnlisted = true) (hlcd : s.lcd.model.wf) : (s.restart pins ports calls).Inv where
  ports := hports
  lcd := hlcd
  bound := nofun
  unbound := fun _ => ⟨rfl, rfl⟩
  progress := fun h => absurd rfl h
  enableLow := he

theorem ordered_of_no_events {s : State} (h : s.trace = []) : s.Ordered := by
  simp [State.Ordered, h, StampsFrom]

theorem rested_of_no_events {s : State} (h : s.trace = []) : s.Rested := by
  simp [State.Rested, State.monitor, h, Monitor.start]

end Sys2Proof.Machine
end

section
/-! PROOF. The statements about the time a transfer takes, the host's wait, and a restart of the process without a power
cycle (70_reset_and_hazards.md R130, R116, R113). -/

namespace Sys2Proof.Machine

/-- Settles O12: each of the two operations is one transfer, and the transfer's delays are part of its time. -/
theorem transfersTakeTheirTime : Obligations.TransfersTakeTheirTime := by
  refine ⟨fun r v b s t hclean hconf h => ?_, fun r b s t hclean hconf h => ?_⟩
  · obtain ⟨u, rfl, hd⟩ := exec_writeLcd_done hclean hconf h
    exact hd.now
  · obtain ⟨sb, u, rfl, hd⟩ := exec_readLcd_done hclean hconf h
    exact hd.now

/-- Settles O48: taking the entry is the wait, and the wait is one delay event. -/
theorem hostDelayClearsTheBusyCount : Obligations.HostDelayClearsTheBusyCount := by
  intro d calls s hq hc
  have hlog : Logs (.delay d) { s with calls := calls } (hostWait d { s with calls := calls }) := hostWait_logs d _
  exact ⟨_, step_takes hq hc, hostWait_calls d _, hostWait_now_le d { s with calls := calls }, hostWait_handle d _,
    hlog.pins, hostWait_ports d _, (hostWait_seq d _).trans hq, hostWait_reply d _, events_append hlog.trace,
    fun L hm => hostWait_responder d (s := { s with calls := calls }) hm,
    fun ho => hostWait_oracle d (s := { s with calls := calls }) ho⟩

/-- Settles O57: the restarted block has an empty trace and an unconfigured handle, so `Configure` binds it in phase 0,
where Function Set is its write alone, which every controller takes. -/
theorem restartKeepsTheController : Obligations.RestartKeepsTheController := by
  intro pins ports calls s t
  refine ⟨rfl, restart_unconfigured pins ports calls s, rfl, rfl, rfl, rfl, fun he hports hlcd => ?_,
    fun d dir c l n f he hwf => ?_⟩
  · have htrace : t.trace = [] := rfl
    exact ⟨restart_inv calls he hports hlcd, ordered_of_no_events htrace, rested_of_no_events htrace,
      pinsFollowTrace_of_no_events htrace⟩
  · have hconfigure := exec_configure_accepts (s := t) rfl (restart_unconfigured pins ports calls s) hwf
    obtain ⟨u, hset, hd⟩ := exec_functionSet_phase0 (b := boundBy d dir c) (s := t.boundTo (boundBy d dir c))
      ⟨rfl, he⟩ ⟨rfl, rfl⟩ rfl l n f
    refine ⟨_, _, hconfigure, hset, ?_, rfl, rfl, ?_⟩
    · rw [← functionSetByte_eq_table]
      exact hd.events
    · have hwidth : u.lcd.width = latchWidth s.lcd.width false (functionSetByte l n f) := hd.width
      refine hwidth.trans ?_
      cases s.lcd.width with
      | some w => rfl
      | none => exact latchWidth_functionSetByte l n f

end Sys2Proof.Machine
end
